-- ==== Sys2Proof/Word.lean ====
section
/-! DEFINITION. The word types of the base122 CORE (00_scope.md R8, R9): bytes, 7-bit chunks,
11-bit scalars, 3-bit index fields, and the illegal index of a dangerous value. -/

namespace Sys2Proof

/-- A byte of a buffer: BYTE_W = 8 bits (R8). -/
abbrev Byte := BitVec 8

/-- A chunk, the atomic payload unit: CHUNK_W = PAY_W = 7 bits (R8, R14). -/
abbrev Chunk := BitVec 7

/-- The scalar of a two-byte escape: SCALAR_W = 11 bits (R8, R14). -/
abbrev Scalar := BitVec 11

/-- The index field of an escape: IDXF_W = 3 bits (R8, R14). -/
abbrev IndexField := BitVec 3

/-- The illegal index k of a dangerous value, 0 to 5 (R14, R34). -/
abbrev Index := Fin 6

end Sys2Proof
end

