-- ==== Sys2Proof/Config.lean ====
section
/-! DEFINITION. What is fixed for this hardware: the dangerous set DTAB (10_state.md R34) and the
configuration parameter STRICT (R35). IDX_W and OUT_CAP are unbounded (00_scope.md R8): indices and
lengths are natural numbers and an append never fails, so neither has a constant here (log 7). -/

namespace Sys2Proof

/-- The dangerous set in index order 0 to 5: NUL, LF, CR, double quote, ampersand, backslash (R34). -/
def Config.dtab : Vector Chunk 6 := #v[0x00#7, 0x0A#7, 0x0D#7, 0x22#7, 0x26#7, 0x5C#7]

/-- `v in DTAB` (00_scope.md R11): v equals one of the six entries. -/
def Config.inDtab (v : Chunk) : Bool := Config.dtab.toList.contains v

/-- STRICT for this hardware: 1 (R35, 92_eei_decisions.md D4). It is the value that the state's
configuration bit has at reset; no operation writes that bit (log 8). -/
def Config.strict : Bool := true

end Sys2Proof
end

