-- ==== Sys2Proof/Syntax.lean ====
section
/-! DEFINITION. The instructions of the base122 CORE: one constructor per row of
spec/opcode_table.json, in the table's order (30_encoding.md R99). Operands are the fields of the
row's bit pattern, and for the operations that no bits select the operands the operation takes. -/

namespace Sys2Proof

/-- One constructor per row of the opcode table. `p` is a payload, `k` an illegal index or index
field, `c`, `n`, `v` are chunks, `x` and `y` the don't-care bits of an illegal row. -/
inductive Instr where
  /-- LIT c: one-byte unit `0ccccccc` (R81, R164). -/
  | lit (c : Chunk)
  /-- ESC 0, p: `1100001p 10pppppp` (R84, R166). -/
  | esc0 (p : Chunk)
  /-- ESC 1, p: `1100011p 10pppppp` (R84, R166). -/
  | esc1 (p : Chunk)
  /-- ESC 2, p: `1100101p 10pppppp` (R84, R166). -/
  | esc2 (p : Chunk)
  /-- ESC 3, p: `1100111p 10pppppp` (R84, R166). -/
  | esc3 (p : Chunk)
  /-- ESC 4, p: `1101001p 10pppppp` (R84, R166). -/
  | esc4 (p : Chunk)
  /-- ESC 5, p: `1101011p 10pppppp` (R84, R166). -/
  | esc5 (p : Chunk)
  /-- ESCS p, the shortened escape: `1101111p 10pppppp` (R84, R167). -/
  | escs (p : Chunk)
  /-- First byte `10xxxxxx`, cause LEAD (R89, R168). -/
  | illLead10 (x : BitVec 6)
  /-- First byte `111xxxxx`, cause LEAD (R89, R168). -/
  | illLead111 (x : BitVec 5)
  /-- First byte `110xxxxx` at the last index of the text, cause TRUNC (R90, R168). -/
  | illTrunc (x : BitVec 5)
  /-- `110xxxxx` then a second byte y that is not `10xxxxxx`, cause CONT (R90, R168). -/
  | illCont (x : BitVec 5) (y : Byte)
  /-- `1100000x 10xxxxxx`, scalar below 128, cause OVERLONG (R89, R168). -/
  | illOverlong (p : Chunk)
  /-- `110kkk0x 10xxxxxx`, fixed bit 0 under STRICT = 1, cause FIXED (R89, R168). -/
  | illFixed (k : IndexField) (p : Chunk)
  /-- `1101101p 10pppppp`, index field 6, cause INDEX6 (R88, R168). -/
  | illIndex6 (p : Chunk)
  /-- `1101111p 10pppppp` with p not in DTAB under STRICT = 1, cause SHORTPAY (R168). -/
  | illShortpay (p : Chunk)
  /-- `110kkk0p 10pppppp` read under STRICT = 0 as ESC k, p (R89, R99). -/
  | esckF0 (k : Index) (p : Chunk)
  /-- `1101110p 10pppppp` read under STRICT = 0 as ESCS p (R89, R99). -/
  | escsF0 (p : Chunk)
  /-- `1101100p 10pppppp` read under STRICT = 0, cause INDEX6 (R89, R99). -/
  | illIndex6F0 (p : Chunk)
  /-- Classifier pattern `0000000` (R94, R130). -/
  | classD0
  /-- Classifier pattern `0001010` (R94, R130). -/
  | classD1
  /-- Classifier pattern `0001101` (R94, R130). -/
  | classD2
  /-- Classifier pattern `0100010` (R94, R130). -/
  | classD3
  /-- Classifier pattern `0100110` (R94, R130). -/
  | classD4
  /-- Classifier pattern `1011100` (R94, R130). -/
  | classD5
  /-- Classifier default: none of the six patterns matches c (R94, R130). -/
  | classSafe (c : Chunk)
  /-- PUT1 c, dispatch `0x`: emit a safe chunk (R95, R142). -/
  | put1 (c : Chunk)
  /-- PUTE k n, dispatch `11`: emit a full escape (R95, R144). -/
  | pute (k : Index) (n : Chunk)
  /-- PUTS c, dispatch `10`: emit a shortened escape (R95, R146). -/
  | puts (c : Chunk)
  /-- GET7: the next chunk of ENC.IN (R110). -/
  | get7
  /-- CLASS c: safe, or dangerous with its index (R130). -/
  | classify (c : Chunk)
  /-- DVAL k: the table lookup DTAB[k] (R133). -/
  | dval (k : IndexField)
  /-- ENC.STEP: one iteration of the encoder loop (R148). -/
  | encStep
  /-- ENCODE: a whole encode run (R149). -/
  | encode
  /-- PUSH7 v: push a chunk into the accumulator (R160). -/
  | push7 (v : Chunk)
  /-- DEC.STEP: fetch, check and execute one unit (R172). -/
  | decStep
  /-- DECODE: a whole decode run (R174). -/
  | decode
  /-- ENC.START: reset of the encode engine (R190). -/
  | encStart
  /-- DEC.START: reset of the decode engine (R191). -/
  | decStart
deriving DecidableEq, Repr

end Sys2Proof
end

