-- ==== Sys2Proof/WellFormed.lean ====
section
/-! DEFINITION. Which terms of Instr are instructions: the operand conditions that the rows'
`condition` entries and the rules of spec/ put on each (30_encoding.md R89 to R92, 43_unpacker.md
R168, 42_packer.md R142, R146, 41_classifier.md R133). -/

namespace Sys2Proof

/-- The operand conditions of an instruction under the given value of STRICT. A row that a value of
STRICT takes out of the map (R89, R99) is not well formed under it. -/
def Instr.wellFormedAt (strict : Bool) : Instr → Bool
  | .lit _ => true
  | .esc0 _ => true
  | .esc1 _ => true
  | .esc2 _ => true
  | .esc3 _ => true
  | .esc4 _ => true
  | .esc5 _ => true
  | .escs p => !strict || Config.inDtab p
  | .illLead10 _ => true
  | .illLead111 _ => true
  | .illTrunc _ => true
  | .illCont _ y => y.extractLsb' 6 2 != 0b10#2
  | .illOverlong _ => true
  | .illFixed k _ => strict && k != 0#3
  | .illIndex6 _ => true
  | .illShortpay p => strict && !Config.inDtab p
  | .esckF0 k _ => !strict && k != 0
  | .escsF0 _ => !strict
  | .illIndex6F0 _ => !strict
  | .classD0 => true
  | .classD1 => true
  | .classD2 => true
  | .classD3 => true
  | .classD4 => true
  | .classD5 => true
  | .classSafe c => !Config.inDtab c
  | .put1 c => !Config.inDtab c
  | .pute _ _ => true
  | .puts c => Config.inDtab c
  | .get7 => true
  | .classify _ => true
  | .dval k => k.toNat < 6
  | .encStep => true
  | .encode => true
  | .push7 _ => true
  | .decStep => true
  | .decode => true
  | .encStart => true
  | .decStart => true

/-- Well formed for this hardware, STRICT = 1. -/
def Instr.wellFormed (i : Instr) : Bool := i.wellFormedAt Config.strict

end Sys2Proof
end

