-- ==== Sys2Proof/Decode.lean ====
section
/-! DEFINITION. Decoding and encoding. Three kinds of bit pattern select an instruction
(30_encoding.md R99): the bytes of a text unit (formats U1 and U2), a chunk before the classifier
(format C7), and the packer's dispatch bits (format DSP). The other rows of the table have mask 0
and no encoding. -/

namespace Sys2Proof

/-! ### Fields of a unit (30_encoding.md R84 to R87) -/

/-- The illegal index as a 3-bit index field (R84). -/
def indexField (k : Index) : IndexField := BitVec.ofNat 3 k.val

/-- The first byte of an escape, R85: `0xC2 | (k << 2) | (p >> 6)`. -/
def escByte1 (k : IndexField) (p : Chunk) : Byte :=
  0xC2#8 ||| (k.setWidth 8 <<< 2) ||| (p.setWidth 8 >>> 6)

/-- The second byte of an escape, R85: `0x80 | (p & 0x3F)`. -/
def escByte2 (p : Chunk) : Byte := 0x80#8 ||| (p.setWidth 8 &&& 0x3F#8)

/-- `b1[7:5] = 0b110`: the byte begins a two-byte unit (R87). -/
def beginsEscape (b1 : Byte) : Bool := b1.extractLsb' 5 3 == 0b110#3

/-- `b2[7:6] = 0b10`: the byte is a second byte (R90). -/
def isContinuation (b2 : Byte) : Bool := b2.extractLsb' 6 2 == 0b10#2

/-- The scalar s = b1[4:0] : b2[5:0] (R86). -/
def unitScalar (b1 b2 : Byte) : Scalar := b1.extractLsb' 0 5 ++ b2.extractLsb' 0 6

/-- The index field k = s[10:8] (R86). -/
def scalarIndex (s : Scalar) : IndexField := s.extractLsb' 8 3

/-- The fixed bit F = s[7] (R86). -/
def scalarFixed (s : Scalar) : Bool := s.getLsbD 7

/-- The payload p = s[6:0] (R86). -/
def scalarPayload (s : Scalar) : Chunk := s.extractLsb' 0 7

/-! ### The decoder -/

/-- Why the decoder answers no instruction, by name. -/
inductive Reject where
  /-- There is no byte, so no unit. -/
  | noByte
  /-- Bytes are left over after the unit. -/
  | trailingBytes
  /-- The dispatch bit d does not say whether the chunk in hand is dangerous (R95). -/
  | dispatchBit
deriving DecidableEq, Repr

/-- The unit that a two-byte form of scalar s is, once its second byte has passed its checks: checks
4 to 7 of R168 in their order, then the index field (R88, R89). -/
def scalarUnit (strict : Bool) (s : Scalar) : Instr :=
  let k := scalarIndex s
  let p := scalarPayload s
  if s < 128#11 then .illOverlong p
  else if scalarFixed s then
    if k = 0#3 then .esc0 p
    else if k = 1#3 then .esc1 p
    else if k = 2#3 then .esc2 p
    else if k = 3#3 then .esc3 p
    else if k = 4#3 then .esc4 p
    else if k = 5#3 then .esc5 p
    else if k = 6#3 then .illIndex6 p
    else if strict && !Config.inDtab p then .illShortpay p
    else .escs p
  else if strict then .illFixed k p
  else if h : k.toNat < 6 then .esckF0 ⟨k.toNat, h⟩ p
  else if k = 6#3 then .illIndex6F0 p
  else .escsF0 p

/-- The unit at the head of a text, framed by its first byte (R87), and the bytes after it. The
checks are those of R168 in their order. -/
def decodeUnit (strict : Bool) : List Byte → Except Reject (Instr × List Byte)
  | [] => .error .noByte
  | b1 :: rest =>
    if b1.getLsbD 7 = false then .ok (.lit (b1.extractLsb' 0 7), rest)
    else if beginsEscape b1 then
      match rest with
      | [] => .ok (.illTrunc (b1.extractLsb' 0 5), [])
      | b2 :: rest' =>
        if isContinuation b2 then .ok (scalarUnit strict (unitScalar b1 b2), rest')
        else .ok (.illCont (b1.extractLsb' 0 5) b2, rest')
    else if b1.getLsbD 6 then .ok (.illLead111 (b1.extractLsb' 0 5), rest)
    else .ok (.illLead10 (b1.extractLsb' 0 6), rest)

/-- The classifier pattern that a chunk matches (R94): one of six exact patterns, else the default. -/
def decodeChunk (c : Chunk) : Instr :=
  if c = 0b0000000#7 then .classD0
  else if c = 0b0001010#7 then .classD1
  else if c = 0b0001101#7 then .classD2
  else if c = 0b0100010#7 then .classD3
  else if c = 0b0100110#7 then .classD4
  else if c = 0b1011100#7 then .classD5
  else .classSafe c

/-- `index_of(v)` (00_scope.md R11): the k with DTAB[k] = v, where there is one. -/
def indexOf (v : Chunk) : Option Index :=
  if v = 0x00#7 then some 0
  else if v = 0x0A#7 then some 1
  else if v = 0x0D#7 then some 2
  else if v = 0x22#7 then some 3
  else if v = 0x26#7 then some 4
  else if v = 0x5C#7 then some 5
  else none

/-- The packer's choice from its dispatch bits (R95), with the chunk c in hand and the next chunk n:
`0x` PUT1, `11` PUTE, `10` PUTS. -/
def decodeDispatch (d nv : Bool) (c n : Chunk) : Except Reject Instr :=
  match d, indexOf c with
  | false, none => .ok (.put1 c)
  | true, some k => if nv then .ok (.pute k n) else .ok (.puts c)
  | _, _ => .error .dispatchBit

/-- What selects an instruction: the table's three kinds of bit pattern (R99). -/
inductive Code where
  /-- The bytes of one text unit, at DEC.PC. -/
  | unit (bytes : List Byte)
  /-- A chunk before the classifier. -/
  | chunk (c : Chunk)
  /-- The dispatch bits d and nv, with the chunk in hand and the next chunk (which nv = 0 leaves
  unused). -/
  | dispatch (d nv : Bool) (c n : Chunk)
deriving DecidableEq, Repr

/-- The instruction a code selects, under the given value of STRICT. -/
def decodeAt (strict : Bool) : Code → Except Reject Instr
  | .unit bytes =>
    match decodeUnit strict bytes with
    | .ok (i, []) => .ok i
    | .ok (_, _ :: _) => .error .trailingBytes
    | .error r => .error r
  | .chunk c => .ok (decodeChunk c)
  | .dispatch d nv c n => decodeDispatch d nv c n

/-- The instruction a code selects on this hardware, STRICT = 1. -/
def decode (code : Code) : Except Reject Instr := decodeAt Config.strict code

/-! ### The encoder -/

/-- The two bytes of a two-byte form: index field k, fixed bit f, payload p (R84, R86). -/
def twoBytes (k : IndexField) (f : Bool) (p : Chunk) : List Byte :=
  [0b110#3 ++ k ++ BitVec.ofBool f ++ p.extractLsb' 6 1, 0b10#2 ++ p.extractLsb' 0 6]

/-- The code of an instruction, from the same encoding tables; none for the rows of mask 0, which no
bits select (R99). A PUT1 leaves the dispatch bit nv and the next chunk open: they are written 0. -/
def encode : Instr → Option Code
  | .lit c => some (.unit [0#1 ++ c])
  | .esc0 p => some (.unit (twoBytes 0#3 true p))
  | .esc1 p => some (.unit (twoBytes 1#3 true p))
  | .esc2 p => some (.unit (twoBytes 2#3 true p))
  | .esc3 p => some (.unit (twoBytes 3#3 true p))
  | .esc4 p => some (.unit (twoBytes 4#3 true p))
  | .esc5 p => some (.unit (twoBytes 5#3 true p))
  | .escs p => some (.unit (twoBytes 7#3 true p))
  | .illLead10 x => some (.unit [0b10#2 ++ x])
  | .illLead111 x => some (.unit [0b111#3 ++ x])
  | .illTrunc x => some (.unit [0b110#3 ++ x])
  | .illCont x y => some (.unit [0b110#3 ++ x, y])
  | .illOverlong p => some (.unit (twoBytes 0#3 false p))
  | .illFixed k p => some (.unit (twoBytes k false p))
  | .illIndex6 p => some (.unit (twoBytes 6#3 true p))
  | .illShortpay p => some (.unit (twoBytes 7#3 true p))
  | .esckF0 k p => some (.unit (twoBytes (indexField k) false p))
  | .escsF0 p => some (.unit (twoBytes 7#3 false p))
  | .illIndex6F0 p => some (.unit (twoBytes 6#3 false p))
  | .classD0 => some (.chunk 0b0000000#7)
  | .classD1 => some (.chunk 0b0001010#7)
  | .classD2 => some (.chunk 0b0001101#7)
  | .classD3 => some (.chunk 0b0100010#7)
  | .classD4 => some (.chunk 0b0100110#7)
  | .classD5 => some (.chunk 0b1011100#7)
  | .classSafe c => some (.chunk c)
  | .put1 c => some (.dispatch false false c 0#7)
  | .pute k n => some (.dispatch true true Config.dtab[k] n)
  | .puts c => some (.dispatch true false c 0#7)
  | .get7 => none
  | .classify _ => none
  | .dval _ => none
  | .encStep => none
  | .encode => none
  | .push7 _ => none
  | .decStep => none
  | .decode => none
  | .encStart => none
  | .decStart => none

/-- Every row of the table that a text unit stands for: the formats U1 and U2 (R99). -/
def isTextUnit (i : Instr) : Bool :=
  match encode i with
  | some (.unit _) => true
  | some (.chunk _) => false
  | some (.dispatch _ _ _ _) => false
  | none => false

/-- The bytes of a unit, empty for what is no unit. -/
def unitBytes (i : Instr) : List Byte :=
  match encode i with
  | some (.unit bytes) => bytes
  | some (.chunk _) => []
  | some (.dispatch _ _ _ _) => []
  | none => []

/-! ### The table's words -/

/-- The bytes of a word as the table numbers it (R99: a two-byte pattern is `b1*256 + b2`, so b1, the
byte of the lower index, is bits 15 to 8): one byte for 8 bits, b1 then b2 for 16 (log 1). -/
def tableBytes (nbits w : Nat) : List Byte :=
  if nbits = 8 then [BitVec.ofNat 8 w]
  else if nbits = 16 then [BitVec.ofNat 8 (w / 256), BitVec.ofNat 8 w]
  else []

/-- The unit this hardware's decoder reads from a word of the opcode table. A word of 8 or 16 bits is
read as the bytes of a text, the only place this block fetches from; the table's 7-bit classifier
patterns and 2-bit dispatch codes are not text and have decoders of their own (log 17). -/
def decodeTableWord (nbits w : Nat) : Option Instr :=
  match decodeUnit Config.strict (tableBytes nbits w) with
  | .ok (i, _) => some i
  | .error _ => none

end Sys2Proof
end

