-- ==== Sys2Proof/Machine/State.lean ====
section
/-! DEFINITION. The architectural state of the base122 CORE (10_state.md), its reset value
(10_state.md R40, 70_reset_and_hazards.md R230), and the reasons a step can stop. -/

namespace Sys2Proof.Machine

/-! ### Reasons to stop -/

/-- The four buffers, each its own address space of bytes indexed from 0 (R37, R60). -/
inductive Space where
  /-- ENC.IN, the encoder's input (R50). -/
  | encIn
  /-- ENC.OUT, the encoded text (R51). -/
  | encOut
  /-- DEC.TXT, the decoder's input (R52). -/
  | decTxt
  /-- DEC.OUT, the decoded bytes (R53). -/
  | decOut
deriving DecidableEq, Repr

/-- The machine stops with a fault. InvalidSequence is not among these: the block takes that
exception, which is a next state (60_exceptions.md R204). -/
inductive Fault where
  /-- Raised by a read of an input buffer at an index below its length where the host has placed no
  byte, against its duty of 20_memory.md R50 and 70_reset_and_hazards.md R233 (log 4). Safe: the
  spec gives such a run no meaning. -/
  | byteNotPlaced (space : Space) (index : Nat)
deriving DecidableEq, Repr

/-- The machine has no meaning for what was asked. -/
inductive Refusal where
  /-- Raised by exec for an instruction that has no meaning yet. Safe. -/
  | notModelled (mnemonic : String)
  /-- Raised by a read at an index at or beyond the buffer's length, as 20_memory.md R56 and
  93_implementation_defined.md U8 ask; no rule performs such a read. Safe. -/
  | readPastEnd (space : Space) (index : Nat)
  /-- Raised by DVAL with index 6 or 7, as 41_classifier.md R133 and U4 ask: the table has no such
  entry. Safe. -/
  | noTableEntry (k : IndexField)
  /-- Raised by DEC.STEP if the bytes at DEC.PC gave no text unit. Safe: the decoder answers a unit
  for every non-empty list of bytes, so this does not happen. -/
  | notAUnit
deriving DecidableEq, Repr

/-! ### Values -/

/-- The answer of CLASS (41_classifier.md R130). -/
inductive ChunkClass where
  /-- The chunk is not in the dangerous set. -/
  | safe
  /-- The chunk is the dangerous value of this illegal index. -/
  | dangerous (k : Index)
deriving DecidableEq, Repr

/-- The sub-causes of InvalidSequence (60_exceptions.md R202). -/
inductive Cause where
  | lead
  | trunc
  | cont
  | overlong
  | fixed
  | index6
  | shortpay
deriving DecidableEq, Repr

/-- The command a host gives (44_system.md R192). -/
inductive HostCmd where
  | encStart
  | encStep
  | encode
  | decStart
  | decStep
  | decode
deriving DecidableEq, Repr

/-- What an ENC-side operation last returned to whoever invoked it by itself: the model's own
register (log 6). -/
inductive EncReturn where
  /-- Nothing has been returned. -/
  | nothing
  /-- GET7 returned Some chunk or None (R110). -/
  | chunk (r : Option Chunk)
  /-- CLASS returned this class (R130). -/
  | cls (r : ChunkClass)
  /-- ENCODE returned this encoded text (R149). -/
  | text (bytes : List Byte)
deriving DecidableEq, Repr

/-- What a DEC-side operation last returned to whoever invoked it by itself: the model's own register
(log 6). DECODE's result is bytes or a failure that carries none (R205). -/
inductive DecReturn where
  /-- Nothing has been returned. -/
  | nothing
  /-- DVAL returned this value (R133). -/
  | value (v : Chunk)
  /-- PUSH7 returned Some byte or None (R160). -/
  | pushed (r : Option Byte)
  /-- DECODE returned Ok with these bytes (R174). -/
  | ok (bytes : List Byte)
  /-- DECODE returned Err InvalidSequence (R174). -/
  | invalidSequence
deriving DecidableEq, Repr

/-! ### Memory -/

/-- The contents of one buffer: its bytes by index. An index that is not listed has no value
(log 4). -/
structure Memory where
  cells : List Host.Cell
deriving DecidableEq, Repr

/-- The one canonical form: indices strictly rising. (No entry can equal what an unlisted index reads
as, since that is no value at all.) -/
abbrev Memory.wf (m : Memory) : Prop := (m.cells.map Prod.fst).Pairwise (· < ·)

/-- A buffer that holds exactly the indices 0 to n-1, as 20_memory.md R50 to R53 describe each. -/
abbrev Memory.dense (m : Memory) (n : Nat) : Prop := m.cells.map Prod.fst = List.range n

/-- A buffer that holds no byte. -/
def Memory.empty : Memory := ⟨[]⟩

/-! ### The engines -/

/-- The encode engine ENC (10_state.md R21 to R25, R37). -/
structure Enc where
  /-- ENC.BI, the index of the byte the extractor works in (R21). -/
  bi : Nat
  /-- ENC.BO, the bits already consumed from that byte (R22). -/
  bo : BitVec 3
  /-- ENC.LEN, the number of bytes in ENC.IN (R23). -/
  len : Nat
  /-- ENC.DONE (R24). -/
  done : Bool
  /-- ENC.IN (R50). -/
  inp : Memory
  /-- ENC.OUT (R51). -/
  out : Memory
  /-- ENC.OLEN, the length of ENC.OUT (R37). -/
  olen : Nat
  /-- The model's own: what GET7, CLASS or ENCODE last returned (log 6). -/
  ret : EncReturn
deriving DecidableEq, Repr

/-- The decode engine DEC (10_state.md R26 to R33, R37). -/
structure Dec where
  /-- DEC.PC, the index of the next unit's first byte (R26). -/
  pc : Nat
  /-- DEC.AC, the accumulator (R27). -/
  ac : Byte
  /-- DEC.AB, the number of valid bits in DEC.AC (R28). -/
  ab : BitVec 3
  /-- DEC.TLEN, the number of bytes in DEC.TXT (R30). -/
  tlen : Nat
  /-- DEC.DONE (R31). -/
  done : Bool
  /-- DEC.ERR, the fault bit (R32). -/
  err : Bool
  /-- DEC.CAUSE, the sub-cause code (R33, R202). -/
  cause : BitVec 3
  /-- DEC.EPC, the index of the offending unit (R33, R203). -/
  epc : Nat
  /-- DEC.TXT (R52). -/
  txt : Memory
  /-- DEC.OUT (R53). -/
  out : Memory
  /-- DEC.OLEN, the length of DEC.OUT (R37). -/
  olen : Nat
  /-- The model's own: what DVAL, PUSH7 or DECODE last returned (log 6). -/
  ret : DecReturn
deriving DecidableEq, Repr

/-- The whole machine: two engines that share no state (R20), the configuration bit STRICT (R35,
log 8), and the commands the host is going to give (log 3). -/
structure State where
  /-- The encode engine. -/
  enc : Enc
  /-- The decode engine. -/
  dec : Dec
  /-- STRICT (R35): no operation writes it. -/
  strict : Bool
  /-- The model's own: the host's next commands, oldest first (log 3). -/
  script : List HostCmd
deriving DecidableEq, Repr

/-- The machine after power-on (R40, R230): each engine as its START leaves it, inputs empty. The two
return registers and the script are the model's own (log 3, log 6). -/
def State.reset : State where
  enc :=
    { bi := 0, bo := 0#3, len := 0, done := false, inp := .empty, out := .empty, olen := 0,
      ret := .nothing }
  dec :=
    { pc := 0, ac := 0#8, ab := 0#3, tlen := 0, done := false, err := false, cause := 0#3, epc := 0,
      txt := .empty, out := .empty, olen := 0, ret := .nothing }
  strict := Config.strict
  script := []

end Sys2Proof.Machine
end

