-- ==== Sys2Proof/Machine/Ops.lean ====
section
/-! DEFINITION. The named operations over buffers and engines (00_scope.md R11, 20_memory.md), taking
the exception InvalidSequence (60_exceptions.md R204), and the START that is the only way on from it
(R210). -/

namespace Sys2Proof.Machine

/-! ### Outcomes -/

/-- Go on with a result, or stop as the first part stopped. -/
def andThen {α β : Type} (x : Host.Outcome α Fault Refusal) (f : α → Host.Outcome β Fault Refusal) :
    Host.Outcome β Fault Refusal :=
  match x with
  | .next a => f a
  | .fault r => .fault r
  | .refused r => .refused r

/-- The state with its encode engine replaced. -/
def setEnc (s : State) (e : Enc) : State := { s with enc := e }

/-- The state with its decode engine replaced. -/
def setDec (s : State) (d : Dec) : State := { s with dec := d }

/-- The state with another list of host commands. -/
def setScript (s : State) (cs : List HostCmd) : State := { s with script := cs }

/-- The encode engine with its return register written (log 6). -/
def setEncRet (e : Enc) (r : EncReturn) : Enc := { e with ret := r }

/-- The decode engine with its return register written (log 6). -/
def setDecRet (d : Dec) (r : DecReturn) : Dec := { d with ret := r }

/-! ### Buffers -/

/-- The byte that a list of cells holds at an index, if it lists one. -/
def cellsGet : List Host.Cell → Nat → Option Byte
  | [], _ => none
  | (k, v) :: rest, a => if a = k then some v else cellsGet rest a

/-- A list of cells with one byte written, in the same order. -/
def cellsPut : List Host.Cell → Nat → Byte → List Host.Cell
  | [], a, b => [(a, b)]
  | (k, v) :: rest, a, b =>
    if a < k then (a, b) :: (k, v) :: rest
    else if a = k then (a, b) :: rest
    else (k, v) :: cellsPut rest a b

/-- What one index of a buffer reads as: an unlisted index has no value (log 4). -/
def memGet (m : Memory) (a : Nat) : Option Byte := cellsGet m.cells a

/-- A buffer with one byte written. -/
def memPut (m : Memory) (a : Nat) (b : Byte) : Memory := ⟨cellsPut m.cells a b⟩

/-- A buffer with the given bytes written from an index on. -/
def memPutAll (m : Memory) (a : Nat) : List Byte → Memory
  | [] => m
  | b :: rest => memPutAll (memPut m a b) (a + 1) rest

/-- `MemRead(space, addr, 1)` (R11) of a buffer of the given length: refused at or beyond the length
(R56, U8), a fault where the host placed no byte (log 4). -/
def memRead (space : Space) (m : Memory) (len a : Nat) : Host.Outcome Byte Fault Refusal :=
  if a < len then
    match memGet m a with
    | some b => .next b
    | none => .fault (.byteNotPlaced space a)
  else .refused (.readPastEnd space a)

/-- The bytes of a buffer at indices 0 to n-1, in order. -/
def bufferBytes (m : Memory) (n : Nat) : List Byte := (List.range n).filterMap (memGet m)

/-- A buffer of exactly the given bytes, from index 0. -/
def bufferOf (bytes : List Byte) : Memory := memPutAll .empty 0 bytes

/-- `Append(ENC.OUT, b)` (R11, R51): b goes to index ENC.OLEN, and ENC.OLEN grows by 1. -/
def encAppend (b : Byte) (e : Enc) : Enc :=
  { e with out := memPut e.out e.olen b, olen := e.olen + 1 }

/-- `Append(DEC.OUT, b)` (R11, R53). -/
def decAppend (b : Byte) (d : Dec) : Dec :=
  { d with out := memPut d.out d.olen b, olen := d.olen + 1 }

/-! ### The exception InvalidSequence -/

/-- The code of a sub-cause in DEC.CAUSE (R202); 0 is no error. -/
def causeCode : Cause → BitVec 3
  | .lead => 1#3
  | .trunc => 2#3
  | .cont => 3#3
  | .overlong => 4#3
  | .fixed => 5#3
  | .index6 => 6#3
  | .shortpay => 7#3

/-- `raise InvalidSequence(cause, at)` (R204): the error record is written, DEC.OUT is withdrawn and
the run is over; DEC.PC, DEC.AC and DEC.AB keep their values. -/
def raiseInvalidSequence (cause : Cause) (index : Nat) (d : Dec) : Dec :=
  { d with
    err := true
    cause := causeCode cause
    epc := index
    out := .empty
    olen := 0
    done := true }

/-- ENC.START (R190): the cursor to (0,0), the output empty, ENC.DONE clear. -/
def encClear (e : Enc) : Enc :=
  { e with bi := 0, bo := 0#3, out := .empty, olen := 0, done := false }

/-- DEC.START (R191). There is no return from InvalidSequence (R210): this is the only operation that
clears DEC.ERR, and it begins a new run from index 0. -/
def decClear (d : Dec) : Dec :=
  { d with
    pc := 0
    ac := 0#8
    ab := 0#3
    out := .empty
    olen := 0
    done := false
    err := false
    cause := 0#3
    epc := 0 }

/-! ### What the host places before a run (R192, R233) -/

/-- The host places an input in ENC.IN and its length in ENC.LEN. It does so only between runs (R62,
log 14): no step calls this. -/
def placeInput (s : State) (bytes : List Byte) : State :=
  setEnc s { s.enc with inp := bufferOf bytes, len := bytes.length }

/-- The host places a text in DEC.TXT and its length in DEC.TLEN, between runs (R62, log 14). -/
def placeText (s : State) (bytes : List Byte) : State :=
  setDec s { s.dec with txt := bufferOf bytes, tlen := bytes.length }

end Sys2Proof.Machine
end

