-- ==== Sys2Proof/Machine/Flags.lean ====
section
/-! DEFINITION. The flags: the predicates that DONE and ERR are computed from, who sets them, and the
packer's two dispatch bits. GET7, CLASS, DVAL, PUT1, PUTE, PUTS, PUSH7, LIT, ESC and ESCS write no
flag; raising and the two STARTs, which also write flags, are in Ops. -/

namespace Sys2Proof.Machine

/-- The extractor is exhausted: `ENC.BI >= ENC.LEN` (R25). It is a predicate, not a flag. -/
def encExhausted (e : Enc) : Bool := e.len ≤ e.bi

/-- The decoder is at the end of its text: `DEC.PC >= DEC.TLEN` (R31, R172). -/
def decAtEnd (d : Dec) : Bool := d.tlen ≤ d.pc

/-- ENC.DONE is set (R24, R148). -/
def encSetDone (e : Enc) : Enc := { e with done := true }

/-- DEC.DONE is set at the end of the text (R31, R172). -/
def decSetDone (d : Dec) : Dec := { d with done := true }

/-- DEC.OUT is the result of a run: DEC.DONE = 1 and DEC.ERR = 0 (R205). -/
def decResultReady (d : Dec) : Bool := d.done && !d.err

/-- The dispatch bit d: the chunk is dangerous (R95). -/
def dispatchD (c : Chunk) : Bool := Config.inDtab c

/-- The dispatch bit nv: a next chunk exists (R95). -/
def dispatchNv (next : Option Chunk) : Bool := next.isSome

end Sys2Proof.Machine
end

