-- ==== Sys2Proof/Machine/Operands.lean ====
section
/-! DEFINITION. Where operands come from: the bytes of the unit at DEC.PC (20_memory.md R58,
44_system.md R196) and the table entry of an index field (41_classifier.md R133). -/

namespace Sys2Proof.Machine

/-- One byte of ENC.IN (R50, R196). -/
def readInput (e : Enc) (a : Nat) : Host.Outcome Byte Fault Refusal :=
  memRead .encIn e.inp e.len a

/-- One byte of DEC.TXT (R52, R196). -/
def readText (d : Dec) (a : Nat) : Host.Outcome Byte Fault Refusal :=
  memRead .decTxt d.txt d.tlen a

/-- The bytes of the unit at DEC.PC (R172): the first, and the second only where the first is
`110xxxxx` and the text has one. -/
def fetchUnit (d : Dec) : Host.Outcome (List Byte) Fault Refusal :=
  andThen (readText d d.pc) fun b1 =>
    if beginsEscape b1 && d.pc + 1 < d.tlen then
      andThen (readText d (d.pc + 1)) fun b2 => .next [b1, b2]
    else .next [b1]

/-- DVAL(k): DTAB[k] for k in 0 to 5; refused for 6 and 7, which have no entry (R133, U4). -/
def tableEntry (k : IndexField) : Host.Outcome Chunk Fault Refusal :=
  if h : k.toNat < 6 then .next (Config.dtab[k.toNat]'h) else .refused (.noTableEntry k)

end Sys2Proof.Machine
end

