-- ==== Sys2Proof/Machine/Classifier.lean ====
section
/-! DEFINITION. CLS, the classifier: CLASS with its pattern rows, and DVAL (41_classifier.md). Both
are functions of their operand and DTAB and write nothing but what they return (log 6). -/

namespace Sys2Proof.Machine

/-- CLASS(c) (R130): `Dangerous(index_of(c))` where c is in DTAB, else `Safe`. -/
def classOf (c : Chunk) : ChunkClass :=
  match indexOf c with
  | some k => .dangerous k
  | none => .safe

/-- CLASS invoked by itself on a chunk: the class is what it returns. -/
def returnClass (c : Chunk) (s : State) : Host.Outcome State Fault Refusal :=
  .next (setEnc s (setEncRet s.enc (.cls (classOf c))))

/-- CLASS c (R130). -/
def execClassify (c : Chunk) (s : State) : Host.Outcome State Fault Refusal := returnClass c s

/-- CLASS.D0: the chunk 0x00, NUL (R94, R130). -/
def execClassD0 (s : State) : Host.Outcome State Fault Refusal := returnClass 0x00#7 s

/-- CLASS.D1: the chunk 0x0A, LF (R94, R130). -/
def execClassD1 (s : State) : Host.Outcome State Fault Refusal := returnClass 0x0A#7 s

/-- CLASS.D2: the chunk 0x0D, CR (R94, R130). -/
def execClassD2 (s : State) : Host.Outcome State Fault Refusal := returnClass 0x0D#7 s

/-- CLASS.D3: the chunk 0x22, double quote (R94, R130). -/
def execClassD3 (s : State) : Host.Outcome State Fault Refusal := returnClass 0x22#7 s

/-- CLASS.D4: the chunk 0x26, ampersand (R94, R130). -/
def execClassD4 (s : State) : Host.Outcome State Fault Refusal := returnClass 0x26#7 s

/-- CLASS.D5: the chunk 0x5C, backslash (R94, R130). -/
def execClassD5 (s : State) : Host.Outcome State Fault Refusal := returnClass 0x5C#7 s

/-- CLASS.SAFE: a chunk that none of the six patterns matches (R94, R130). -/
def execClassSafe (c : Chunk) (s : State) : Host.Outcome State Fault Refusal := returnClass c s

/-- DVAL k (R133): the table entry is what it returns; refused for k = 6 and k = 7 (U4). -/
def execDval (k : IndexField) (s : State) : Host.Outcome State Fault Refusal :=
  andThen (tableEntry k) fun v => .next (setDec s (setDecRet s.dec (.value v)))

end Sys2Proof.Machine
end

