-- ==== Sys2Proof/Machine/Extractor.lean ====
section
/-! DEFINITION. XTR, the 7-bit chunk extractor: GET7 (40_extractor.md R110). -/

namespace Sys2Proof.Machine

/-- GET7 (R110): the next chunk and the cursor after it, or None at exhaustion with the cursor as it
was. Where a byte follows, it is read also for ENC.BO = 1, whose chunk takes no bit of it (R58, U14,
log 16). -/
def extract (e : Enc) : Host.Outcome (Option Chunk × Enc) Fault Refusal :=
  if encExhausted e then .next (none, e)
  else
    andThen (readInput e e.bi) fun cur =>
      let o := e.bo.toNat
      let first : Chunk := ((cur <<< o) >>> 1).setWidth 7
      let t := o + 7
      if t < 8 then .next (some first, { e with bo := BitVec.ofNat 3 t })
      else
        let e' : Enc := { e with bo := BitVec.ofNat 3 (t - 8), bi := e.bi + 1 }
        if encExhausted e' then .next (some first, e')
        else
          andThen (readInput e' e'.bi) fun nxt =>
            .next (some (first ||| (nxt >>> (8 - (t - 8))).setWidth 7), e')

/-- GET7 (R110), invoked by itself: the chunk or None is what it returns. -/
def execGet7 (s : State) : Host.Outcome State Fault Refusal :=
  andThen (extract s.enc) fun r => .next (setEnc s (setEncRet r.2 (.chunk r.1)))

end Sys2Proof.Machine
end

