-- ==== Sys2Proof/Machine/Packer.lean ====
section
/-! DEFINITION. PCK, the bit-stream packer: PUT1, PUTE, PUTS, ENC.STEP and ENCODE (42_packer.md). -/

namespace Sys2Proof.Machine

/-! ### Emit operations -/

/-- Append one byte `0ccccccc` (format U1, R81, R142). -/
def emitLiteral (c : Chunk) (e : Enc) : Enc := encAppend (c.setWidth 8) e

/-- Append b1 then b2 of an escape (format U2, R55, R85). -/
def emitEscape (k : IndexField) (p : Chunk) (e : Enc) : Enc :=
  encAppend (escByte2 p) (encAppend (escByte1 k p) e)

/-- PUT1(c) (R142). -/
def execPut1 (c : Chunk) (s : State) : Host.Outcome State Fault Refusal :=
  .next (setEnc s (emitLiteral c s.enc))

/-- PUTE(k, n) (R144): index field k, payload the next chunk n. -/
def execPute (k : Index) (n : Chunk) (s : State) : Host.Outcome State Fault Refusal :=
  .next (setEnc s (emitEscape (indexField k) n s.enc))

/-- PUTS(c) (R146): index field 7, payload the dangerous chunk itself. -/
def execPuts (c : Chunk) (s : State) : Host.Outcome State Fault Refusal :=
  .next (setEnc s (emitEscape 7#3 c s.enc))

/-! ### The step and the run -/

/-- ENC.STEP on the engine (R148). -/
def encodeStep (e : Enc) : Host.Outcome Enc Fault Refusal :=
  if e.done then .next e
  else
    andThen (extract e) fun r =>
      match r.1 with
      | none => .next (encSetDone r.2)
      | some c =>
        match classOf c with
        | .safe => .next (emitLiteral c r.2)
        | .dangerous k =>
          andThen (extract r.2) fun r' =>
            match r'.1 with
            | some n => .next (emitEscape (indexField k) n r'.2)
            | none => .next (emitEscape 7#3 c r'.2)

/-- `while ENC.DONE = 0: ENC.STEP()` (R149), with a bound on the number of steps. -/
def encodeLoop : Nat → Enc → Host.Outcome Enc Fault Refusal
  | 0, e => .next e
  | n + 1, e => if e.done then .next e else andThen (encodeStep e) (encodeLoop n)

/-- The most steps an encode run of n bytes takes: `ceil(8n/7) + 1` (R237). -/
def encodeBound (n : Nat) : Nat := (8 * n + 6) / 7 + 1

/-- ENC.STEP (R148). -/
def execEncStep (s : State) : Host.Outcome State Fault Refusal :=
  andThen (encodeStep s.enc) fun e => .next (setEnc s e)

/-- ENCODE (R149): START, STEP until DONE, and the text is what it returns. -/
def execEncode (s : State) : Host.Outcome State Fault Refusal :=
  andThen (encodeLoop (encodeBound s.enc.len) (encClear s.enc)) fun e =>
    .next (setEnc s (setEncRet e (.text (bufferBytes e.out e.olen))))

end Sys2Proof.Machine
end

