-- ==== Sys2Proof/Machine/System.lean ====
section
/-! DEFINITION. The system operations ENC.START and DEC.START (44_system.md R190, R191). The block has
no other (R194). -/

namespace Sys2Proof.Machine

/-- ENC.START (R190): reset of the encode engine; ENC.IN and ENC.LEN stay. -/
def execEncStart (s : State) : Host.Outcome State Fault Refusal := .next (setEnc s (encClear s.enc))

/-- DEC.START (R191): reset of the decode engine; DEC.TXT and DEC.TLEN stay. -/
def execDecStart (s : State) : Host.Outcome State Fault Refusal := .next (setDec s (decClear s.dec))

end Sys2Proof.Machine
end

