-- ==== Sys2Proof/Machine/Unpacker.lean ====
section
/-! DEFINITION. UPK, the bit-stream unpacker: PUSH7, the text units LIT, ESC and ESCS, the illegal
units, DEC.STEP and DECODE (43_unpacker.md). -/

namespace Sys2Proof.Machine

/-! ### The accumulator -/

/-- PUSH7(v) (R160): the byte it emits, if it emits one, and the engine after it. -/
def pushChunk (v : Chunk) (d : Dec) : Option Byte × Dec :=
  let a := d.ab.toNat
  if a = 0 then (none, { d with ac := v.setWidth 8 <<< 1, ab := 7#3 })
  else
    let byte : Byte := d.ac ||| (v >>> (a - 1)).setWidth 8
    (some byte,
      decAppend byte { d with ac := v.setWidth 8 <<< (9 - a), ab := BitVec.ofNat 3 (a - 1) })

/-- PUSH7 v (R160), invoked by itself: the emitted byte or None is what it returns. -/
def execPush7 (v : Chunk) (s : State) : Host.Outcome State Fault Refusal :=
  let r := pushChunk v s.dec
  .next (setDec s (setDecRet r.2 (.pushed r.1)))

/-! ### Units -/

/-- `DEC.PC <- DEC.PC + n`: 1 after a one-byte unit, 2 after a two-byte unit (R26, R195). -/
def advancePc (n : Nat) (d : Dec) : Dec := { d with pc := d.pc + n }

/-- ESC(k, p) (R166): PUSH7(DVAL(k)), PUSH7(p), two bytes. -/
def unitEscape (k : Index) (p : Chunk) (s : State) : Host.Outcome State Fault Refusal :=
  andThen (tableEntry (indexField k)) fun v =>
    .next (setDec s (advancePc 2 (pushChunk p (pushChunk v s.dec).2).2))

/-- ESCS(p) (R167): PUSH7(p), two bytes. -/
def unitShortened (p : Chunk) (s : State) : Host.Outcome State Fault Refusal :=
  .next (setDec s (advancePc 2 (pushChunk p s.dec).2))

/-- A unit that fails a check (R168): `raise InvalidSequence(cause, DEC.PC)` and nothing of the unit
is executed. -/
def unitInvalid (cause : Cause) (s : State) : Host.Outcome State Fault Refusal :=
  .next (setDec s (raiseInvalidSequence cause s.dec.pc s.dec))

/-- LIT c (R164): PUSH7(c), one byte. -/
def execLit (c : Chunk) (s : State) : Host.Outcome State Fault Refusal :=
  .next (setDec s (advancePc 1 (pushChunk c s.dec).2))

/-- ESC 0, p (R166). -/
def execEsc0 (p : Chunk) (s : State) : Host.Outcome State Fault Refusal := unitEscape 0 p s

/-- ESC 1, p (R166). -/
def execEsc1 (p : Chunk) (s : State) : Host.Outcome State Fault Refusal := unitEscape 1 p s

/-- ESC 2, p (R166). -/
def execEsc2 (p : Chunk) (s : State) : Host.Outcome State Fault Refusal := unitEscape 2 p s

/-- ESC 3, p (R166). -/
def execEsc3 (p : Chunk) (s : State) : Host.Outcome State Fault Refusal := unitEscape 3 p s

/-- ESC 4, p (R166). -/
def execEsc4 (p : Chunk) (s : State) : Host.Outcome State Fault Refusal := unitEscape 4 p s

/-- ESC 5, p (R166). -/
def execEsc5 (p : Chunk) (s : State) : Host.Outcome State Fault Refusal := unitEscape 5 p s

/-- ESCS p (R167). -/
def execEscs (p : Chunk) (s : State) : Host.Outcome State Fault Refusal := unitShortened p s

/-- First byte 0x80 to 0xBF: LEAD (R168 check 1). -/
def execIllLead10 (s : State) : Host.Outcome State Fault Refusal := unitInvalid .lead s

/-- First byte 0xE0 to 0xFF: LEAD (R168 check 1). -/
def execIllLead111 (s : State) : Host.Outcome State Fault Refusal := unitInvalid .lead s

/-- No second byte: TRUNC (R168 check 2). -/
def execIllTrunc (s : State) : Host.Outcome State Fault Refusal := unitInvalid .trunc s

/-- Second byte not `10xxxxxx`: CONT (R168 check 3). -/
def execIllCont (s : State) : Host.Outcome State Fault Refusal := unitInvalid .cont s

/-- Scalar below 128: OVERLONG (R168 check 4). -/
def execIllOverlong (s : State) : Host.Outcome State Fault Refusal := unitInvalid .overlong s

/-- Fixed bit 0 under STRICT = 1: FIXED (R168 check 5). -/
def execIllFixed (s : State) : Host.Outcome State Fault Refusal := unitInvalid .fixed s

/-- Index field 6: INDEX6 (R168 check 6). -/
def execIllIndex6 (s : State) : Host.Outcome State Fault Refusal := unitInvalid .index6 s

/-- Shortened escape with a payload not in DTAB under STRICT = 1: SHORTPAY (R168 check 7). -/
def execIllShortpay (s : State) : Host.Outcome State Fault Refusal := unitInvalid .shortpay s

/-- The STRICT = 0 reading of `110kkk0p 10pppppp`: ESC k, p with the fixed bit ignored (R89). -/
def execEsckF0 (k : Index) (p : Chunk) (s : State) : Host.Outcome State Fault Refusal :=
  unitEscape k p s

/-- The STRICT = 0 reading of `1101110p 10pppppp`: ESCS p with the fixed bit ignored (R89). -/
def execEscsF0 (p : Chunk) (s : State) : Host.Outcome State Fault Refusal := unitShortened p s

/-- The STRICT = 0 reading of `1101100p 10pppppp`: INDEX6 (R89). -/
def execIllIndex6F0 (s : State) : Host.Outcome State Fault Refusal := unitInvalid .index6 s

/-! ### The step and the run -/

/-- Execute the unit that the decoder read at DEC.PC. What is no text unit is refused; the unit
decoder answers none of these. -/
def runUnit (i : Instr) (s : State) : Host.Outcome State Fault Refusal :=
  match i with
  | .lit c => execLit c s
  | .esc0 p => execEsc0 p s
  | .esc1 p => execEsc1 p s
  | .esc2 p => execEsc2 p s
  | .esc3 p => execEsc3 p s
  | .esc4 p => execEsc4 p s
  | .esc5 p => execEsc5 p s
  | .escs p => execEscs p s
  | .illLead10 _ => execIllLead10 s
  | .illLead111 _ => execIllLead111 s
  | .illTrunc _ => execIllTrunc s
  | .illCont _ _ => execIllCont s
  | .illOverlong _ => execIllOverlong s
  | .illFixed _ _ => execIllFixed s
  | .illIndex6 _ => execIllIndex6 s
  | .illShortpay _ => execIllShortpay s
  | .esckF0 k p => execEsckF0 k p s
  | .escsF0 p => execEscsF0 p s
  | .illIndex6F0 _ => execIllIndex6F0 s
  | .classD0 | .classD1 | .classD2 | .classD3 | .classD4 | .classD5 => .refused .notAUnit
  | .classSafe _ | .put1 _ | .pute _ _ | .puts _ => .refused .notAUnit
  | .get7 | .classify _ | .dval _ | .encStep | .encode | .push7 _ => .refused .notAUnit
  | .decStep | .decode | .encStart | .decStart => .refused .notAUnit

/-- DEC.STEP (R172): nothing when DEC.DONE = 1 (R193); DEC.DONE at the end of the text; otherwise
fetch, check and execute the unit at DEC.PC. -/
def execDecStep (s : State) : Host.Outcome State Fault Refusal :=
  if s.dec.done then .next s
  else if decAtEnd s.dec then .next (setDec s (decSetDone s.dec))
  else
    andThen (fetchUnit s.dec) fun bytes =>
      match decodeUnit s.strict bytes with
      | .ok (i, _) => runUnit i s
      | .error _ => .refused .notAUnit

/-- `while DEC.DONE = 0: DEC.STEP()` (R174), with a bound on the number of steps. -/
def decodeLoop : Nat → State → Host.Outcome State Fault Refusal
  | 0, s => .next s
  | n + 1, s => if s.dec.done then .next s else andThen (execDecStep s) (decodeLoop n)

/-- The most steps a decode run of t bytes takes: `t + 1` (R237). -/
def decodeBound (t : Nat) : Nat := t + 1

/-- The result of a decode run (R174, R205): a failure without bytes, or the bytes of DEC.OUT. -/
def decodeResult (d : Dec) : DecReturn :=
  if d.err then .invalidSequence else .ok (bufferBytes d.out d.olen)

/-- DECODE (R174): START, STEP until DONE, and bytes or failure is what it returns. -/
def execDecode (s : State) : Host.Outcome State Fault Refusal :=
  andThen (decodeLoop (decodeBound s.dec.tlen) (setDec s (decClear s.dec))) fun t =>
    .next (setDec t (setDecRet t.dec (decodeResult t.dec)))

end Sys2Proof.Machine
end

