-- ==== Sys2Proof/Machine/Dispatch.lean ====
section
/-! DEFINITION. exec: one arm per row of spec/opcode_table.json, each one call of its meaning. -/

namespace Sys2Proof.Machine

/-- The effect of one instruction. -/
def exec (i : Instr) (s : State) : Host.Outcome State Fault Refusal :=
  match i with
  | .lit c => Sys2Proof.Machine.execLit c s
  | .esc0 p => Sys2Proof.Machine.execEsc0 p s
  | .esc1 p => Sys2Proof.Machine.execEsc1 p s
  | .esc2 p => Sys2Proof.Machine.execEsc2 p s
  | .esc3 p => Sys2Proof.Machine.execEsc3 p s
  | .esc4 p => Sys2Proof.Machine.execEsc4 p s
  | .esc5 p => Sys2Proof.Machine.execEsc5 p s
  | .escs p => Sys2Proof.Machine.execEscs p s
  | .illLead10 _ => Sys2Proof.Machine.execIllLead10 s
  | .illLead111 _ => Sys2Proof.Machine.execIllLead111 s
  | .illTrunc _ => Sys2Proof.Machine.execIllTrunc s
  | .illCont _ _ => Sys2Proof.Machine.execIllCont s
  | .illOverlong _ => Sys2Proof.Machine.execIllOverlong s
  | .illFixed _ _ => Sys2Proof.Machine.execIllFixed s
  | .illIndex6 _ => Sys2Proof.Machine.execIllIndex6 s
  | .illShortpay _ => Sys2Proof.Machine.execIllShortpay s
  | .esckF0 k p => Sys2Proof.Machine.execEsckF0 k p s
  | .escsF0 p => Sys2Proof.Machine.execEscsF0 p s
  | .illIndex6F0 _ => Sys2Proof.Machine.execIllIndex6F0 s
  | .classD0 => Sys2Proof.Machine.execClassD0 s
  | .classD1 => Sys2Proof.Machine.execClassD1 s
  | .classD2 => Sys2Proof.Machine.execClassD2 s
  | .classD3 => Sys2Proof.Machine.execClassD3 s
  | .classD4 => Sys2Proof.Machine.execClassD4 s
  | .classD5 => Sys2Proof.Machine.execClassD5 s
  | .classSafe c => Sys2Proof.Machine.execClassSafe c s
  | .put1 c => Sys2Proof.Machine.execPut1 c s
  | .pute k n => Sys2Proof.Machine.execPute k n s
  | .puts c => Sys2Proof.Machine.execPuts c s
  | .get7 => Sys2Proof.Machine.execGet7 s
  | .classify c => Sys2Proof.Machine.execClassify c s
  | .dval k => Sys2Proof.Machine.execDval k s
  | .encStep => Sys2Proof.Machine.execEncStep s
  | .encode => Sys2Proof.Machine.execEncode s
  | .push7 v => Sys2Proof.Machine.execPush7 v s
  | .decStep => Sys2Proof.Machine.execDecStep s
  | .decode => Sys2Proof.Machine.execDecode s
  | .encStart => Sys2Proof.Machine.execEncStart s
  | .decStart => Sys2Proof.Machine.execDecStart s

end Sys2Proof.Machine
end

