-- ==== Sys2Proof/Machine/Step.lean ====
section
/-! DEFINITION. One step of the machine: one host command (44_system.md R192, log 3). -/

namespace Sys2Proof.Machine

/-- The operation a host command asks for (R192). -/
def HostCmd.instr : HostCmd → Instr
  | .encStart => .encStart
  | .encStep => .encStep
  | .encode => .encode
  | .decStart => .decStart
  | .decStep => .decStep
  | .decode => .decode

/-- One step: the host's next command. A host whose script is at its end goes on with DEC.STEP, which
runs the text at DEC.PC (log 3). -/
def step (s : State) : Host.Outcome State Fault Refusal :=
  match s.script with
  | [] => exec .decStep s
  | c :: rest => exec c.instr (setScript s rest)

/-- s with the unit of a table word at DEC.PC, as the last unit of the text, DEC a run that has not
ended, and a host that gives DEC.STEP (log 2). -/
def State.withFetchWord (s : State) (nbits w : Nat) : State :=
  setScript
    (setDec s
      { s.dec with
        txt := memPutAll s.dec.txt s.dec.pc (tableBytes nbits w)
        tlen := s.dec.pc + (tableBytes nbits w).length
        done := false })
    []

end Sys2Proof.Machine
end

