-- ==== Sys2Proof/Machine/Functional.lean ====
section
/-! DEFINITION. What the spec says ENCODE and DECODE compute, as functions of the whole input: the
chunk list of a buffer (00_scope.md R10, 40_extractor.md R111, R112), the packed text of a chunk list
(42_packer.md R150), the chunks of a text (43_unpacker.md R176), and the bytes of a chunk list (R176).
The step does not use them; statements compare the step with them. -/

namespace Sys2Proof.Machine

/-- Bit i of the bit stream of a byte buffer: bit `7 - (i mod 8)` of byte `i div 8`, and 0 beyond the
end (R10). -/
def streamBit (bytes : List Byte) (i : Nat) : Bool :=
  match bytes[i / 8]? with
  | some b => b.getLsbD (7 - i % 8)
  | none => false

/-- A number from its bits, the most significant first. -/
def bitsToNat (bits : List Bool) : Nat := bits.foldl (fun acc b => 2 * acc + b.toNat) 0

/-- The chunk whose bit 6-i is stream bit p+i, for i = 0 to 6 (R111). -/
def chunkFrom (bytes : List Byte) (p : Nat) : Chunk :=
  BitVec.ofNat 7 (bitsToNat ((List.range 7).map fun i => streamBit bytes (p + i)))

/-- The position of the encode cursor in the bit stream: `8*ENC.BI + ENC.BO` (R25, R111). -/
def cursorBit (e : Enc) : Nat := 8 * e.bi + e.bo.toNat

/-- The engine with its cursor at bit p of the stream. -/
def cursorAt (e : Enc) (p : Nat) : Enc := { e with bi := p / 8, bo := BitVec.ofNat 3 (p % 8) }

/-- `ceil(8n/7)`, the number of chunks of an n-byte input (R112). -/
def chunkCount (n : Nat) : Nat := (8 * n + 6) / 7

/-- The chunks `ch[0 .. m-1]` of an input: chunk j is stream bits 7j to 7j+6 (R111, R112). -/
def chunksOf (bytes : List Byte) : List Chunk :=
  (List.range (chunkCount bytes.length)).map fun j => chunkFrom bytes (7 * j)

/-- `esc(k, p)`: the two bytes of R85. -/
def escapeBytes (k : IndexField) (p : Chunk) : List Byte := [escByte1 k p, escByte2 p]

/-- `pack` (R150): the encoded text of a chunk list. -/
def packChunks : List Chunk → List Byte
  | [] => []
  | [c] =>
    match classOf c with
    | .safe => [c.setWidth 8]
    | .dangerous _ => escapeBytes 7#3 c
  | c :: n :: rest =>
    match classOf c with
    | .safe => c.setWidth 8 :: packChunks (n :: rest)
    | .dangerous k => escapeBytes (indexField k) n ++ packChunks rest

/-- Why a unit is invalid, if it is (R168). -/
def unitCause : Instr → Option Cause
  | .illLead10 _ | .illLead111 _ => some .lead
  | .illTrunc _ => some .trunc
  | .illCont _ _ => some .cont
  | .illOverlong _ => some .overlong
  | .illFixed _ _ => some .fixed
  | .illIndex6 _ | .illIndex6F0 _ => some .index6
  | .illShortpay _ => some .shortpay
  | .lit _ | .esc0 _ | .esc1 _ | .esc2 _ | .esc3 _ | .esc4 _ | .esc5 _ | .escs _ => none
  | .esckF0 _ _ | .escsF0 _ => none
  | .classD0 | .classD1 | .classD2 | .classD3 | .classD4 | .classD5 | .classSafe _ => none
  | .put1 _ | .pute _ _ | .puts _ | .get7 | .classify _ | .dval _ | .encStep | .encode => none
  | .push7 _ | .decStep | .decode | .encStart | .decStart => none

/-- The chunks a valid unit yields (R176): LIT c yields c; ESC k, p yields DVAL(k), p; ESCS p yields
p. -/
def unitChunks : Instr → List Chunk
  | .lit c => [c]
  | .esc0 p => [0x00#7, p]
  | .esc1 p => [0x0A#7, p]
  | .esc2 p => [0x0D#7, p]
  | .esc3 p => [0x22#7, p]
  | .esc4 p => [0x26#7, p]
  | .esc5 p => [0x5C#7, p]
  | .escs p | .escsF0 p => [p]
  | .esckF0 k p => [Config.dtab[k], p]
  | .illLead10 _ | .illLead111 _ | .illTrunc _ | .illCont _ _ | .illOverlong _ => []
  | .illFixed _ _ | .illIndex6 _ | .illIndex6F0 _ | .illShortpay _ => []
  | .classD0 | .classD1 | .classD2 | .classD3 | .classD4 | .classD5 | .classSafe _ => []
  | .put1 _ | .pute _ _ | .puts _ | .get7 | .classify _ | .dval _ | .encStep | .encode => []
  | .push7 _ | .decStep | .decode | .encStart | .decStart => []

/-- The chunks of a text from byte index pos on, or the cause and the index of its first invalid unit
(R174 (b), R208). The first argument bounds the number of units; the length of the text is enough. -/
def textChunks (strict : Bool) : Nat → Nat → List Byte → Except (Cause × Nat) (List Chunk)
  | 0, _, _ => .ok []
  | fuel + 1, pos, bytes =>
    match decodeUnit strict bytes with
    | .error _ => .ok []
    | .ok (i, rest) =>
      match unitCause i with
      | some cause => .error (cause, pos)
      | none =>
        match textChunks strict fuel (pos + (bytes.length - rest.length)) rest with
        | .ok cs => .ok (unitChunks i ++ cs)
        | .error e => .error e

/-- The chunks of a whole text, or its first failure. -/
def parseText (strict : Bool) (bytes : List Byte) : Except (Cause × Nat) (List Chunk) :=
  textChunks strict bytes.length 0 bytes

/-- Bit i of the bit string that chunks form, each most significant bit first (R176). -/
def chunkBit (cs : List Chunk) (i : Nat) : Bool :=
  match cs[i / 7]? with
  | some c => c.getLsbD (6 - i % 7)
  | none => false

/-- The whole bytes of the bit string of a chunk list: byte i is bits 8i to 8i+7, bit 8i first
(R176); bits beyond the last full byte are dropped (R177). -/
def chunkBytes (cs : List Chunk) : List Byte :=
  (List.range (7 * cs.length / 8)).map fun i =>
    BitVec.ofNat 8 (bitsToNat ((List.range 8).map fun t => chunkBit cs (8 * i + t)))

/-- DECODE's result as a function of the text (R174, R176). -/
def decodeText (strict : Bool) (bytes : List Byte) : DecReturn :=
  match parseText strict bytes with
  | .ok cs => .ok (chunkBytes cs)
  | .error _ => .invalidSequence

end Sys2Proof.Machine
end

