-- ==== Sys2Proof/Safety.lean ====
section
/-! DEFINITION. What claims are stated in terms of: the invariants of the two engines (10_state.md
R21, R24, R25, R26, R29, R51, R53), whole runs, and drawing chunks one after another. -/

namespace Sys2Proof.Machine

/-- A byte that is not one of the six dangerous values (30_encoding.md R98). -/
def safeByte (b : Byte) : Prop := ∀ k : Index, b ≠ (Config.dtab[k]).setWidth 8

/-- What holds of the encode engine between steps, its input being placed. -/
structure EncInv (e : Enc) : Prop where
  /-- ENC.IN holds exactly the indices 0 to ENC.LEN-1 (R50). -/
  inputPlaced : e.inp.dense e.len
  /-- 0 <= ENC.BI <= ENC.LEN (R21). -/
  cursorInRange : e.bi ≤ e.len
  /-- 8*ENC.BI + ENC.BO is a whole number of chunks (R25). -/
  cursorOnChunk : (8 * e.bi + e.bo.toNat) % 7 = 0
  /-- At exhaustion ENC.BO counts at most six zero-fill bits (R25, R112). -/
  fillBits : e.bi = e.len → e.bo.toNat ≤ 6
  /-- ENC.DONE is set only at exhaustion (R24). -/
  doneExhausted : e.done = true → e.len ≤ e.bi
  /-- ENC.OUT holds exactly the indices 0 to ENC.OLEN-1 (R51). -/
  outputDense : e.out.dense e.olen
  /-- One output byte per chunk drawn, and one more after a shortened escape, which ends the run
  (R151). -/
  outputSize : e.olen = (8 * e.bi + e.bo.toNat) / 7 ∨
    e.len ≤ e.bi ∧ e.olen = (8 * e.bi + e.bo.toNat) / 7 + 1
  /-- No byte of ENC.OUT is a dangerous value (R98). -/
  outputSafe : ∀ cell ∈ e.out.cells, safeByte cell.2

/-- What holds of the decode engine between steps, its text being placed. -/
structure DecInv (d : Dec) : Prop where
  /-- DEC.TXT holds exactly the indices 0 to DEC.TLEN-1 (R52). -/
  textPlaced : d.txt.dense d.tlen
  /-- 0 <= DEC.PC <= DEC.TLEN (R26). -/
  pcInRange : d.pc ≤ d.tlen
  /-- The bits of DEC.AC below its DEC.AB valid ones are 0 (R29). -/
  residueZero : d.ac <<< d.ab.toNat = 0#8
  /-- DEC.OUT holds exactly the indices 0 to DEC.OLEN-1 (R53). -/
  outputDense : d.out.dense d.olen
  /-- The bits emitted and the bits held are those of a whole number of chunks (R29). -/
  wholeChunks : d.err = false → (8 * d.olen + d.ab.toNat) % 7 = 0
  /-- A run that ended well is at the end of its text (R236). -/
  doneAtEnd : d.done = true → d.err = false → d.tlen ≤ d.pc
  /-- After a raise the run is over, its output withdrawn, and the record names a cause and the unit
  (R204). -/
  failed : d.err = true → d.done = true ∧ d.olen = 0 ∧ d.cause ≠ 0#3 ∧ d.epc = d.pc
  /-- Without a raise the error record is clear (R33). -/
  noFailure : d.err = false → d.cause = 0#3 ∧ d.epc = 0

/-- The invariant of the machine. -/
def Inv (s : State) : Prop := EncInv s.enc ∧ DecInv s.dec

/-- Run a list of host commands, one step each (44_system.md R192). -/
def runScript (cs : List HostCmd) (s : State) : Host.Outcome State Fault Refusal :=
  Sys2Proof.core.run cs.length (setScript s cs)

/-- The command is one of the encode engine's. -/
def HostCmd.isEnc : HostCmd → Bool
  | .encStart | .encStep | .encode => true
  | .decStart | .decStep | .decode => false

/-- The instruction is an operation of the encode engine, XTR, CLS or PCK (10_state.md R20); the others
are the decode engine's, with DVAL, which only the unpacker invokes (R133). -/
def isEncInstr : Instr → Bool
  | .classD0 | .classD1 | .classD2 | .classD3 | .classD4 | .classD5 | .classSafe _ => true
  | .put1 _ | .pute _ _ | .puts _ | .get7 | .classify _ | .encStep | .encode | .encStart => true
  | .lit _ | .esc0 _ | .esc1 _ | .esc2 _ | .esc3 _ | .esc4 _ | .esc5 _ | .escs _ => false
  | .illLead10 _ | .illLead111 _ | .illTrunc _ | .illCont _ _ | .illOverlong _ => false
  | .illFixed _ _ | .illIndex6 _ | .illShortpay _ => false
  | .esckF0 _ _ | .escsF0 _ | .illIndex6F0 _ => false
  | .dval _ | .push7 _ | .decStep | .decode | .decStart => false

/-- The record that `raise InvalidSequence(cause, DEC.PC)` leaves, field by field (R203, R204). -/
def raisedAt (d : Dec) (code : BitVec 3) : Dec :=
  { d with
    err := true
    cause := code
    epc := d.pc
    out := .empty
    olen := 0
    done := true }

/-- Up to n calls of GET7, one after another, until one returns None: the chunks they return, and the
engine after them. -/
def drawChunks : Nat → Enc → Host.Outcome (List Chunk × Enc) Fault Refusal
  | 0, e => .next ([], e)
  | n + 1, e =>
    andThen (extract e) fun r =>
      match r.1 with
      | none => .next ([], r.2)
      | some c => andThen (drawChunks n r.2) fun rest => .next (c :: rest.1, rest.2)

end Sys2Proof.Machine
end

