-- ==== Sys2Proof/Certificates/Slice0/Obligations.lean ====
section
/-! DEFINITION. The statements for the provers. Each docstring names the rule of spec/ it formalises;
where a clause rests on a choice of the model, it names the log entry. -/

open Sys2Proof Sys2Proof.Machine

/-! ### Encodings -/

/-- Decode and encode agree: for either value of STRICT, decoding the code of a well-formed
instruction gives the instruction back with every operand (30_encoding.md R84 to R86, R94, R95). -/
def Obligations.DecodeOfEncode : Prop :=
  ∀ (strict : Bool) (i : Instr) (code : Code),
    i.wellFormedAt strict = true → encode i = some code → decodeAt strict code = .ok i

/-- The other direction: what the unit decoder reads from a text is a well-formed text unit whose bytes,
followed by the bytes it left, are the text, so every byte sequence has at most one reading. -/
def Obligations.UnitDecodingLosesNoBit : Prop :=
  ∀ (strict : Bool) (bytes rest : List Byte) (i : Instr),
    decodeUnit strict bytes = .ok (i, rest) →
      i.wellFormedAt strict = true ∧ isTextUnit i = true ∧ unitBytes i ++ rest = bytes

/-- R89 and R90: the complete map of the first byte of a unit, for STRICT = 1 and, where it differs, for
STRICT = 0. A literal and a LEAD byte are units by themselves, whatever bytes follow. A first byte
`110xxxxx` without a second byte is TRUNC, and with one outside 0x80 to 0xBF it is CONT, before anything
that concerns its fields. -/
def Obligations.FirstByteMap : Prop :=
  (∀ (strict : Bool) (b1 : Byte), 0xC0 ≤ b1.toNat → b1.toNat ≤ 0xDF →
    (∃ i, decodeUnit strict [b1] = .ok (i, []) ∧ unitCause i = some .trunc) ∧
    ∀ (b2 : Byte) (rest : List Byte), b2.toNat < 0x80 ∨ 0xBF < b2.toNat →
      ∃ i, decodeUnit strict (b1 :: b2 :: rest) = .ok (i, rest) ∧ unitCause i = some .cont) ∧
  (∀ (strict : Bool) (b1 : Byte) (rest : List Byte), b1.toNat ≤ 0x7F →
    decodeUnit strict (b1 :: rest) = .ok (.lit (b1.extractLsb' 0 7), rest)) ∧
  (∀ (strict : Bool) (b1 : Byte) (rest : List Byte),
    (0x80 ≤ b1.toNat ∧ b1.toNat ≤ 0xBF) ∨ 0xE0 ≤ b1.toNat →
      ∃ i, decodeUnit strict (b1 :: rest) = .ok (i, rest) ∧ unitCause i = some .lead) ∧
  ∀ (strict : Bool) (b1 b2 : Byte) (rest : List Byte), 0x80 ≤ b2.toNat → b2.toNat ≤ 0xBF →
    let n := b1.toNat
    let p : Chunk := b1.extractLsb' 0 1 ++ b2.extractLsb' 0 6
    let unit (i : Instr) : Prop := decodeUnit strict (b1 :: b2 :: rest) = .ok (i, rest)
    let ill (c : Cause) : Prop := ∃ i, unit i ∧ unitCause i = some c
    (n ∈ [0xC0, 0xC1] → ill .overlong) ∧
    (strict = true → n ∈ [0xC4, 0xC5, 0xC8, 0xC9, 0xCC, 0xCD, 0xD0, 0xD1, 0xD4, 0xD5, 0xD8, 0xD9,
      0xDC, 0xDD] → ill .fixed) ∧
    (n ∈ [0xC2, 0xC3] → unit (.esc0 p)) ∧
    (n ∈ [0xC6, 0xC7] → unit (.esc1 p)) ∧
    (n ∈ [0xCA, 0xCB] → unit (.esc2 p)) ∧
    (n ∈ [0xCE, 0xCF] → unit (.esc3 p)) ∧
    (n ∈ [0xD2, 0xD3] → unit (.esc4 p)) ∧
    (n ∈ [0xD6, 0xD7] → unit (.esc5 p)) ∧
    (n ∈ [0xDA, 0xDB] → ill .index6) ∧
    (n ∈ [0xDE, 0xDF] →
      if strict = true ∧ Config.inDtab p = false then ill .shortpay else unit (.escs p)) ∧
    (strict = false →
      (n ∈ [0xC4, 0xC5] → unit (.esckF0 1 p)) ∧
      (n ∈ [0xC8, 0xC9] → unit (.esckF0 2 p)) ∧
      (n ∈ [0xCC, 0xCD] → unit (.esckF0 3 p)) ∧
      (n ∈ [0xD0, 0xD1] → unit (.esckF0 4 p)) ∧
      (n ∈ [0xD4, 0xD5] → unit (.esckF0 5 p)) ∧
      (n ∈ [0xD8, 0xD9] → ill .index6) ∧
      (n ∈ [0xDC, 0xDD] → unit (.escsF0 p)))

/-- The scalars of valid two-byte units under STRICT = 1 (30_encoding.md section 3): six ranges of 128
and six single values. -/
def Obligations.ValidEscapeScalars : Prop :=
  ∀ s : Scalar, unitCause (scalarUnit true s) = none ↔
    (∃ k : Fin 6, 256 * k.val + 128 ≤ s.toNat ∧ s.toNat ≤ 256 * k.val + 255) ∨
      s.toNat ∈ [0x780, 0x78A, 0x78D, 0x7A2, 0x7A6, 0x7DC]

/-- Words written out from the spec's encodings (30_encoding.md sections 1 and 3, 95_test_vectors.md
section 4) decode to the units they stand for. -/
def Obligations.WrittenWordsDecode : Prop :=
  decode (.unit [0x20#8]) = .ok (.lit 0x20#7) ∧
  decode (.unit [0xC3#8, 0xBF#8]) = .ok (.esc0 0x7F#7) ∧
  decode (.unit [0xCE#8, 0x91#8]) = .ok (.esc3 0x11#7) ∧
  decode (.unit [0xD7#8, 0xAF#8]) = .ok (.esc5 0x6F#7) ∧
  decode (.unit [0xDF#8, 0x9C#8]) = .ok (.escs 0x5C#7) ∧
  decode (.unit [0xE2#8]) = .ok (.illLead111 0b00010#5) ∧
  decode (.unit [0xC2#8]) = .ok (.illTrunc 0b00010#5) ∧
  decode (.unit [0xDA#8, 0x80#8]) = .ok (.illIndex6 0x00#7) ∧
  decode (.chunk 0b0100110#7) = .ok .classD4 ∧
  decode (.dispatch true true 0x5C#7 0x40#7) = .ok (.pute 5 0x40#7)

/-! ### The classifier -/

/-- R131: which chunk values are safe, and that they are 122 of the 128. -/
def Obligations.SafeChunkValues : Prop :=
  (∀ c : Chunk, classOf c = .safe ↔
    (0x01 ≤ c.toNat ∧ c.toNat ≤ 0x09) ∨ c.toNat = 0x0B ∨ c.toNat = 0x0C ∨
    (0x0E ≤ c.toNat ∧ c.toNat ≤ 0x21) ∨ (0x23 ≤ c.toNat ∧ c.toNat ≤ 0x25) ∨
    (0x27 ≤ c.toNat ∧ c.toNat ≤ 0x5B) ∨ (0x5D ≤ c.toNat ∧ c.toNat ≤ 0x7F)) ∧
  ((List.range 128).filter fun n => classOf (BitVec.ofNat 7 n) = .safe).length = 122

/-- R134: CLASS and DVAL are inverse on the dangerous set. -/
def Obligations.ClassDvalInverse : Prop :=
  (∀ k : Index, ∃ v, tableEntry (indexField k) = .next v ∧ classOf v = .dangerous k) ∧
  ∀ (c : Chunk) (k : Index), classOf c = .dangerous k → tableEntry (indexField k) = .next c

/-- CLASS and its seven pattern rows complete from every state and return the class that R130's
pseudocode gives; they write nothing else. That the class lands in the return register is the model's
choice (log 6). -/
def Obligations.ClassReturnsPattern : Prop :=
  ∀ (s : State) (c : Chunk),
    let returning (r : ChunkClass) : Host.Outcome State Fault Refusal :=
      .next (setEnc s { s.enc with ret := .cls r })
    exec .classD0 s = returning (.dangerous 0) ∧
    exec .classD1 s = returning (.dangerous 1) ∧
    exec .classD2 s = returning (.dangerous 2) ∧
    exec .classD3 s = returning (.dangerous 3) ∧
    exec .classD4 s = returning (.dangerous 4) ∧
    exec .classD5 s = returning (.dangerous 5) ∧
    exec (.classify c) s =
      returning (if c = 0x00#7 then .dangerous 0 else if c = 0x0A#7 then .dangerous 1
        else if c = 0x0D#7 then .dangerous 2 else if c = 0x22#7 then .dangerous 3
        else if c = 0x26#7 then .dangerous 4 else if c = 0x5C#7 then .dangerous 5 else .safe) ∧
    exec (decodeChunk c) s = exec (.classify c) s ∧
    (Config.inDtab c = false → exec (.classSafe c) s = returning .safe)

/-- DVAL returns its table entry for 0 to 5 and is refused for 6 and 7, which have none (R133). That
the value lands in the return register is the model's choice (log 6). -/
def Obligations.DvalReadsTable : Prop :=
  ∀ (s : State) (k : IndexField),
    let returning (v : Chunk) : Host.Outcome State Fault Refusal :=
      .next (setDec s { s.dec with ret := .value v })
    (k = 0#3 → exec (.dval k) s = returning 0x00#7) ∧
    (k = 1#3 → exec (.dval k) s = returning 0x0A#7) ∧
    (k = 2#3 → exec (.dval k) s = returning 0x0D#7) ∧
    (k = 3#3 → exec (.dval k) s = returning 0x22#7) ∧
    (k = 4#3 → exec (.dval k) s = returning 0x26#7) ∧
    (k = 5#3 → exec (.dval k) s = returning 0x5C#7) ∧
    (k = 6#3 ∨ k = 7#3 → exec (.dval k) s = .refused (.noTableEntry k))

/-! ### The extractor -/

/-- R111: GET7 on a placed input returns None at or beyond the end of the bit stream, otherwise the
seven stream bits at the cursor, zeros beyond the end, and moves the cursor by 7; so the j-th
successful call since ENC.START returns stream bits 7j to 7j+6. -/
def Obligations.ExtractTakesStreamSlice : Prop :=
  ∀ (e : Enc) (bytes : List Byte), e.inp = bufferOf bytes → e.len = bytes.length →
    (8 * e.len ≤ 8 * e.bi + e.bo.toNat → extract e = .next (none, e)) ∧
    (8 * e.bi + e.bo.toNat < 8 * e.len → ∃ c e', extract e = .next (some c, e') ∧
      (∀ i, i < 7 → c.getLsbD (6 - i) = streamBit bytes (8 * e.bi + e.bo.toNat + i)) ∧
      8 * e'.bi + e'.bo.toNat = 8 * e.bi + e.bo.toNat + 7 ∧
      e' = { e with bi := e'.bi, bo := e'.bo }) ∧
    (∀ j, j ≤ chunkCount e.len → drawChunks j (encClear e) =
      .next ((List.range j).map fun i => chunkFrom bytes (7 * i), cursorAt (encClear e) (7 * j)))

/-- R112: from ENC.START exactly ceil(8n/7) calls of GET7 return a chunk and every later one None;
the last chunk's zero-fill bits and ENC.BO at exhaustion are those of the table by n mod 7, and no
chunk is padding alone. -/
def Obligations.ExtractorChunkCount : Prop :=
  ∀ (e : Enc) (bytes : List Byte), e.inp = bufferOf bytes → e.len = bytes.length →
    let n := bytes.length
    let m := chunkCount n
    let fill := [0, 6, 5, 4, 3, 2, 1].getD (n % 7) 0
    8 * n ≤ 7 * m ∧ 7 * m = 8 * n + fill ∧
    (∀ calls, m ≤ calls → ∃ e', drawChunks calls (encClear e) = .next (chunksOf bytes, e') ∧
      e'.bi = n ∧ e'.bo.toNat = fill ∧ extract e' = .next (none, e')) ∧
    (∀ calls cs e', calls < m → drawChunks calls (encClear e) = .next (cs, e') → cs.length = calls) ∧
    (0 < n → (chunkFrom bytes (7 * (m - 1))).toNat % 2 ^ fill = 0 ∧ 7 * (m - 1) < 8 * n)

/-- R113: GET7 by value of ENC.BO, the next byte read as 0 where there is none. -/
def Obligations.ExtractByBitOffset : Prop :=
  ∀ (e : Enc) (cur nxt : Byte), e.bi < e.len → memGet e.inp e.bi = some cur →
    (if e.bi + 1 < e.len then memGet e.inp (e.bi + 1) = some nxt else nxt = 0#8) →
    let answer (c : Chunk) (bo : BitVec 3) (bi : Nat) : Prop :=
      extract e = .next (some c, { e with bo := bo, bi := bi })
    (e.bo = 0#3 → answer (cur.extractLsb' 1 7) 7#3 e.bi) ∧
    (e.bo = 1#3 → answer (cur.extractLsb' 0 7) 0#3 (e.bi + 1)) ∧
    (e.bo = 2#3 → answer (cur.extractLsb' 0 6 ++ nxt.extractLsb' 7 1) 1#3 (e.bi + 1)) ∧
    (e.bo = 3#3 → answer (cur.extractLsb' 0 5 ++ nxt.extractLsb' 6 2) 2#3 (e.bi + 1)) ∧
    (e.bo = 4#3 → answer (cur.extractLsb' 0 4 ++ nxt.extractLsb' 5 3) 3#3 (e.bi + 1)) ∧
    (e.bo = 5#3 → answer (cur.extractLsb' 0 3 ++ nxt.extractLsb' 4 4) 4#3 (e.bi + 1)) ∧
    (e.bo = 6#3 → answer (cur.extractLsb' 0 2 ++ nxt.extractLsb' 3 5) 5#3 (e.bi + 1)) ∧
    (e.bo = 7#3 → answer (cur.extractLsb' 0 1 ++ nxt.extractLsb' 2 6) 6#3 (e.bi + 1))

/-- GET7 completes with a placed input, writes the cursor and nothing else, and returns the chunk or
None of the extractor. That it lands in the return register is the model's choice (log 6). -/
def Obligations.Get7Completes : Prop :=
  ∀ s : State, s.enc.inp.dense s.enc.len →
    ∃ r bi bo, extract s.enc = .next (r, { s.enc with bi := bi, bo := bo }) ∧
      (r = none ↔ s.enc.len ≤ s.enc.bi) ∧
      exec .get7 s = .next (setEnc s { s.enc with bi := bi, bo := bo, ret := .chunk r })

/-! ### The packer -/

/-- PUT1 appends the byte `0ccccccc` at index ENC.OLEN and changes nothing else (R142, R51). R142 gives
it safe chunks only; that it does the same with a dangerous one is the model's reading (log 11). -/
def Obligations.Put1AppendsLiteral : Prop :=
  ∀ (s : State) (c : Chunk), ∃ out,
    exec (.put1 c) s = .next (setEnc s { s.enc with out := out, olen := s.enc.olen + 1 }) ∧
    memGet out s.enc.olen = some (0#1 ++ c) ∧
    ∀ a, a ≠ s.enc.olen → memGet out a = memGet s.enc.out a

/-- PUTE appends `110kkk1p` then `10pppppp` with the index field k and the next chunk as payload, and
changes nothing else (R144, R84, R55). -/
def Obligations.PuteAppendsEscape : Prop :=
  ∀ (s : State) (k : Index) (n : Chunk), ∃ out,
    exec (.pute k n) s = .next (setEnc s { s.enc with out := out, olen := s.enc.olen + 2 }) ∧
    memGet out s.enc.olen = some (0b110#3 ++ BitVec.ofNat 3 k.val ++ 1#1 ++ n.extractLsb' 6 1) ∧
    memGet out (s.enc.olen + 1) = some (0b10#2 ++ n.extractLsb' 0 6) ∧
    ∀ a, a ≠ s.enc.olen → a ≠ s.enc.olen + 1 → memGet out a = memGet s.enc.out a

/-- PUTS appends `1101111p` then `10pppppp` with its chunk as payload, and changes nothing else (R146,
R84, R55). R146 gives it dangerous chunks only; that it does the same with a safe one is the model's
reading (log 11). -/
def Obligations.PutsAppendsShortened : Prop :=
  ∀ (s : State) (c : Chunk), ∃ out,
    exec (.puts c) s = .next (setEnc s { s.enc with out := out, olen := s.enc.olen + 2 }) ∧
    memGet out s.enc.olen = some (0b1101111#7 ++ c.extractLsb' 6 1) ∧
    memGet out (s.enc.olen + 1) = some (0b10#2 ++ c.extractLsb' 0 6) ∧
    ∀ a, a ≠ s.enc.olen → a ≠ s.enc.olen + 1 → memGet out a = memGet s.enc.out a

/-- R148: one ENC.STEP on a placed input. With ENC.DONE = 1 nothing; at exhaustion ENC.DONE; a safe
chunk is packed by PUT1; a dangerous one by PUTE with the next chunk, which is drawn in the same step
and not classified, or by PUTS where there is none. Nothing else changes. -/
def Obligations.EncStepPacksOneUnit : Prop :=
  ∀ (s : State) (bytes : List Byte),
    s.enc.inp = bufferOf bytes → s.enc.len = bytes.length →
    let p := 8 * s.enc.bi + s.enc.bo.toNat
    let c := chunkFrom bytes p
    let moved (q : Nat) : State := setEnc s (cursorAt s.enc q)
    (s.enc.done = true → exec .encStep s = .next s) ∧
    (s.enc.done = false → 8 * s.enc.len ≤ p →
      exec .encStep s = .next (setEnc s { s.enc with done := true })) ∧
    (s.enc.done = false → p < 8 * s.enc.len →
      match classOf c with
      | .safe => exec .encStep s = exec (.put1 c) (moved (p + 7))
      | .dangerous k =>
        if p + 7 < 8 * s.enc.len then
          exec .encStep s = exec (.pute k (chunkFrom bytes (p + 7))) (moved (p + 14))
        else exec .encStep s = exec (.puts c) (moved (p + 7)))

/-- The dispatch bits choose the emit operation (30_encoding.md section 5): d says that the chunk is
dangerous, nv that a next chunk exists, `0x` is PUT1, `11` PUTE and `10` PUTS. An ENC.STEP on a placed
input that draws a chunk is the operation its bits choose, run with the cursor past the chunks drawn. -/
def Obligations.DispatchBitsSelectEmit : Prop :=
  (∀ (c n : Chunk) (nv : Bool),
    (dispatchD c = false → decodeDispatch (dispatchD c) nv c n = .ok (.put1 c)) ∧
    (∀ k, classOf c = .dangerous k →
      decodeDispatch (dispatchD c) (dispatchNv (some n)) c n = .ok (.pute k n) ∧
      decodeDispatch (dispatchD c) (dispatchNv none) c n = .ok (.puts c))) ∧
  ∀ (s : State) (bytes : List Byte),
    s.enc.inp = bufferOf bytes → s.enc.len = bytes.length → s.enc.done = false →
    let p := 8 * s.enc.bi + s.enc.bo.toNat
    let c := chunkFrom bytes p
    let n := chunkFrom bytes (p + 7)
    let nv := dispatchNv (if p + 7 < 8 * s.enc.len then some n else none)
    p < 8 * s.enc.len →
      ∃ i, decodeDispatch (dispatchD c) nv c n = .ok i ∧
        exec .encStep s = exec i (setEnc s (cursorAt s.enc
          (if dispatchD c = true ∧ nv = true then p + 14 else p + 7)))

/-- ENC.STEP completes with a placed input: it appends at most two bytes, and leaves ENC.IN, ENC.LEN, the
decode engine and the bytes already appended as they were. -/
def Obligations.EncStepCompletes : Prop :=
  ∀ s : State, s.enc.inp.dense s.enc.len →
    ∃ bi bo done out olen, exec .encStep s =
        .next (setEnc s { s.enc with bi := bi, bo := bo, done := done, out := out, olen := olen }) ∧
      s.enc.olen ≤ olen ∧ olen ≤ s.enc.olen + 2 ∧
      ∀ a, a < s.enc.olen ∨ olen ≤ a → memGet out a = memGet s.enc.out a

/-- R150: ENCODE returns the packed chunk list of its input. -/
def Obligations.EncodePacksChunks : Prop :=
  ∀ (s : State) (bytes : List Byte), ∃ t, exec .encode (placeInput s bytes) = .next t ∧
    bufferBytes t.enc.out t.enc.olen = packChunks (chunksOf bytes) ∧
    t.enc.olen = (packChunks (chunksOf bytes)).length ∧ t.enc.out.dense t.enc.olen ∧
    t.enc.done = true

/-- ENCODE is ENC.START and then ENC.STEP until ENC.DONE (R149), within ceil(8n/7) + 1 steps (R237):
the same engine results but for the return register, which then holds the text (log 6). -/
def Obligations.EncodeIsStartAndSteps : Prop :=
  ∀ (s : State) (bytes : List Byte), ∃ t u,
    exec .encode (placeInput s bytes) = .next t ∧
    runScript (.encStart :: List.replicate ((8 * bytes.length + 6) / 7 + 1) .encStep)
      (placeInput s bytes) = .next u ∧
    u.enc.done = true ∧
    t = setEnc (placeInput s bytes)
      { u.enc with ret := .text (bufferBytes u.enc.out u.enc.olen) }

/-- R151: the size of the output. -/
def Obligations.EncodedSize : Prop :=
  ∀ (s : State) (bytes : List Byte), ∃ t, exec .encode (placeInput s bytes) = .next t ∧
    let n := bytes.length
    let m := chunkCount n
    (n = 0 → t.enc.olen = 0) ∧
    (0 < n → m ≤ t.enc.olen ∧ t.enc.olen ≤ m + 1) ∧
    (t.enc.olen = m + 1 ↔ ∃ c pre, Config.inDtab c = true ∧
      bufferBytes t.enc.out t.enc.olen = pre ++ escapeBytes 7#3 c) ∧
    (t.enc.olen ≠ m + 1 → t.enc.olen = m) ∧
    ((∀ c ∈ chunksOf bytes, classOf c = .safe) → t.enc.olen = m) ∧
    n ≤ t.enc.olen ∧ t.enc.olen ≤ m * 2

/-- R98: no byte that an encode run emits equals a dangerous value. -/
def Obligations.OutputBytesSafe : Prop :=
  ∀ (s : State) (bytes : List Byte), ∃ t, exec .encode (placeInput s bytes) = .next t ∧
    ∀ b ∈ bufferBytes t.enc.out t.enc.olen,
      b.toNat ≠ 0x00 ∧ b.toNat ≠ 0x0A ∧ b.toNat ≠ 0x0D ∧ b.toNat ≠ 0x22 ∧ b.toNat ≠ 0x26 ∧
      b.toNat ≠ 0x5C

/-- The encoded text of every one-byte input (95_test_vectors.md section 4, the closed form). -/
def Obligations.OneByteEncodings : Prop :=
  ∀ (s : State) (b : Byte), ∃ t, exec .encode (placeInput s [b]) = .next t ∧
    bufferBytes t.enc.out t.enc.olen =
      match classOf (b.extractLsb' 1 7) with
      | .dangerous k => [BitVec.ofNat 8 (0xC2 + 4 * k.val + b.toNat % 2), 0x80#8]
      | .safe => if b.toNat % 2 = 0 then [b >>> 1, 0xDE#8, 0x80#8] else [b >>> 1, 0x40#8]

/-! ### The unpacker -/

/-- R162: PUSH7 by value of DEC.AB, for an accumulator whose bits below the valid ones are 0 (the
invariant of R29). -/
def Obligations.PushByAccumulatorFill : Prop :=
  ∀ (d : Dec) (v : Chunk), d.ac <<< d.ab.toNat = 0#8 →
    let emits (byte ac : Byte) (ab : BitVec 3) : Prop :=
      pushChunk v d = (some byte,
        { d with ac := ac, ab := ab, out := memPut d.out d.olen byte, olen := d.olen + 1 })
    (d.ab = 0#3 → pushChunk v d = (none, { d with ac := v ++ 0#1, ab := 7#3 })) ∧
    (d.ab = 1#3 → emits (d.ac.extractLsb' 7 1 ++ v) 0#8 0#3) ∧
    (d.ab = 2#3 → emits (d.ac.extractLsb' 6 2 ++ v.extractLsb' 1 6) (v.extractLsb' 0 1 ++ 0#7) 1#3) ∧
    (d.ab = 3#3 → emits (d.ac.extractLsb' 5 3 ++ v.extractLsb' 2 5) (v.extractLsb' 0 2 ++ 0#6) 2#3) ∧
    (d.ab = 4#3 → emits (d.ac.extractLsb' 4 4 ++ v.extractLsb' 3 4) (v.extractLsb' 0 3 ++ 0#5) 3#3) ∧
    (d.ab = 5#3 → emits (d.ac.extractLsb' 3 5 ++ v.extractLsb' 4 3) (v.extractLsb' 0 4 ++ 0#4) 4#3) ∧
    (d.ab = 6#3 → emits (d.ac.extractLsb' 2 6 ++ v.extractLsb' 5 2) (v.extractLsb' 0 5 ++ 0#3) 5#3) ∧
    (d.ab = 7#3 → emits (d.ac.extractLsb' 1 7 ++ v.extractLsb' 6 1) (v.extractLsb' 0 6 ++ 0#2) 6#3)

/-- R161: PUSH7 is the 15-bit window W = DEC.AC << 7 | v << (8 - a): at 8 or more bits it emits the top
8 and carries the rest, otherwise it only keeps them; from an empty accumulator DEC.AC is 0 (R29). -/
def Obligations.PushIsWindow : Prop :=
  ∀ (d : Dec) (v : Chunk), (d.ab = 0#3 → d.ac = 0#8) →
    let a := d.ab.toNat
    let w : BitVec 15 := (d.ac.setWidth 15 <<< 7) ||| (v.setWidth 15 <<< (8 - a))
    if 8 ≤ a + 7 then
      pushChunk v d = (some (w.extractLsb' 7 8),
        { d with
          ac := w.extractLsb' 0 7 ++ 0#1
          ab := BitVec.ofNat 3 (a + 7 - 8)
          out := memPut d.out d.olen (w.extractLsb' 7 8)
          olen := d.olen + 1 })
    else pushChunk v d = (none, { d with ac := w.extractLsb' 7 8, ab := 7#3 })

/-- PUSH7 completes from every state and does what pushChunk does, which writes the accumulator and the
output only (R160); R161 and R162 are stated of pushChunk. That the emitted byte lands in the return
register is the model's choice (log 6). -/
def Obligations.Push7Completes : Prop :=
  ∀ (s : State) (v : Chunk),
    let r := pushChunk v s.dec
    exec (.push7 v) s = .next (setDec s (setDecRet r.2 (.pushed r.1))) ∧
    r.2 = { s.dec with
      ac := r.2.ac
      ab := BitVec.ofNat 3 ((s.dec.ab.toNat + 7) % 8)
      out := r.2.out
      olen := r.2.olen } ∧
    (s.dec.ab = 0#3 → r.1 = none ∧ r.2.olen = s.dec.olen ∧ r.2.out = s.dec.out) ∧
    (s.dec.ab ≠ 0#3 → ∃ byte, r.1 = some byte ∧ r.2.olen = s.dec.olen + 1 ∧
      memGet r.2.out s.dec.olen = some byte ∧
      ∀ a, a ≠ s.dec.olen → memGet r.2.out a = memGet s.dec.out a)

/-- LIT c completes from every state: it pushes c and moves DEC.PC by 1, and writes nothing that PUSH7
does not (R164). -/
def Obligations.LitPushesChunk : Prop :=
  ∀ (s : State) (c : Chunk),
    exec (.lit c) s = .next (setDec s { (pushChunk c s.dec).2 with pc := s.dec.pc + 1 }) ∧
    (pushChunk c s.dec).2.olen = s.dec.olen + if s.dec.ab = 0#3 then 0 else 1

/-- ESC k, p completes from every state: it pushes DTAB[k] and then p, moves DEC.PC by 2, and emits
one byte when DEC.AB was 0 or 1 and two otherwise (R166); so do the STRICT = 0 readings. That a STRICT = 0
reading, run by itself, does so for k = 0 and under STRICT = 1 too is the model's choice (log 10). -/
def Obligations.EscPushesTwoChunks : Prop :=
  ∀ (s : State) (p : Chunk),
    let both (v : Chunk) : Dec := (pushChunk p (pushChunk v s.dec).2).2
    let runs (i : Instr) (v : Chunk) : Prop :=
      exec i s = .next (setDec s { both v with pc := s.dec.pc + 2 }) ∧
      (both v).olen = s.dec.olen + if s.dec.ab.toNat ≤ 1 then 1 else 2
    runs (.esc0 p) 0x00#7 ∧ runs (.esc1 p) 0x0A#7 ∧ runs (.esc2 p) 0x0D#7 ∧
    runs (.esc3 p) 0x22#7 ∧ runs (.esc4 p) 0x26#7 ∧ runs (.esc5 p) 0x5C#7 ∧
    ∀ k : Index, runs (.esckF0 k p) Config.dtab[k]

/-- ESCS p completes from every state: it pushes p alone and moves DEC.PC by 2 (R167); so does its
STRICT = 0 reading. That under STRICT = 1 a payload outside DTAB and the STRICT = 0 reading, run by
themselves, do so too is the model's choice (log 10). -/
def Obligations.EscsPushesPayload : Prop :=
  ∀ (s : State) (p : Chunk), ∀ i ∈ [Instr.escs p, Instr.escsF0 p],
    exec i s = .next (setDec s { (pushChunk p s.dec).2 with pc := s.dec.pc + 2 })

/-- What raising InvalidSequence changes (R203, R204), for each illegal unit of R168, with the cause codes
of R202: the error record, the withdrawn output and DEC.DONE; everything else stays. That an illegal row,
run by itself, raises also where its condition does not hold (its operands, STRICT) is the model's choice
(log 10). -/
def Obligations.RaiseWritesErrorRecord : Prop :=
  ∀ s : State,
    let raises (i : Instr) (code : BitVec 3) : Prop :=
      exec i s = .next (setDec s
        { s.dec with
          err := true
          cause := code
          epc := s.dec.pc
          out := .empty
          olen := 0
          done := true })
    (∀ x, raises (.illLead10 x) 1#3) ∧ (∀ x, raises (.illLead111 x) 1#3) ∧
    (∀ x, raises (.illTrunc x) 2#3) ∧ (∀ x y, raises (.illCont x y) 3#3) ∧
    (∀ p, raises (.illOverlong p) 4#3) ∧ (∀ k p, raises (.illFixed k p) 5#3) ∧
    (∀ p, raises (.illIndex6 p) 6#3) ∧ (∀ p, raises (.illIndex6F0 p) 6#3) ∧
    (∀ p, raises (.illShortpay p) 7#3)

/-- R168: the seven checks of DEC.STEP on the bytes at DEC.PC, in their order; the first that fails
raises with its cause at DEC.PC, which changes what R203 and R204 say, and nothing of the unit is
executed; if none fails the unit is executed without an error. -/
def Obligations.ChecksInOrder : Prop :=
  ∀ (s : State) (b1 b2 : Byte), s.dec.done = false → s.dec.pc < s.dec.tlen →
    memGet s.dec.txt s.dec.pc = some b1 →
    (s.dec.pc + 1 < s.dec.tlen → memGet s.dec.txt (s.dec.pc + 1) = some b2) →
    let n := b1.toNat
    let scalar : Scalar := b1.extractLsb' 0 5 ++ b2.extractLsb' 0 6
    let k := scalar.extractLsb' 8 3
    let p := scalar.extractLsb' 0 7
    let failing : BitVec 3 :=
      if (0x80 ≤ n ∧ n ≤ 0xBF) ∨ 0xE0 ≤ n then 1#3
      else if n ≤ 0x7F then 0#3
      else if s.dec.tlen ≤ s.dec.pc + 1 then 2#3
      else if ¬ (0x80 ≤ b2.toNat ∧ b2.toNat ≤ 0xBF) then 3#3
      else if scalar.toNat < 128 then 4#3
      else if s.strict = true ∧ scalar.getLsbD 7 = false then 5#3
      else if k = 6#3 then 6#3
      else if s.strict = true ∧ k = 7#3 ∧ Config.inDtab p = false then 7#3
      else 0#3
    if failing = 0#3 then
      ∃ t, exec .decStep s = .next t ∧ t.dec.err = s.dec.err ∧ t.dec.done = false ∧
        t.dec.pc = s.dec.pc + if n ≤ 0x7F then 1 else 2
    else exec .decStep s = .next (setDec s (raisedAt s.dec failing))

/-- A step runs the decoded instruction: where the text at DEC.PC decodes to a unit, DEC.STEP is that
unit's effect (R172), and so is a step of a host that gives DEC.STEP or whose script is at its end
(log 3). -/
def Obligations.StepRunsDecodedUnit : Prop :=
  ∀ (s : State) (text rest : List Byte) (i : Instr),
    s.dec.txt = bufferOf text → s.dec.tlen = text.length → s.dec.done = false →
    decodeUnit s.strict (text.drop s.dec.pc) = .ok (i, rest) →
      exec .decStep s = exec i s ∧
      (s.script = [] → step s = exec i s) ∧
      ∀ cs, step (setScript s (.decStep :: cs)) = exec i (setScript s cs)

/-- A step is the host's next command, taken off its script (R192; that the commands stand in the
state, and that a host at the end of its script goes on with DEC.STEP, is the model's choice,
log 3). -/
def Obligations.StepRunsHostCommand : Prop :=
  ∀ (s : State) (cs : List HostCmd),
    step (setScript s (.encStart :: cs)) = exec .encStart (setScript s cs) ∧
    step (setScript s (.encStep :: cs)) = exec .encStep (setScript s cs) ∧
    step (setScript s (.encode :: cs)) = exec .encode (setScript s cs) ∧
    step (setScript s (.decStart :: cs)) = exec .decStart (setScript s cs) ∧
    step (setScript s (.decStep :: cs)) = exec .decStep (setScript s cs) ∧
    step (setScript s (.decode :: cs)) = exec .decode (setScript s cs) ∧
    step (setScript s []) = exec .decStep (setScript s [])

/-- A word of the opcode table that this hardware's decoder reads as a unit, stored where the step
fetches, is run by the very next step (the placing is the model's convention, log 2). -/
def Obligations.FetchedWordRuns : Prop :=
  ∀ (s : State) (nbits w : Nat) (i : Instr), s.strict = Config.strict →
    decodeTableWord nbits w = some i →
      step (s.withFetchWord nbits w) = exec i (s.withFetchWord nbits w)

/-- DEC.STEP at the end of the text sets DEC.DONE and changes nothing else (R31, R172). -/
def Obligations.EndOfTextSetsDone : Prop :=
  ∀ s : State, s.dec.done = false → s.dec.tlen ≤ s.dec.pc →
    exec .decStep s = .next (setDec s { s.dec with done := true })

/-- R193: a STEP on an engine whose DONE flag is 1 does nothing, also when DEC.ERR = 1. -/
def Obligations.StepAfterDoneDoesNothing : Prop :=
  ∀ s : State, (s.enc.done = true → exec .encStep s = .next s) ∧
    (s.dec.done = true → exec .decStep s = .next s)

/-- R176: DECODE of a text all of whose units pass, with chunks cs: floor(7j/8) bytes, those of the
chunk bit string; DEC.AB is 7j mod 8 and DEC.AC holds the last 7j mod 8 bits in its high positions. -/
def Obligations.DecodeOfValidText : Prop :=
  ∀ (s : State) (text : List Byte) (cs : List Chunk), parseText s.strict text = .ok cs →
    ∃ t, exec .decode (placeText s text) = .next t ∧
      t.dec.done = true ∧ t.dec.err = false ∧ t.dec.pc = text.length ∧
      t.dec.olen = 7 * cs.length / 8 ∧
      bufferBytes t.dec.out t.dec.olen = chunkBytes cs ∧
      t.dec.ab.toNat = 7 * cs.length % 8 ∧
      (∀ i, i < t.dec.ab.toNat → t.dec.ac.getLsbD (7 - i) = chunkBit cs (8 * t.dec.olen + i)) ∧
      t.dec.ac <<< t.dec.ab.toNat = 0#8

/-- DECODE of a text some unit of which fails (R174, R204, R208): the failure of the first such unit in
text order, with its cause and its index, and no bytes. -/
def Obligations.DecodeOfInvalidText : Prop :=
  ∀ (s : State) (text : List Byte) (cause : Cause) (index : Nat),
    parseText s.strict text = .error (cause, index) →
    ∃ t, exec .decode (placeText s text) = .next t ∧
      t.dec.done = true ∧ t.dec.err = true ∧ t.dec.cause = causeCode cause ∧
      t.dec.epc = index ∧ t.dec.pc = index ∧ t.dec.out = .empty ∧ t.dec.olen = 0

/-- Precision of the exception (60_exceptions.md section 2): where DECODE fails at DEC.EPC, the text
before DEC.EPC decodes without an error to the accumulator that the failing run was left with, and the
unit at DEC.EPC is one that raises. -/
def Obligations.PrefixBeforeFaultDecodes : Prop :=
  ∀ (s t : State) (text : List Byte), exec .decode (placeText s text) = .next t →
    t.dec.err = true →
    ∃ u, exec .decode (placeText s (text.take t.dec.epc)) = .next u ∧ u.dec.err = false ∧
      u.dec.pc = t.dec.epc ∧ u.dec.ac = t.dec.ac ∧ u.dec.ab = t.dec.ab ∧
      ∃ i rest cause, decodeUnit s.strict (text.drop t.dec.epc) = .ok (i, rest) ∧
        unitCause i = some cause ∧ t.dec.cause = causeCode cause

/-- DECODE is DEC.START and then DEC.STEP until DEC.DONE (R174), within t + 1 steps (R237), for every
text: the same results but for the return register, which then holds the bytes or the failure
(log 6). -/
def Obligations.DecodeIsStartAndSteps : Prop :=
  ∀ (s : State) (text : List Byte), ∃ t u,
    exec .decode (placeText s text) = .next t ∧
    runScript (.decStart :: List.replicate (text.length + 1) .decStep) (placeText s text) = .next u ∧
    u.dec.done = true ∧
    t = setDec (placeText s text)
      { u.dec with ret := if u.dec.err = true then .invalidSequence
                          else .ok (bufferBytes u.dec.out u.dec.olen) }

/-! ### Encoder and decoder together -/

/-- The text of a chunk list parses back to it under either value of STRICT (42_packer.md section 5,
validity): every unit the encoder emits is accepted. -/
def Obligations.PackedTextParses : Prop :=
  ∀ (strict : Bool) (cs : List Chunk), parseText strict (packChunks cs) = .ok cs

/-- R153: for every byte buffer, DECODE of ENCODE succeeds and returns it. -/
def Obligations.DecodeOfEncodeReturnsInput : Prop :=
  ∀ (s : State) (bytes : List Byte), ∃ t u,
    exec .encode (placeInput s bytes) = .next t ∧
    exec .decode (placeText t (bufferBytes t.enc.out t.enc.olen)) = .next u ∧
    u.dec.done = true ∧ u.dec.err = false ∧ bufferBytes u.dec.out u.dec.olen = bytes

/-- Encoded texts concatenate where the first input's length is a multiple of 7 (70_reset_and_hazards.md
section 4): there are then no fill bits between them. -/
def Obligations.ConcatenationAtSevenBytes : Prop :=
  ∀ (s : State) (a b : List Byte), a.length % 7 = 0 →
    ∃ t, exec .decode (placeText s (packChunks (chunksOf a) ++ packChunks (chunksOf b))) = .next t ∧
      t.dec.err = false ∧ bufferBytes t.dec.out t.dec.olen = a ++ b

/-- DECODE is not injective and ENCODE does not undo it (43_unpacker.md section 6), from every state: one
literal gives no byte, as the empty text does; texts that differ only in discarded bits give the same
bytes; a dangerous value gives the same bytes as a literal and inside an escape; and ENCODE of a result is
not always the text it came from. -/
def Obligations.DecodeNotInjective : Prop :=
  ∀ s : State,
    let gives (text bytes : List Byte) : Prop := ∃ t, exec .decode (placeText s text) = .next t ∧
      t.dec.done = true ∧ t.dec.err = false ∧ bufferBytes t.dec.out t.dec.olen = bytes
    gives [] [] ∧ gives [0x20#8] [] ∧
    gives [0x20#8, 0x40#8] [0x41#8] ∧ gives [0x20#8, 0x41#8] [0x41#8] ∧
    gives [0x0A#8, 0x20#8] [0x14#8] ∧ gives [0xC6#8, 0xA0#8] [0x14#8] ∧
    ∃ t, exec .encode (placeInput s [0x41#8]) = .next t ∧
      bufferBytes t.enc.out t.enc.olen = [0x20#8, 0x40#8]

/-! ### Start and reset -/

/-- R190: ENC.START sets exactly the cursor, the output and ENC.DONE, from any state, and two in a row
equal one. -/
def Obligations.EncStartResets : Prop :=
  ∀ s : State, ∃ t, exec .encStart s = .next t ∧
    t = { s with enc :=
      { s.enc with bi := 0, bo := 0#3, out := .empty, olen := 0, done := false } } ∧
    exec .encStart t = .next t

/-- R191: DEC.START sets exactly DEC.PC, the accumulator, the output and the flags and error record,
from any state, and two in a row equal one. -/
def Obligations.DecStartResets : Prop :=
  ∀ s : State, ∃ t, exec .decStart s = .next t ∧
    t = { s with dec :=
      { s.dec with
        pc := 0
        ac := 0#8
        ab := 0#3
        out := .empty
        olen := 0
        done := false
        err := false
        cause := 0#3
        epc := 0 } } ∧
    exec .decStart t = .next t

/-- R230: power-on leaves each engine as its START does, with empty inputs, and a STEP before the host
has loaded anything ends the empty run with an empty result. -/
def Obligations.ResetIsStartWithEmptyInputs : Prop :=
  let r := State.reset
  r.enc.bi = 0 ∧ r.enc.bo = 0#3 ∧ r.enc.out = .empty ∧ r.enc.olen = 0 ∧ r.enc.done = false ∧
  r.dec.pc = 0 ∧ r.dec.ac = 0#8 ∧ r.dec.ab = 0#3 ∧ r.dec.out = .empty ∧ r.dec.olen = 0 ∧
  r.dec.done = false ∧ r.dec.err = false ∧ r.dec.cause = 0#3 ∧ r.dec.epc = 0 ∧
  r.enc.len = 0 ∧ r.dec.tlen = 0 ∧ r.enc.inp = .empty ∧ r.dec.txt = .empty ∧
  exec .encStart r = .next r ∧ exec .decStart r = .next r ∧
  exec .encStep r = .next (setEnc r { r.enc with done := true }) ∧
  exec .decStep r = .next (setDec r { r.dec with done := true })

/-! ### The whole machine -/

/-- The reset state meets the invariant. -/
def Obligations.ResetMeetsInvariant : Prop := Inv State.reset

/-- Every step keeps the invariant of both engines: the cursor, the accumulator, the outputs and the
error record stay as 10_state.md R21, R24 to R26, R29, R32, R33, R51 and R53 describe them, and no output
byte is a dangerous value. -/
def Obligations.StepKeepsInvariant : Prop :=
  ∀ s t : State, Inv s → step s = .next t → Inv t

/-- From a state that meets the invariant no step stops: encoding has no failure path, and a decode
failure is a next state (R140, R201). -/
def Obligations.StepNeverStops : Prop :=
  ∀ s : State, Inv s → ∃ t, step s = .next t

/-- An operation of one engine neither reads nor writes the other's state (10_state.md section 1): what
it does to its own engine is the same whatever the other engine holds, and nothing else changes. -/
def Obligations.EnginesShareNoState : Prop :=
  ∀ (i : Instr) (s t : State), exec i s = .next t →
    (isEncInstr i = true → ∀ s' : State, s'.enc = s.enc →
      exec i s' = .next { s' with enc := t.enc }) ∧
    (isEncInstr i = false → ∀ s' : State, s'.dec = s.dec → s'.strict = s.strict →
      exec i s' = .next { s' with dec := t.dec })

/-- R20, the interleaving: any interleaving of commands to the two engines gives each engine the same
result as running alone. -/
def Obligations.InterleavingIsIrrelevant : Prop :=
  ∀ (cs : List HostCmd) (s a b : State),
    runScript (cs.filter HostCmd.isEnc) s = .next a →
    runScript (cs.filter fun c => !c.isEnc) s = .next b →
    runScript cs s = .next { s with enc := a.enc, dec := b.dec, script := [] }

/-- No operation of the block writes an input buffer, its length or STRICT (20_memory.md R50, R52, R62,
10_state.md R35). -/
def Obligations.InputsAreNeverWritten : Prop :=
  ∀ (i : Instr) (s t : State), exec i s = .next t →
    t.enc.inp = s.enc.inp ∧ t.enc.len = s.enc.len ∧ t.dec.txt = s.dec.txt ∧
    t.dec.tlen = s.dec.tlen ∧ t.strict = s.strict

/-- DEC.ERR is set only by a raise, and cleared only by DEC.START (R32), which DECODE begins with. -/
def Obligations.ErrorFlagSetAndCleared : Prop :=
  ∀ (i : Instr) (s t : State), exec i s = .next t →
    (s.dec.err = false → t.dec.err = true →
      (unitCause i).isSome = true ∨ i = .decStep ∨ i = .decode) ∧
    (s.dec.err = true → t.dec.err = false → i = .decStart ∨ i = .decode)

/-- The only writes of DEC.PC are + 1, + 2 and 0 (44_system.md section 3); DECODE begins with DEC.START,
so it alone can leave another value. -/
def Obligations.ProgramCounterMoves : Prop :=
  ∀ (i : Instr) (s t : State), exec i s = .next t → i ≠ .decode →
    t.dec.pc = s.dec.pc ∨ t.dec.pc = s.dec.pc + 1 ∨ t.dec.pc = s.dec.pc + 2 ∨
      (i = .decStart ∧ t.dec.pc = 0)

/-- The outputs are append-only: a byte already appended is never rewritten but by the STARTs, which
empty the output, and by a raise, which withdraws it (20_memory.md R51, R53). -/
def Obligations.OutputsAreAppendOnly : Prop :=
  ∀ (i : Instr) (s t : State), exec i s = .next t →
    (i ≠ .encStart → i ≠ .encode → s.enc.olen ≤ t.enc.olen ∧
      ∀ a, a < s.enc.olen → memGet t.enc.out a = memGet s.enc.out a) ∧
    (i ≠ .decStart → i ≠ .decode → (t.dec.err = false ∨ (unitCause i = none ∧ i ≠ .decStep)) →
      s.dec.olen ≤ t.dec.olen ∧ ∀ a, a < s.dec.olen → memGet t.dec.out a = memGet s.dec.out a)

/-- A read of an input at or beyond its length is refused (R56), and one below it of a byte the host did
not place is a fault (the model's choice, log 4). -/
def Obligations.ReadsOutsideTheInputStop : Prop :=
  ∀ (e : Enc) (d : Dec) (a : Nat),
    (e.len ≤ a → readInput e a = .refused (.readPastEnd .encIn a)) ∧
    (d.tlen ≤ a → readText d a = .refused (.readPastEnd .decTxt a)) ∧
    (a < e.len → memGet e.inp a = none → readInput e a = .fault (.byteNotPlaced .encIn a)) ∧
    (a < d.tlen → memGet d.txt a = none → readText d a = .fault (.byteNotPlaced .decTxt a))
end

