-- ==== Sys2Proof/Laws/Memory.lean ====
section
/-! SUPPORT. The laws of the buffers: read after write, the canonical form, dense buffers, and the
bytes of a buffer. -/

namespace Sys2Proof.Machine

/-! ### Read after write -/

theorem cellsGet_cellsPut (cs : List Host.Cell) (a a' : Nat) (b : Byte) :
    cellsGet (cellsPut cs a b) a' = if a' = a then some b else cellsGet cs a' := by
  induction cs with
  | nil => simp [cellsPut, cellsGet]
  | cons c rest ih =>
    obtain ⟨k, v⟩ := c
    simp only [cellsPut]
    split
    · simp [cellsGet]
    · split
      · subst k
        by_cases h : a' = a <;> simp [cellsGet, h]
      · simp only [cellsGet, ih]
        by_cases h : a' = k
        · have : a' ≠ a := by omega
          simp [h]
          omega
        · simp [h]

/-- What an index reads as after a write: the byte written there, and every other index as before. -/
theorem memGet_memPut (m : Memory) (a a' : Nat) (b : Byte) :
    memGet (memPut m a b) a' = if a' = a then some b else memGet m a' :=
  cellsGet_cellsPut m.cells a a' b

@[simp] theorem memGet_memPut_same (m : Memory) (a : Nat) (b : Byte) :
    memGet (memPut m a b) a = some b := by simp [memGet_memPut]

theorem memGet_memPut_other {m : Memory} {a a' : Nat} {b : Byte} (h : a' ≠ a) :
    memGet (memPut m a b) a' = memGet m a' := by simp [memGet_memPut, h]

@[simp] theorem memGet_empty (a : Nat) : memGet .empty a = none := rfl

/-! ### The canonical form -/

theorem cellsPut_keys (cs : List Host.Cell) (a : Nat) (b : Byte) (k : Nat)
    (h : k ∈ (cellsPut cs a b).map Prod.fst) : k = a ∨ k ∈ cs.map Prod.fst := by
  induction cs with
  | nil => simpa [cellsPut] using h
  | cons c rest ih =>
    obtain ⟨k', v⟩ := c
    simp only [cellsPut] at h
    split at h
    · simpa using h
    · split at h
      · simp only [List.map_cons, List.mem_cons] at h ⊢
        tauto
      · simp only [List.map_cons, List.mem_cons] at h ⊢
        rcases h with h | h
        · tauto
        · rcases ih h with h | h <;> tauto

/-- A write keeps the canonical form. -/
theorem memPut_wf {m : Memory} (h : m.wf) (a : Nat) (b : Byte) : (memPut m a b).wf := by
  obtain ⟨cs⟩ := m
  simp only [Memory.wf, memPut] at h ⊢
  induction cs with
  | nil => simp [cellsPut]
  | cons c rest ih =>
    obtain ⟨k, v⟩ := c
    simp only [List.map_cons, List.pairwise_cons] at h
    simp only [cellsPut]
    split
    · simp only [List.map_cons, List.pairwise_cons, List.mem_cons]
      refine ⟨?_, h⟩
      rintro x (rfl | hx)
      · assumption
      · have := h.1 x hx
        omega
    · split
      · subst k
        simpa using h
      · simp only [List.map_cons, List.pairwise_cons]
        refine ⟨fun x hx => ?_, ih h.2⟩
        rcases cellsPut_keys rest a b x hx with rfl | hx
        · omega
        · exact h.1 x hx

theorem empty_wf : Memory.empty.wf := List.Pairwise.nil

/-- Writing a run of bytes keeps the canonical form. -/
theorem memPutAll_wf {m : Memory} (h : m.wf) (a : Nat) (bytes : List Byte) :
    (memPutAll m a bytes).wf := by
  induction bytes generalizing m a with
  | nil => exact h
  | cons b rest ih => exact ih (memPut_wf h a b) (a + 1)

theorem bufferOf_wf (bytes : List Byte) : (bufferOf bytes).wf := memPutAll_wf empty_wf 0 bytes

/-- A dense buffer is in canonical form. -/
theorem dense_wf {m : Memory} {n : Nat} (h : m.dense n) : m.wf := by
  unfold Memory.wf
  rw [h]
  exact List.pairwise_lt_range

/-! ### Dense buffers -/

theorem cellsPut_end (cs : List Host.Cell) (a : Nat) (b : Byte)
    (h : ∀ c ∈ cs, c.1 < a) : cellsPut cs a b = cs ++ [(a, b)] := by
  induction cs with
  | nil => rfl
  | cons c rest ih =>
    obtain ⟨k, v⟩ := c
    have hk : k < a := h (k, v) (by simp)
    have h1 : ¬ a < k := by omega
    have h2 : ¬ a = k := by omega
    simp only [cellsPut, h1, h2, if_false, List.cons_append]
    rw [ih fun c hc => h c (by simp [hc])]

theorem dense_lt {m : Memory} {n : Nat} (h : m.dense n) : ∀ c ∈ m.cells, c.1 < n := by
  intro c hc
  have : c.1 ∈ m.cells.map Prod.fst := List.mem_map_of_mem hc
  rw [h] at this
  simpa using this

/-- An append to a dense buffer adds one cell at its end. -/
theorem memPut_cells {m : Memory} {n : Nat} (h : m.dense n) (b : Byte) :
    (memPut m n b).cells = m.cells ++ [(n, b)] :=
  cellsPut_end m.cells n b (dense_lt h)

/-- An append to a dense buffer gives a dense buffer one byte longer. -/
theorem memPut_dense {m : Memory} {n : Nat} (h : m.dense n) (b : Byte) :
    (memPut m n b).dense (n + 1) := by
  simp only [Memory.dense, memPut_cells h, List.map_append, List.range_succ]
  rw [h]
  rfl

theorem empty_dense : Memory.empty.dense 0 := rfl

theorem memPutAll_dense {m : Memory} {n : Nat} (h : m.dense n) (bytes : List Byte) :
    (memPutAll m n bytes).dense (n + bytes.length) := by
  induction bytes generalizing m n with
  | nil => exact h
  | cons b rest ih =>
    have := ih (memPut_dense h b)
    simpa [memPutAll, Nat.add_assoc, Nat.add_comm 1] using this

/-- A buffer of the given bytes is dense, of their number. -/
theorem bufferOf_dense (bytes : List Byte) : (bufferOf bytes).dense bytes.length := by
  simpa [bufferOf] using memPutAll_dense empty_dense bytes

/-- What an index reads as after a run of bytes was written. -/
theorem memGet_memPutAll (m : Memory) (a : Nat) (bytes : List Byte) (a' : Nat) :
    memGet (memPutAll m a bytes) a' =
      if a ≤ a' ∧ a' < a + bytes.length then bytes[a' - a]? else memGet m a' := by
  induction bytes generalizing m a with
  | nil => simp [memPutAll]
  | cons b rest ih =>
    simp only [memPutAll, ih, memGet_memPut, List.length_cons]
    by_cases h1 : a' = a
    · subst h1
      have : ¬ (a' + 1 ≤ a') := by omega
      simp [this]
    · by_cases h2 : a + 1 ≤ a' ∧ a' < a + 1 + rest.length
      · have h3 : a ≤ a' ∧ a' < a + (rest.length + 1) := by omega
        have h4 : a' - a = (a' - (a + 1)) + 1 := by omega
        simp [h2, h3, h4]
      · have h3 : ¬ (a ≤ a' ∧ a' < a + (rest.length + 1)) := by omega
        rw [if_neg h2, if_neg h1, if_neg h3]

/-- A buffer of the given bytes reads as them, and as no value beyond them. -/
theorem memGet_bufferOf (bytes : List Byte) (a : Nat) : memGet (bufferOf bytes) a = bytes[a]? := by
  simp only [bufferOf, memGet_memPutAll, Nat.zero_add, Nat.zero_le, true_and, Nat.sub_zero,
    memGet_empty]
  split
  · rfl
  · next h => simp; omega

theorem cellsGet_isSome (cs : List Host.Cell) (a : Nat) :
    (cellsGet cs a).isSome ↔ a ∈ cs.map Prod.fst := by
  induction cs with
  | nil => simp [cellsGet]
  | cons c rest ih =>
    obtain ⟨k, v⟩ := c
    by_cases h : a = k <;> simp [cellsGet, h]
    simpa using ih

/-- A dense buffer reads as a byte at every index below its length. -/
theorem dense_get {m : Memory} {n a : Nat} (h : m.dense n) (ha : a < n) :
    ∃ b, memGet m a = some b := by
  have : (memGet m a).isSome := (cellsGet_isSome m.cells a).2 (by rw [h]; simpa using ha)
  exact Option.isSome_iff_exists.1 this

/-- A dense buffer reads as no value at and beyond its length. -/
theorem dense_get_none {m : Memory} {n a : Nat} (h : m.dense n) (ha : n ≤ a) :
    memGet m a = none := by
  by_contra hne
  have : (memGet m a).isSome := Option.isSome_iff_ne_none.2 hne
  have := (cellsGet_isSome m.cells a).1 this
  rw [h] at this
  simp at this
  omega

/-! ### The bytes of a buffer -/

@[simp] theorem bufferBytes_zero (m : Memory) : bufferBytes m 0 = [] := rfl

/-- The bytes of a buffer with one more index. -/
theorem bufferBytes_succ (m : Memory) (n : Nat) :
    bufferBytes m (n + 1) = bufferBytes m n ++ (memGet m n).toList := by
  simp only [bufferBytes, List.range_succ, List.filterMap_append]
  cases h : memGet m n <;> simp [h]

theorem bufferBytes_congr {m m' : Memory} {n : Nat}
    (h : ∀ a, a < n → memGet m a = memGet m' a) : bufferBytes m n = bufferBytes m' n := by
  unfold bufferBytes
  exact List.filterMap_congr fun a ha => h a (by simpa using ha)

/-- An append adds its byte at the end of the bytes. -/
theorem bufferBytes_memPut (m : Memory) (n : Nat) (b : Byte) :
    bufferBytes (memPut m n b) (n + 1) = bufferBytes m n ++ [b] := by
  rw [bufferBytes_succ, memGet_memPut_same]
  rw [bufferBytes_congr (m' := m) fun a ha => memGet_memPut_other (by omega)]
  rfl

/-- The bytes of a buffer of the given bytes are those bytes. -/
theorem bufferBytes_bufferOf (bytes : List Byte) : bufferBytes (bufferOf bytes) bytes.length = bytes := by
  unfold bufferBytes
  simp only [memGet_bufferOf]
  induction bytes using List.reverseRecOn with
  | nil => rfl
  | append_singleton l b ih =>
    simp only [List.length_append, List.length_singleton, List.range_succ, List.filterMap_append]
    have : List.filterMap (fun a => (l ++ [b])[a]?) (List.range l.length) =
        List.filterMap (fun a => l[a]?) (List.range l.length) :=
      List.filterMap_congr fun a ha => by
        rw [List.getElem?_append_left (by simpa using ha)]
    rw [this, ih]
    simp

end Sys2Proof.Machine
end

