-- ==== Sys2Proof/Laws/State.lean ====
section
/-! SUPPORT. What each update of the state and of an engine leaves of every field: one lemma per field
per update. -/

namespace Sys2Proof.Machine

/-! ### The state -/

@[simp] theorem setEnc_enc (s : State) (e : Enc) : (setEnc s e).enc = e := rfl
@[simp] theorem setEnc_dec (s : State) (e : Enc) : (setEnc s e).dec = s.dec := rfl
@[simp] theorem setEnc_strict (s : State) (e : Enc) : (setEnc s e).strict = s.strict := rfl
@[simp] theorem setEnc_script (s : State) (e : Enc) : (setEnc s e).script = s.script := rfl

@[simp] theorem setDec_enc (s : State) (d : Dec) : (setDec s d).enc = s.enc := rfl
@[simp] theorem setDec_dec (s : State) (d : Dec) : (setDec s d).dec = d := rfl
@[simp] theorem setDec_strict (s : State) (d : Dec) : (setDec s d).strict = s.strict := rfl
@[simp] theorem setDec_script (s : State) (d : Dec) : (setDec s d).script = s.script := rfl

@[simp] theorem setScript_enc (s : State) (cs : List HostCmd) : (setScript s cs).enc = s.enc := rfl
@[simp] theorem setScript_dec (s : State) (cs : List HostCmd) : (setScript s cs).dec = s.dec := rfl
@[simp] theorem setScript_strict (s : State) (cs : List HostCmd) : (setScript s cs).strict = s.strict := rfl
@[simp] theorem setScript_script (s : State) (cs : List HostCmd) : (setScript s cs).script = cs := rfl

/-- Two replacements of the encode engine are the later one. -/
@[simp] theorem setEnc_setEnc (s : State) (e e' : Enc) : setEnc (setEnc s e) e' = setEnc s e' := rfl

/-- Two replacements of the decode engine are the later one. -/
@[simp] theorem setDec_setDec (s : State) (d d' : Dec) : setDec (setDec s d) d' = setDec s d' := rfl

/-- Replacing the encode engine by itself changes nothing. -/
@[simp] theorem setEnc_self (s : State) : setEnc s s.enc = s := rfl

/-- Replacing the decode engine by itself changes nothing. -/
@[simp] theorem setDec_self (s : State) : setDec s s.dec = s := rfl

/-- The engines are replaced independently (R20). -/
theorem setDec_setEnc (s : State) (e : Enc) (d : Dec) :
    setDec (setEnc s e) d = setEnc (setDec s d) e := rfl

/-! ### The encode engine -/

@[simp] theorem setEncRet_bi (e : Enc) (r : EncReturn) : (setEncRet e r).bi = e.bi := rfl
@[simp] theorem setEncRet_bo (e : Enc) (r : EncReturn) : (setEncRet e r).bo = e.bo := rfl
@[simp] theorem setEncRet_len (e : Enc) (r : EncReturn) : (setEncRet e r).len = e.len := rfl
@[simp] theorem setEncRet_done (e : Enc) (r : EncReturn) : (setEncRet e r).done = e.done := rfl
@[simp] theorem setEncRet_inp (e : Enc) (r : EncReturn) : (setEncRet e r).inp = e.inp := rfl
@[simp] theorem setEncRet_out (e : Enc) (r : EncReturn) : (setEncRet e r).out = e.out := rfl
@[simp] theorem setEncRet_olen (e : Enc) (r : EncReturn) : (setEncRet e r).olen = e.olen := rfl
@[simp] theorem setEncRet_ret (e : Enc) (r : EncReturn) : (setEncRet e r).ret = r := rfl

@[simp] theorem encAppend_bi (b : Byte) (e : Enc) : (encAppend b e).bi = e.bi := rfl
@[simp] theorem encAppend_bo (b : Byte) (e : Enc) : (encAppend b e).bo = e.bo := rfl
@[simp] theorem encAppend_len (b : Byte) (e : Enc) : (encAppend b e).len = e.len := rfl
@[simp] theorem encAppend_done (b : Byte) (e : Enc) : (encAppend b e).done = e.done := rfl
@[simp] theorem encAppend_inp (b : Byte) (e : Enc) : (encAppend b e).inp = e.inp := rfl
@[simp] theorem encAppend_out (b : Byte) (e : Enc) : (encAppend b e).out = memPut e.out e.olen b := rfl
@[simp] theorem encAppend_olen (b : Byte) (e : Enc) : (encAppend b e).olen = e.olen + 1 := rfl
@[simp] theorem encAppend_ret (b : Byte) (e : Enc) : (encAppend b e).ret = e.ret := rfl

@[simp] theorem encClear_bi (e : Enc) : (encClear e).bi = 0 := rfl
@[simp] theorem encClear_bo (e : Enc) : (encClear e).bo = 0#3 := rfl
@[simp] theorem encClear_len (e : Enc) : (encClear e).len = e.len := rfl
@[simp] theorem encClear_done (e : Enc) : (encClear e).done = false := rfl
@[simp] theorem encClear_inp (e : Enc) : (encClear e).inp = e.inp := rfl
@[simp] theorem encClear_out (e : Enc) : (encClear e).out = .empty := rfl
@[simp] theorem encClear_olen (e : Enc) : (encClear e).olen = 0 := rfl
@[simp] theorem encClear_ret (e : Enc) : (encClear e).ret = e.ret := rfl

@[simp] theorem encSetDone_bi (e : Enc) : (encSetDone e).bi = e.bi := rfl
@[simp] theorem encSetDone_bo (e : Enc) : (encSetDone e).bo = e.bo := rfl
@[simp] theorem encSetDone_len (e : Enc) : (encSetDone e).len = e.len := rfl
@[simp] theorem encSetDone_done (e : Enc) : (encSetDone e).done = true := rfl
@[simp] theorem encSetDone_inp (e : Enc) : (encSetDone e).inp = e.inp := rfl
@[simp] theorem encSetDone_out (e : Enc) : (encSetDone e).out = e.out := rfl
@[simp] theorem encSetDone_olen (e : Enc) : (encSetDone e).olen = e.olen := rfl
@[simp] theorem encSetDone_ret (e : Enc) : (encSetDone e).ret = e.ret := rfl

/-! ### The decode engine -/

@[simp] theorem setDecRet_pc (d : Dec) (r : DecReturn) : (setDecRet d r).pc = d.pc := rfl
@[simp] theorem setDecRet_ac (d : Dec) (r : DecReturn) : (setDecRet d r).ac = d.ac := rfl
@[simp] theorem setDecRet_ab (d : Dec) (r : DecReturn) : (setDecRet d r).ab = d.ab := rfl
@[simp] theorem setDecRet_tlen (d : Dec) (r : DecReturn) : (setDecRet d r).tlen = d.tlen := rfl
@[simp] theorem setDecRet_done (d : Dec) (r : DecReturn) : (setDecRet d r).done = d.done := rfl
@[simp] theorem setDecRet_err (d : Dec) (r : DecReturn) : (setDecRet d r).err = d.err := rfl
@[simp] theorem setDecRet_cause (d : Dec) (r : DecReturn) : (setDecRet d r).cause = d.cause := rfl
@[simp] theorem setDecRet_epc (d : Dec) (r : DecReturn) : (setDecRet d r).epc = d.epc := rfl
@[simp] theorem setDecRet_txt (d : Dec) (r : DecReturn) : (setDecRet d r).txt = d.txt := rfl
@[simp] theorem setDecRet_out (d : Dec) (r : DecReturn) : (setDecRet d r).out = d.out := rfl
@[simp] theorem setDecRet_olen (d : Dec) (r : DecReturn) : (setDecRet d r).olen = d.olen := rfl
@[simp] theorem setDecRet_ret (d : Dec) (r : DecReturn) : (setDecRet d r).ret = r := rfl

@[simp] theorem decAppend_pc (b : Byte) (d : Dec) : (decAppend b d).pc = d.pc := rfl
@[simp] theorem decAppend_ac (b : Byte) (d : Dec) : (decAppend b d).ac = d.ac := rfl
@[simp] theorem decAppend_ab (b : Byte) (d : Dec) : (decAppend b d).ab = d.ab := rfl
@[simp] theorem decAppend_tlen (b : Byte) (d : Dec) : (decAppend b d).tlen = d.tlen := rfl
@[simp] theorem decAppend_done (b : Byte) (d : Dec) : (decAppend b d).done = d.done := rfl
@[simp] theorem decAppend_err (b : Byte) (d : Dec) : (decAppend b d).err = d.err := rfl
@[simp] theorem decAppend_cause (b : Byte) (d : Dec) : (decAppend b d).cause = d.cause := rfl
@[simp] theorem decAppend_epc (b : Byte) (d : Dec) : (decAppend b d).epc = d.epc := rfl
@[simp] theorem decAppend_txt (b : Byte) (d : Dec) : (decAppend b d).txt = d.txt := rfl
@[simp] theorem decAppend_out (b : Byte) (d : Dec) : (decAppend b d).out = memPut d.out d.olen b := rfl
@[simp] theorem decAppend_olen (b : Byte) (d : Dec) : (decAppend b d).olen = d.olen + 1 := rfl
@[simp] theorem decAppend_ret (b : Byte) (d : Dec) : (decAppend b d).ret = d.ret := rfl

@[simp] theorem decClear_pc (d : Dec) : (decClear d).pc = 0 := rfl
@[simp] theorem decClear_ac (d : Dec) : (decClear d).ac = 0#8 := rfl
@[simp] theorem decClear_ab (d : Dec) : (decClear d).ab = 0#3 := rfl
@[simp] theorem decClear_tlen (d : Dec) : (decClear d).tlen = d.tlen := rfl
@[simp] theorem decClear_done (d : Dec) : (decClear d).done = false := rfl
@[simp] theorem decClear_err (d : Dec) : (decClear d).err = false := rfl
@[simp] theorem decClear_cause (d : Dec) : (decClear d).cause = 0#3 := rfl
@[simp] theorem decClear_epc (d : Dec) : (decClear d).epc = 0 := rfl
@[simp] theorem decClear_txt (d : Dec) : (decClear d).txt = d.txt := rfl
@[simp] theorem decClear_out (d : Dec) : (decClear d).out = .empty := rfl
@[simp] theorem decClear_olen (d : Dec) : (decClear d).olen = 0 := rfl
@[simp] theorem decClear_ret (d : Dec) : (decClear d).ret = d.ret := rfl

@[simp] theorem decSetDone_pc (d : Dec) : (decSetDone d).pc = d.pc := rfl
@[simp] theorem decSetDone_ac (d : Dec) : (decSetDone d).ac = d.ac := rfl
@[simp] theorem decSetDone_ab (d : Dec) : (decSetDone d).ab = d.ab := rfl
@[simp] theorem decSetDone_tlen (d : Dec) : (decSetDone d).tlen = d.tlen := rfl
@[simp] theorem decSetDone_done (d : Dec) : (decSetDone d).done = true := rfl
@[simp] theorem decSetDone_err (d : Dec) : (decSetDone d).err = d.err := rfl
@[simp] theorem decSetDone_cause (d : Dec) : (decSetDone d).cause = d.cause := rfl
@[simp] theorem decSetDone_epc (d : Dec) : (decSetDone d).epc = d.epc := rfl
@[simp] theorem decSetDone_txt (d : Dec) : (decSetDone d).txt = d.txt := rfl
@[simp] theorem decSetDone_out (d : Dec) : (decSetDone d).out = d.out := rfl
@[simp] theorem decSetDone_olen (d : Dec) : (decSetDone d).olen = d.olen := rfl
@[simp] theorem decSetDone_ret (d : Dec) : (decSetDone d).ret = d.ret := rfl

@[simp] theorem advancePc_pc (n : Nat) (d : Dec) : (advancePc n d).pc = d.pc + n := rfl
@[simp] theorem advancePc_ac (n : Nat) (d : Dec) : (advancePc n d).ac = d.ac := rfl
@[simp] theorem advancePc_ab (n : Nat) (d : Dec) : (advancePc n d).ab = d.ab := rfl
@[simp] theorem advancePc_tlen (n : Nat) (d : Dec) : (advancePc n d).tlen = d.tlen := rfl
@[simp] theorem advancePc_done (n : Nat) (d : Dec) : (advancePc n d).done = d.done := rfl
@[simp] theorem advancePc_err (n : Nat) (d : Dec) : (advancePc n d).err = d.err := rfl
@[simp] theorem advancePc_cause (n : Nat) (d : Dec) : (advancePc n d).cause = d.cause := rfl
@[simp] theorem advancePc_epc (n : Nat) (d : Dec) : (advancePc n d).epc = d.epc := rfl
@[simp] theorem advancePc_txt (n : Nat) (d : Dec) : (advancePc n d).txt = d.txt := rfl
@[simp] theorem advancePc_out (n : Nat) (d : Dec) : (advancePc n d).out = d.out := rfl
@[simp] theorem advancePc_olen (n : Nat) (d : Dec) : (advancePc n d).olen = d.olen := rfl
@[simp] theorem advancePc_ret (n : Nat) (d : Dec) : (advancePc n d).ret = d.ret := rfl

@[simp] theorem raise_pc (c : Cause) (i : Nat) (d : Dec) : (raiseInvalidSequence c i d).pc = d.pc := rfl
@[simp] theorem raise_ac (c : Cause) (i : Nat) (d : Dec) : (raiseInvalidSequence c i d).ac = d.ac := rfl
@[simp] theorem raise_ab (c : Cause) (i : Nat) (d : Dec) : (raiseInvalidSequence c i d).ab = d.ab := rfl
@[simp] theorem raise_tlen (c : Cause) (i : Nat) (d : Dec) : (raiseInvalidSequence c i d).tlen = d.tlen := rfl
@[simp] theorem raise_done (c : Cause) (i : Nat) (d : Dec) : (raiseInvalidSequence c i d).done = true := rfl
@[simp] theorem raise_err (c : Cause) (i : Nat) (d : Dec) : (raiseInvalidSequence c i d).err = true := rfl
@[simp] theorem raise_cause (c : Cause) (i : Nat) (d : Dec) : (raiseInvalidSequence c i d).cause = causeCode c := rfl
@[simp] theorem raise_epc (c : Cause) (i : Nat) (d : Dec) : (raiseInvalidSequence c i d).epc = i := rfl
@[simp] theorem raise_txt (c : Cause) (i : Nat) (d : Dec) : (raiseInvalidSequence c i d).txt = d.txt := rfl
@[simp] theorem raise_out (c : Cause) (i : Nat) (d : Dec) : (raiseInvalidSequence c i d).out = .empty := rfl
@[simp] theorem raise_olen (c : Cause) (i : Nat) (d : Dec) : (raiseInvalidSequence c i d).olen = 0 := rfl
@[simp] theorem raise_ret (c : Cause) (i : Nat) (d : Dec) : (raiseInvalidSequence c i d).ret = d.ret := rfl

/-! ### What the host places -/

@[simp] theorem placeInput_len (s : State) (bs : List Byte) : (placeInput s bs).enc.len = bs.length := rfl
@[simp] theorem placeInput_inp (s : State) (bs : List Byte) :
    (placeInput s bs).enc.inp = bufferOf bs := rfl
@[simp] theorem placeInput_dec (s : State) (bs : List Byte) : (placeInput s bs).dec = s.dec := rfl
@[simp] theorem placeInput_strict (s : State) (bs : List Byte) :
    (placeInput s bs).strict = s.strict := rfl
@[simp] theorem placeText_tlen (s : State) (bs : List Byte) :
    (placeText s bs).dec.tlen = bs.length := rfl
@[simp] theorem placeText_txt (s : State) (bs : List Byte) :
    (placeText s bs).dec.txt = bufferOf bs := rfl
@[simp] theorem placeText_enc (s : State) (bs : List Byte) : (placeText s bs).enc = s.enc := rfl
@[simp] theorem placeText_strict (s : State) (bs : List Byte) :
    (placeText s bs).strict = s.strict := rfl

end Sys2Proof.Machine
end

