-- ==== Sys2Proof/Laws/Ops.lean ====
section
/-! SUPPORT. For each shared operation, what it can do, said once: when it completes and with what, and
what it can have done when it answers a next state. -/

namespace Sys2Proof.Machine

/-! ### Outcomes -/

@[simp] theorem andThen_next {α β : Type} (a : α) (f : α → Host.Outcome β Fault Refusal) :
    andThen (.next a) f = f a := rfl

@[simp] theorem andThen_fault {α β : Type} (r : Fault) (f : α → Host.Outcome β Fault Refusal) :
    andThen (.fault r) f = .fault r := rfl

@[simp] theorem andThen_refused {α β : Type} (r : Refusal)
    (f : α → Host.Outcome β Fault Refusal) : andThen (.refused r) f = .refused r := rfl

/-- A sequence answers next exactly where its first part does and its second does from there. -/
theorem andThen_eq_next {α β : Type} {x : Host.Outcome α Fault Refusal}
    {f : α → Host.Outcome β Fault Refusal} {b : β} :
    andThen x f = .next b ↔ ∃ a, x = .next a ∧ f a = .next b := by
  cases x <;> simp

/-! ### Reads -/

/-- MemRead answers a byte exactly below the length and where the host placed one (R56). -/
theorem memRead_eq_next {space : Space} {m : Memory} {len a : Nat} {b : Byte} :
    memRead space m len a = .next b ↔ a < len ∧ memGet m a = some b := by
  unfold memRead
  split
  · cases h : memGet m a <;> simp_all
  · simp_all

/-- MemRead of a dense buffer completes below its length. -/
theorem memRead_dense {space : Space} {m : Memory} {len a : Nat} (h : m.dense len) (ha : a < len) :
    ∃ b, memGet m a = some b ∧ memRead space m len a = .next b := by
  obtain ⟨b, hb⟩ := dense_get h ha
  exact ⟨b, hb, memRead_eq_next.2 ⟨ha, hb⟩⟩

/-! ### The cursor and the extractor -/

@[simp] theorem cursorAt_len (e : Enc) (p : Nat) : (cursorAt e p).len = e.len := rfl
@[simp] theorem cursorAt_done (e : Enc) (p : Nat) : (cursorAt e p).done = e.done := rfl
@[simp] theorem cursorAt_inp (e : Enc) (p : Nat) : (cursorAt e p).inp = e.inp := rfl
@[simp] theorem cursorAt_out (e : Enc) (p : Nat) : (cursorAt e p).out = e.out := rfl
@[simp] theorem cursorAt_olen (e : Enc) (p : Nat) : (cursorAt e p).olen = e.olen := rfl
@[simp] theorem cursorAt_ret (e : Enc) (p : Nat) : (cursorAt e p).ret = e.ret := rfl
@[simp] theorem cursorAt_bi (e : Enc) (p : Nat) : (cursorAt e p).bi = p / 8 := rfl

@[simp] theorem cursorAt_bo (e : Enc) (p : Nat) : (cursorAt e p).bo.toNat = p % 8 := by
  simp [cursorAt]

@[simp] theorem cursorBit_cursorAt (e : Enc) (p : Nat) : cursorBit (cursorAt e p) = p := by
  simp [cursorBit]
  omega

@[simp] theorem cursorAt_cursorAt (e : Enc) (p q : Nat) :
    cursorAt (cursorAt e p) q = cursorAt e q := rfl

/-- The engine is at the position of its own cursor. -/
@[simp] theorem cursorAt_cursorBit (e : Enc) : cursorAt e (cursorBit e) = e := by
  have h : e.bo.toNat < 8 := e.bo.isLt
  obtain ⟨bi, bo, len, done, inp, out, olen, ret⟩ := e
  simp only [cursorAt, cursorBit, Enc.mk.injEq, and_true] at h ⊢
  refine ⟨by omega, ?_⟩
  apply BitVec.eq_of_toNat_eq
  simp
  omega

/-- Exhaustion is the position reaching the end of the stream (R25). -/
theorem exhausted_iff (e : Enc) : encExhausted e = true ↔ 8 * e.len ≤ cursorBit e := by
  have h : e.bo.toNat < 8 := e.bo.isLt
  simp only [encExhausted, cursorBit, decide_eq_true_eq]
  omega

/-- The chunk that two neighbouring bytes give at a bit offset: the unconsumed bits of the first, then
the top bits of the second (R110, R113). -/
def joinBytes (o : Nat) (cur nxt : Byte) : Chunk :=
  ((cur <<< o) >>> 1).setWidth 7 ||| (nxt >>> (9 - o)).setWidth 7

/-- A byte of the input, 0 beyond its end (R10). -/
def inputByte (e : Enc) (a : Nat) : Byte :=
  if a < e.len then (memGet e.inp a).getD 0#8 else 0#8

/-- GET7 at exhaustion returns None and leaves the engine as it is (R110). -/
theorem extract_exhausted {e : Enc} (h : e.len ≤ e.bi) : extract e = .next (none, e) := by
  simp [extract, encExhausted, h]

theorem joinBytes_zero (o : Nat) (cur : Byte) :
    joinBytes o cur 0#8 = ((cur <<< o) >>> 1).setWidth 7 := by simp [joinBytes]

/-- GET7 within a placed input returns the chunk at the cursor and moves the cursor by 7 bits
(R110). -/
theorem extract_within {e : Enc} (h : e.bi < e.len) (hd : e.inp.dense e.len) :
    extract e = .next (some (joinBytes e.bo.toNat (inputByte e e.bi) (inputByte e (e.bi + 1))),
      cursorAt e (cursorBit e + 7)) := by
  obtain ⟨cur, hcur, hread⟩ := memRead_dense (space := .encIn) hd h
  have hlt : e.bo.toNat < 8 := e.bo.isLt
  have hcur' : inputByte e e.bi = cur := by simp [inputByte, h, hcur]
  have hne : ¬ e.len ≤ e.bi := by omega
  simp only [extract, encExhausted, hne, decide_false, readInput, hread, andThen_next, hcur',
    Bool.false_eq_true, if_false]
  by_cases h0 : e.bo.toNat = 0
  · have : (inputByte e (e.bi + 1)) >>> 9 = 0#8 := by
      apply BitVec.eq_of_toNat_eq
      simp [Nat.shiftRight_eq_div_pow]
      have := (inputByte e (e.bi + 1)).isLt
      omega
    have hq : (8 * e.bi + 0 + 7) / 8 = e.bi := by omega
    have hr : (8 * e.bi + 0 + 7) % 8 = 7 := by omega
    simp only [h0, joinBytes, this, cursorAt, cursorBit, hq, hr]
    simp
  · have h1 : ¬ e.bo.toNat + 7 < 8 := by omega
    have hq : (8 * e.bi + e.bo.toNat + 7) / 8 = e.bi + 1 := by omega
    have hr : (8 * e.bi + e.bo.toNat + 7) % 8 = e.bo.toNat + 7 - 8 := by omega
    have hs : 8 - (e.bo.toNat - 1) = 9 - e.bo.toNat := by omega
    simp only [h1, if_false, cursorAt, cursorBit, hq, hr]
    by_cases h2 : e.len ≤ e.bi + 1
    · have : inputByte e (e.bi + 1) = 0#8 := by simp [inputByte]; omega
      simp [h2, this, joinBytes]
    · obtain ⟨nxt, hnxt, hread'⟩ := memRead_dense (space := .encIn) hd (by omega : e.bi + 1 < e.len)
      have : inputByte e (e.bi + 1) = nxt := by
        have : e.bi + 1 < e.len := by omega
        simp [inputByte, this, hnxt]
      simp [h2, hread', this, joinBytes, hs]

/-- All that GET7 can have done when it answers: nothing at exhaustion, else one chunk and the cursor
7 bits on; it writes nothing but the cursor. -/
theorem extract_cases {e e' : Enc} {r : Option Chunk} (h : extract e = .next (r, e')) :
    (e.len ≤ e.bi ∧ r = none ∧ e' = e) ∨
    (e.bi < e.len ∧ (∃ c, r = some c) ∧ e' = cursorAt e (cursorBit e + 7)) := by
  have hlt : e.bo.toNat < 8 := e.bo.isLt
  by_cases hx : e.len ≤ e.bi
  · rw [extract_exhausted hx] at h
    simp only [Host.Outcome.next.injEq, Prod.mk.injEq] at h
    exact .inl ⟨hx, h.1.symm, h.2.symm⟩
  · refine .inr ⟨by omega, ?_⟩
    simp only [extract, encExhausted, hx, decide_false, Bool.false_eq_true, if_false,
      andThen_eq_next] at h
    obtain ⟨cur, -, h⟩ := h
    by_cases h0 : e.bo.toNat = 0
    · have hq : (8 * e.bi + 0 + 7) / 8 = e.bi := by omega
      have hr : (8 * e.bi + 0 + 7) % 8 = 7 := by omega
      simp only [h0, Nat.zero_add, Nat.lt_add_one, if_true, Host.Outcome.next.injEq,
        Prod.mk.injEq] at h
      refine ⟨⟨_, h.1.symm⟩, ?_⟩
      rw [← h.2]
      simp only [cursorAt, cursorBit, h0, hq, hr]
    · have h1 : ¬ e.bo.toNat + 7 < 8 := by omega
      have hq : (8 * e.bi + e.bo.toNat + 7) / 8 = e.bi + 1 := by omega
      have hr : (8 * e.bi + e.bo.toNat + 7) % 8 = e.bo.toNat + 7 - 8 := by omega
      simp only [h1, if_false] at h
      simp only [cursorAt, cursorBit, hq, hr]
      by_cases h2 : e.len ≤ e.bi + 1
      · simp only [h2, decide_true, if_true, Host.Outcome.next.injEq, Prod.mk.injEq] at h
        exact ⟨⟨_, h.1.symm⟩, h.2.symm⟩
      · simp only [h2, decide_false, Bool.false_eq_true, if_false, andThen_eq_next] at h
        obtain ⟨nxt, -, h⟩ := h
        simp only [Host.Outcome.next.injEq, Prod.mk.injEq] at h
        exact ⟨⟨_, h.1.symm⟩, h.2.symm⟩

/-! ### The classifier -/

/-- The index of a value and the value of an index are inverse (R134). -/
theorem indexOf_eq_some {v : Chunk} {k : Index} : indexOf v = some k ↔ Config.dtab[k] = v := by
  revert v k
  decide

theorem inDtab_eq (v : Chunk) : Config.inDtab v = (indexOf v).isSome := by
  revert v
  decide

/-- CLASS answers dangerous with k exactly on DTAB[k] (R130). -/
theorem classOf_dangerous {c : Chunk} {k : Index} :
    classOf c = .dangerous k ↔ Config.dtab[k] = c := by
  rw [← indexOf_eq_some]
  unfold classOf
  cases indexOf c <;> simp

/-- CLASS answers safe exactly off DTAB (R130). -/
theorem classOf_safe {c : Chunk} : classOf c = .safe ↔ Config.inDtab c = false := by
  rw [inDtab_eq]
  unfold classOf
  cases indexOf c <;> simp

/-- DVAL of an illegal index is its table entry (R133). -/
@[simp] theorem tableEntry_index (k : Index) : tableEntry (indexField k) = .next Config.dtab[k] := by
  revert k
  simp [tableEntry, indexField, Fin.forall_fin_succ, Config.dtab]

/-! ### The packer -/

@[simp] theorem emitLiteral_eq (c : Chunk) (e : Enc) :
    emitLiteral c e = encAppend (c.setWidth 8) e := rfl

@[simp] theorem emitEscape_eq (k : IndexField) (p : Chunk) (e : Enc) :
    emitEscape k p e = encAppend (escByte2 p) (encAppend (escByte1 k p) e) := rfl

/-- All that ENC.STEP can have done when it answers (R148). -/
theorem encodeStep_cases {e e' : Enc} (h : encodeStep e = .next e') :
    (e.done = true ∧ e' = e) ∨
    (e.done = false ∧ e.len ≤ e.bi ∧ e' = encSetDone e) ∨
    (e.done = false ∧ e.bi < e.len ∧ ∃ c, classOf c = .safe ∧
      e' = emitLiteral c (cursorAt e (cursorBit e + 7))) ∨
    (e.done = false ∧ e.bi < e.len ∧ cursorBit e + 7 < 8 * e.len ∧ ∃ k n,
      e' = emitEscape (indexField k) n (cursorAt e (cursorBit e + 14))) ∨
    (e.done = false ∧ e.bi < e.len ∧ 8 * e.len ≤ cursorBit e + 7 ∧ ∃ c, Config.inDtab c = true ∧
      e' = emitEscape 7#3 c (cursorAt e (cursorBit e + 7))) := by
  unfold encodeStep at h
  cases hd : e.done with
  | true => simp [hd] at h; exact .inl ⟨rfl, h.symm⟩
  | false =>
    simp only [hd, Bool.false_eq_true, if_false, andThen_eq_next] at h
    obtain ⟨⟨r, e1⟩, hx, h⟩ := h
    rcases extract_cases hx with ⟨hb, rfl, rfl⟩ | ⟨hb, ⟨c, rfl⟩, rfl⟩
    · simp only [Host.Outcome.next.injEq] at h
      exact .inr (.inl ⟨rfl, hb, h.symm⟩)
    · simp only at h
      cases hc : classOf c with
      | safe =>
        simp only [hc, Host.Outcome.next.injEq] at h
        exact .inr (.inr (.inl ⟨rfl, hb, c, hc, h.symm⟩))
      | dangerous k =>
        simp only [hc, andThen_eq_next] at h
        obtain ⟨⟨r', e2⟩, hx', h⟩ := h
        rcases extract_cases hx' with ⟨hb', rfl, rfl⟩ | ⟨hb', ⟨n, rfl⟩, rfl⟩
        · simp only [Host.Outcome.next.injEq] at h
          simp only [cursorAt_len, cursorAt_bi] at hb'
          refine .inr (.inr (.inr (.inr ⟨rfl, hb, by omega, c, ?_, h.symm⟩)))
          rw [inDtab_eq, indexOf_eq_some.2 (classOf_dangerous.1 hc)]
          rfl
        · simp only [Host.Outcome.next.injEq] at h
          simp only [cursorAt_len, cursorAt_bi] at hb'
          refine .inr (.inr (.inr (.inl ⟨rfl, hb, by omega, k, n, ?_⟩)))
          rw [← h]
          simp [Nat.add_assoc]

/-- ENC.STEP completes with a placed input (R148). -/
theorem encodeStep_completes {e : Enc} (hd : e.inp.dense e.len) : ∃ e', encodeStep e = .next e' := by
  have hx : ∀ e : Enc, e.inp.dense e.len → ∃ r e', extract e = .next (r, e') ∧
      e'.inp = e.inp ∧ e'.len = e.len := by
    intro e hd
    by_cases hb : e.len ≤ e.bi
    · exact ⟨_, _, extract_exhausted hb, rfl, rfl⟩
    · exact ⟨_, _, extract_within (by omega) hd, rfl, rfl⟩
  unfold encodeStep
  cases hdone : e.done with
  | true => simp
  | false =>
    obtain ⟨r, e1, h1, hi, hl⟩ := hx e hd
    simp only [h1, andThen_next, Bool.false_eq_true, if_false]
    cases r with
    | none => simp
    | some c =>
      cases hc : classOf c with
      | safe => simp [hc]
      | dangerous k =>
        obtain ⟨r', e2, h2, -, -⟩ := hx e1 (by rw [hi, hl]; exact hd)
        cases r' <;> simp [hc, h2]

/-! ### The unpacker -/

/-- PUSH7 writes the accumulator and the output, and nothing else (R39, R160). -/
theorem pushChunk_frame (v : Chunk) (d : Dec) :
    (pushChunk v d).2.pc = d.pc ∧ (pushChunk v d).2.tlen = d.tlen ∧
    (pushChunk v d).2.done = d.done ∧ (pushChunk v d).2.err = d.err ∧
    (pushChunk v d).2.cause = d.cause ∧ (pushChunk v d).2.epc = d.epc ∧
    (pushChunk v d).2.txt = d.txt ∧ (pushChunk v d).2.ret = d.ret := by
  simp only [pushChunk]
  split <;> simp

/-- All that PUSH7 can do (R160): from an empty accumulator it holds the chunk, otherwise it emits one
byte and holds the rest. -/
theorem pushChunk_cases (v : Chunk) (d : Dec) :
    (d.ab = 0#3 ∧ pushChunk v d = (none, { d with ac := v.setWidth 8 <<< 1, ab := 7#3 })) ∨
    (d.ab ≠ 0#3 ∧ ∃ byte, byte = d.ac ||| (v >>> (d.ab.toNat - 1)).setWidth 8 ∧
      pushChunk v d = (some byte, { d with
        ac := v.setWidth 8 <<< (9 - d.ab.toNat)
        ab := BitVec.ofNat 3 (d.ab.toNat - 1)
        out := memPut d.out d.olen byte
        olen := d.olen + 1 })) := by
  by_cases h : d.ab = 0#3
  · exact .inl ⟨h, by simp [pushChunk, h]⟩
  · have h' : ¬ d.ab.toNat = 0 := fun h0 => h (BitVec.eq_of_toNat_eq (by simpa using h0))
    exact .inr ⟨h, _, rfl, by simp [pushChunk, h', decAppend]⟩

/-- ESC(k, p) always completes: two pushes and two bytes (R166). -/
theorem unitEscape_eq (k : Index) (p : Chunk) (s : State) :
    unitEscape k p s =
      .next (setDec s (advancePc 2 (pushChunk p (pushChunk Config.dtab[k] s.dec).2).2)) := by
  simp [unitEscape]

/-- The unit decoder answers a text unit for every text that has a byte (R89, R90). -/
theorem decodeUnit_cons (strict : Bool) (b : Byte) (rest : List Byte) :
    ∃ i r, decodeUnit strict (b :: rest) = .ok (i, r) := by
  simp only [decodeUnit]
  split
  · exact ⟨_, _, rfl⟩
  · split
    · cases rest with
      | nil => exact ⟨_, _, rfl⟩
      | cons b2 rest' =>
        simp only
        split <;> exact ⟨_, _, rfl⟩
    · split <;> exact ⟨_, _, rfl⟩

/-- Every two-byte form is a text unit. -/
theorem scalarUnit_isTextUnit (strict : Bool) (s : Scalar) : isTextUnit (scalarUnit strict s) = true := by
  simp only [scalarUnit]
  repeat' split
  all_goals rfl

/-- What the unit decoder answers is a text unit. -/
theorem decodeUnit_isTextUnit {strict : Bool} {bytes rest : List Byte} {i : Instr}
    (h : decodeUnit strict bytes = .ok (i, rest)) : isTextUnit i = true := by
  cases bytes with
  | nil => simp [decodeUnit] at h
  | cons b tail =>
    simp only [decodeUnit] at h
    split at h
    · simp only [Except.ok.injEq, Prod.mk.injEq] at h
      rw [← h.1]
      rfl
    · split at h
      · cases tail with
        | nil =>
          simp only [Except.ok.injEq, Prod.mk.injEq] at h
          rw [← h.1]
          rfl
        | cons b2 tail' =>
          simp only at h
          split at h <;> simp only [Except.ok.injEq, Prod.mk.injEq] at h
          · rw [← h.1]
            exact scalarUnit_isTextUnit _ _
          · rw [← h.1]
            rfl
      · split at h <;> simp only [Except.ok.injEq, Prod.mk.injEq] at h <;> rw [← h.1] <;> rfl

/-- A text unit runs as exec runs it. -/
theorem runUnit_eq_exec {i : Instr} (h : isTextUnit i = true) (s : State) :
    runUnit i s = exec i s := by
  cases i <;> first | rfl | simp [isTextUnit, encode] at h

/-- All that executing a text unit can do: push its chunks and move past it, or raise (R164 to R168). -/
theorem exec_unit {i : Instr} (h : isTextUnit i = true) (s : State) :
    exec i s =
      match unitCause i with
      | some cause => .next (setDec s (raiseInvalidSequence cause s.dec.pc s.dec))
      | none => .next (setDec s (advancePc (unitBytes i).length
          ((unitChunks i).foldl (fun d v => (pushChunk v d).2) s.dec))) := by
  have hesc : ∀ (k : Index) (p : Chunk), unitEscape k p s = .next (setDec s
      (advancePc 2 (pushChunk p (pushChunk Config.dtab[k] s.dec).2).2)) :=
    fun k p => unitEscape_eq k p s
  cases i <;> first | rfl | exact hesc _ _ | simp [isTextUnit, encode] at h

/-- All that DEC.STEP can have done when it answers (R172): nothing, the end of the text, or the unit
that the decoder reads from the fetched bytes. -/
theorem execDecStep_cases {s t : State} (h : execDecStep s = .next t) :
    (s.dec.done = true ∧ t = s) ∨
    (s.dec.done = false ∧ s.dec.tlen ≤ s.dec.pc ∧ t = setDec s (decSetDone s.dec)) ∨
    (s.dec.done = false ∧ s.dec.pc < s.dec.tlen ∧ ∃ bytes i rest,
      fetchUnit s.dec = .next bytes ∧ decodeUnit s.strict bytes = .ok (i, rest) ∧
      isTextUnit i = true ∧ exec i s = .next t) := by
  unfold execDecStep at h
  cases hd : s.dec.done with
  | true => simp [hd] at h; exact .inl ⟨rfl, h.symm⟩
  | false =>
    simp only [hd, Bool.false_eq_true, if_false, decAtEnd, decide_eq_true_eq] at h
    split at h
    · next hend =>
      simp only [Host.Outcome.next.injEq] at h
      exact .inr (.inl ⟨rfl, hend, h.symm⟩)
    · next hend =>
      simp only [andThen_eq_next] at h
      obtain ⟨bytes, hf, h⟩ := h
      refine .inr (.inr ⟨rfl, by omega, ?_⟩)
      split at h
      · next i rest hdec =>
        have hu := decodeUnit_isTextUnit hdec
        rw [runUnit_eq_exec hu] at h
        exact ⟨bytes, i, rest, hf, hdec, hu, h⟩
      · simp at h

/-- The unit at DEC.PC can be fetched from a placed text (R58). -/
theorem fetchUnit_placed {d : Dec} (hd : d.txt.dense d.tlen) (h : d.pc < d.tlen) :
    ∃ b1, memGet d.txt d.pc = some b1 ∧
      ((beginsEscape b1 = true ∧ d.pc + 1 < d.tlen ∧
        ∃ b2, memGet d.txt (d.pc + 1) = some b2 ∧ fetchUnit d = .next [b1, b2]) ∨
      (¬ (beginsEscape b1 = true ∧ d.pc + 1 < d.tlen) ∧ fetchUnit d = .next [b1])) := by
  obtain ⟨b1, h1, hr1⟩ := memRead_dense (space := .decTxt) hd h
  refine ⟨b1, h1, ?_⟩
  by_cases hc : beginsEscape b1 = true ∧ d.pc + 1 < d.tlen
  · obtain ⟨b2, h2, hr2⟩ := memRead_dense (space := .decTxt) hd hc.2
    exact .inl ⟨hc.1, hc.2, b2, h2, by simp [fetchUnit, readText, hr1, hr2, hc.1, hc.2]⟩
  · refine .inr ⟨hc, ?_⟩
    have : (beginsEscape b1 && decide (d.pc + 1 < d.tlen)) = false := by
      simpa [Bool.and_eq_true] using hc
    simp only [fetchUnit, readText, hr1, andThen_next, this]
    rfl

/-- DEC.STEP completes with a placed text (R172). -/
theorem execDecStep_completes {s : State} (hd : s.dec.txt.dense s.dec.tlen) :
    ∃ t, execDecStep s = .next t := by
  unfold execDecStep
  split
  · exact ⟨_, rfl⟩
  · split
    · exact ⟨_, rfl⟩
    · next hend =>
      simp only [decAtEnd, decide_eq_true_eq, not_le] at hend
      have hrun : ∀ i, isTextUnit i = true → ∃ t, runUnit i s = .next t := by
        intro i hu
        rw [runUnit_eq_exec hu, exec_unit hu]
        cases unitCause i <;> simp
      obtain ⟨b1, -, ⟨-, -, b2, -, hf⟩ | ⟨-, hf⟩⟩ := fetchUnit_placed hd hend
      · obtain ⟨i, r, hi⟩ := decodeUnit_cons s.strict b1 [b2]
        simpa only [hf, andThen_next, hi] using hrun i (decodeUnit_isTextUnit hi)
      · obtain ⟨i, r, hi⟩ := decodeUnit_cons s.strict b1 []
        simpa only [hf, andThen_next, hi] using hrun i (decodeUnit_isTextUnit hi)

end Sys2Proof.Machine
end

