-- ==== Sys2Proof/Laws/PerInstr.lean ====
section
/-! SUPPORT. Facts about every instruction as syntax, one lemma per constructor. -/

namespace Sys2Proof.Laws.UnitLength

/-- A unit is one byte or two bytes long, never longer (30_encoding.md R80); a unit of two bytes begins
with `110xxxxx` (R87); what is no unit has no bytes. -/
def Statement (i : Sys2Proof.Instr) : Prop :=
  match Sys2Proof.unitBytes i with
  | [] => Sys2Proof.isTextUnit i = false
  | [_] => Sys2Proof.isTextUnit i = true
  | [b1, _] => Sys2Proof.isTextUnit i = true ∧ Sys2Proof.beginsEscape b1 = true
  | _ :: _ :: _ :: _ => False

/-- The first byte of every two-byte form begins an escape. -/
theorem twoBytes_begin (k : IndexField) (f : Bool) (p : Chunk) :
    beginsEscape (0b110#3 ++ k ++ BitVec.ofBool f ++ p.extractLsb' 6 1) = true := by
  revert k f p
  decide

/-- The first byte of an illegal two-byte unit begins an escape. -/
theorem lead_begins (x : BitVec 5) : beginsEscape (0b110#3 ++ x) = true := by
  revert x
  decide

theorem lit (c : Chunk) : Statement (.lit c) := rfl
theorem esc0 (p : Chunk) : Statement (.esc0 p) := ⟨rfl, twoBytes_begin 0#3 true p⟩
theorem esc1 (p : Chunk) : Statement (.esc1 p) := ⟨rfl, twoBytes_begin 1#3 true p⟩
theorem esc2 (p : Chunk) : Statement (.esc2 p) := ⟨rfl, twoBytes_begin 2#3 true p⟩
theorem esc3 (p : Chunk) : Statement (.esc3 p) := ⟨rfl, twoBytes_begin 3#3 true p⟩
theorem esc4 (p : Chunk) : Statement (.esc4 p) := ⟨rfl, twoBytes_begin 4#3 true p⟩
theorem esc5 (p : Chunk) : Statement (.esc5 p) := ⟨rfl, twoBytes_begin 5#3 true p⟩
theorem escs (p : Chunk) : Statement (.escs p) := ⟨rfl, twoBytes_begin 7#3 true p⟩
theorem illLead10 (x : BitVec 6) : Statement (.illLead10 x) := rfl
theorem illLead111 (x : BitVec 5) : Statement (.illLead111 x) := rfl
theorem illTrunc (x : BitVec 5) : Statement (.illTrunc x) := rfl
theorem illCont (x : BitVec 5) (y : Byte) : Statement (.illCont x y) := ⟨rfl, lead_begins x⟩
theorem illOverlong (p : Chunk) : Statement (.illOverlong p) := ⟨rfl, twoBytes_begin 0#3 false p⟩
theorem illFixed (k : IndexField) (p : Chunk) : Statement (.illFixed k p) := ⟨rfl, twoBytes_begin k false p⟩
theorem illIndex6 (p : Chunk) : Statement (.illIndex6 p) := ⟨rfl, twoBytes_begin 6#3 true p⟩
theorem illShortpay (p : Chunk) : Statement (.illShortpay p) := ⟨rfl, twoBytes_begin 7#3 true p⟩
theorem esckF0 (k : Index) (p : Chunk) : Statement (.esckF0 k p) := ⟨rfl, twoBytes_begin (indexField k) false p⟩
theorem escsF0 (p : Chunk) : Statement (.escsF0 p) := ⟨rfl, twoBytes_begin 7#3 false p⟩
theorem illIndex6F0 (p : Chunk) : Statement (.illIndex6F0 p) := ⟨rfl, twoBytes_begin 6#3 false p⟩
theorem classD0 : Statement .classD0 := rfl
theorem classD1 : Statement .classD1 := rfl
theorem classD2 : Statement .classD2 := rfl
theorem classD3 : Statement .classD3 := rfl
theorem classD4 : Statement .classD4 := rfl
theorem classD5 : Statement .classD5 := rfl
theorem classSafe (c : Chunk) : Statement (.classSafe c) := rfl
theorem put1 (c : Chunk) : Statement (.put1 c) := rfl
theorem pute (k : Index) (n : Chunk) : Statement (.pute k n) := rfl
theorem puts (c : Chunk) : Statement (.puts c) := rfl
theorem get7 : Statement .get7 := rfl
theorem classify (c : Chunk) : Statement (.classify c) := rfl
theorem dval (k : IndexField) : Statement (.dval k) := rfl
theorem encStep : Statement .encStep := rfl
theorem encode : Statement .encode := rfl
theorem push7 (v : Chunk) : Statement (.push7 v) := rfl
theorem decStep : Statement .decStep := rfl
theorem decode : Statement .decode := rfl
theorem encStart : Statement .encStart := rfl
theorem decStart : Statement .decStart := rfl

end Sys2Proof.Laws.UnitLength
end

