-- ==== Sys2Proof/Tests/Slice0.lean ====
section
/-! SUPPORT. The model's own tests: ill-formed terms, words written out from the encoding tables,
one-step checks with results from 95_test_vectors.md, and a witness for every statement that has
hypotheses. -/

namespace Sys2Proof.Tests

open Sys2Proof Sys2Proof.Machine

/-- The next state, where there is one. -/
def after (x : Host.Outcome State Fault Refusal) : Option State :=
  match x with
  | .next t => some t
  | .fault _ => none
  | .refused _ => none

/-- A fresh machine with an input in ENC.IN and the encode cursor at bit p. -/
def enc (bytes : List Byte) (p : Nat) : State :=
  setEnc State.reset (cursorAt (placeInput State.reset bytes).enc p)

/-- A fresh machine with a text in DEC.TXT and the given DEC.PC, DEC.AC and DEC.AB. -/
def dec (text : List Byte) (pc : Nat) (ac : Byte) (ab : BitVec 3) : State :=
  setDec State.reset { (placeText State.reset text).dec with pc := pc, ac := ac, ab := ab }

/-- The output bytes of the encode engine after an outcome. -/
def encOut (x : Host.Outcome State Fault Refusal) : Option (List Byte) :=
  (after x).map fun t => bufferBytes t.enc.out t.enc.olen

/-- DEC.PC, DEC.AC, DEC.AB and the output bytes of the decode engine after an outcome. -/
def decOut (x : Host.Outcome State Fault Refusal) : Option (Nat × Byte × BitVec 3 × List Byte) :=
  (after x).map fun t => (t.dec.pc, t.dec.ac, t.dec.ab, bufferBytes t.dec.out t.dec.olen)

/-- DEC.ERR, DEC.CAUSE, DEC.EPC and DEC.DONE after an outcome. -/
def decErr (x : Host.Outcome State Fault Refusal) : Option (Bool × BitVec 3 × Nat × Bool) :=
  (after x).map fun t => (t.dec.err, t.dec.cause, t.dec.epc, t.dec.done)

/-! ### Ill-formed terms (one for each check of WellFormed) -/

theorem test_wellFormed_escs : (Instr.escs 0x01#7).wellFormedAt true = false := by decide
theorem test_wellFormed_illCont : (Instr.illCont 0#5 0x80#8).wellFormedAt true = false := by decide
theorem test_wellFormed_illFixed : (Instr.illFixed 0#3 0#7).wellFormedAt true = false := by decide
theorem test_wellFormed_illFixed_lax :
    (Instr.illFixed 1#3 0#7).wellFormedAt false = false := by decide
theorem test_wellFormed_illShortpay :
    (Instr.illShortpay 0x0A#7).wellFormedAt true = false := by decide
theorem test_wellFormed_illShortpay_lax :
    (Instr.illShortpay 0x01#7).wellFormedAt false = false := by decide
theorem test_wellFormed_esckF0 : (Instr.esckF0 1 0#7).wellFormedAt true = false := by decide
theorem test_wellFormed_esckF0_zero : (Instr.esckF0 0 0#7).wellFormedAt false = false := by decide
theorem test_wellFormed_escsF0 : (Instr.escsF0 0#7).wellFormedAt true = false := by decide
theorem test_wellFormed_illIndex6F0 : (Instr.illIndex6F0 0#7).wellFormedAt true = false := by decide
theorem test_wellFormed_classSafe : (Instr.classSafe 0x22#7).wellFormed = false := by decide
theorem test_wellFormed_put1 : (Instr.put1 0x26#7).wellFormed = false := by decide
theorem test_wellFormed_puts : (Instr.puts 0x20#7).wellFormed = false := by decide
theorem test_wellFormed_dval : (Instr.dval 6#3).wellFormed = false := by decide

/-! ### Words written out from the encodings (30_encoding.md R81, R84, R89, R94, R95) -/

theorem test_decode_lit : decode (.unit [0b01000001#8]) = .ok (.lit 0b1000001#7) := by decide
theorem test_decode_esc0 :
    decode (.unit [0b11000011#8, 0b10000010#8]) = .ok (.esc0 0b1000010#7) := by decide
theorem test_decode_esc1 :
    decode (.unit [0b11000110#8, 0b10001010#8]) = .ok (.esc1 0b0001010#7) := by decide
theorem test_decode_esc2 :
    decode (.unit [0b11001011#8, 0b10111111#8]) = .ok (.esc2 0b1111111#7) := by decide
theorem test_decode_esc3 :
    decode (.unit [0b11001110#8, 0b10010001#8]) = .ok (.esc3 0b0010001#7) := by decide
theorem test_decode_esc4 :
    decode (.unit [0b11010011#8, 0b10010011#8]) = .ok (.esc4 0b1010011#7) := by decide
theorem test_decode_esc5 :
    decode (.unit [0b11010111#8, 0b10101111#8]) = .ok (.esc5 0b1101111#7) := by decide
theorem test_decode_escs :
    decode (.unit [0b11011111#8, 0b10011100#8]) = .ok (.escs 0b1011100#7) := by decide
theorem test_decode_illLead10 :
    decode (.unit [0b10111110#8]) = .ok (.illLead10 0b111110#6) := by decide
theorem test_decode_illLead111 :
    decode (.unit [0b11100010#8]) = .ok (.illLead111 0b00010#5) := by decide
theorem test_decode_illTrunc :
    decode (.unit [0b11011110#8]) = .ok (.illTrunc 0b11110#5) := by decide
theorem test_decode_illCont :
    decode (.unit [0b11000000#8, 0b01000001#8]) = .ok (.illCont 0b00000#5 0x41#8) := by decide
theorem test_decode_illOverlong :
    decode (.unit [0b11000001#8, 0b10111111#8]) = .ok (.illOverlong 0b1111111#7) := by decide
theorem test_decode_illFixed :
    decode (.unit [0b11011000#8, 0b10000000#8]) = .ok (.illFixed 6#3 0#7) := by decide
theorem test_decode_illIndex6 :
    decode (.unit [0b11011011#8, 0b10111111#8]) = .ok (.illIndex6 0b1111111#7) := by decide
theorem test_decode_illShortpay :
    decode (.unit [0b11011110#8, 0b10000001#8]) = .ok (.illShortpay 0b0000001#7) := by decide
theorem test_decode_esckF0 :
    decodeAt false (.unit [0b11000100#8, 0b10000000#8]) = .ok (.esckF0 1 0#7) := by decide
theorem test_decode_escsF0 :
    decodeAt false (.unit [0b11011101#8, 0b10011100#8]) = .ok (.escsF0 0b1011100#7) := by decide
theorem test_decode_illIndex6F0 :
    decodeAt false (.unit [0b11011000#8, 0b10000000#8]) = .ok (.illIndex6F0 0#7) := by decide
theorem test_decode_classD0 : decode (.chunk 0b0000000#7) = .ok .classD0 := by decide
theorem test_decode_classD1 : decode (.chunk 0b0001010#7) = .ok .classD1 := by decide
theorem test_decode_classD2 : decode (.chunk 0b0001101#7) = .ok .classD2 := by decide
theorem test_decode_classD3 : decode (.chunk 0b0100010#7) = .ok .classD3 := by decide
theorem test_decode_classD4 : decode (.chunk 0b0100110#7) = .ok .classD4 := by decide
theorem test_decode_classD5 : decode (.chunk 0b1011100#7) = .ok .classD5 := by decide
theorem test_decode_classSafe :
    decode (.chunk 0b0011100#7) = .ok (.classSafe 0b0011100#7) := by decide
theorem test_decode_put1 :
    decode (.dispatch false true 0x20#7 0x40#7) = .ok (.put1 0x20#7) := by decide
theorem test_decode_pute :
    decode (.dispatch true true 0x0A#7 0x40#7) = .ok (.pute 1 0x40#7) := by decide
theorem test_decode_puts :
    decode (.dispatch true false 0x5C#7 0#7) = .ok (.puts 0x5C#7) := by decide
theorem test_decode_rejects_empty : decode (.unit []) = .error .noByte := by decide
theorem test_decode_rejects_trailing :
    decode (.unit [0x20#8, 0x40#8]) = .error .trailingBytes := by decide
theorem test_decode_rejects_dispatch :
    decode (.dispatch true true 0x20#7 0#7) = .error .dispatchBit := by decide
theorem test_tableWord_esc5 : decodeTableWord 16 0xD780 = some (.esc5 0x40#7) := by decide
theorem test_tableWord_trunc : decodeTableWord 8 0xC0 = some (.illTrunc 0#5) := by decide

/-! ### GET7 (95_test_vectors.md section 2) -/

theorem test_get7_offset3 :
    (after (exec .get7 (enc [0x12#8, 0x34#8, 0x56#8, 0x78#8, 0x9A#8, 0xBC#8, 0xDE#8] 35))).map
      (fun t => (t.enc.ret, t.enc.bi, t.enc.bo)) = some (.chunk (some 0x6A#7), 5, 2#3) := by decide
theorem test_get7_fill :
    (after (exec .get7 (enc [0x41#8] 7))).map (fun t => (t.enc.ret, t.enc.bi, t.enc.bo)) =
      some (.chunk (some 0x40#7), 1, 6#3) := by decide

/-! ### CLASS and DVAL (section 3) -/

theorem test_classify_safe :
    (after (exec (.classify 0x1C#7) State.reset)).map (fun t => t.enc.ret) =
      some (.cls .safe) := by decide
theorem test_classify_backslash :
    (after (exec (.classify 0x5C#7) State.reset)).map (fun t => t.enc.ret) =
      some (.cls (.dangerous 5)) := by decide
theorem test_dval :
    (after (exec (.dval 2#3) State.reset)).map (fun t => t.dec.ret) =
      some (.value 0x0D#7) := by decide
theorem test_dval_refused : exec (.dval 7#3) State.reset = .refused (.noTableEntry 7#3) := rfl

/-! ### PUT1, PUTE, PUTS, ENC.STEP, ENCODE (section 4) -/

theorem test_put1 : encOut (exec (.put1 0x7F#7) State.reset) = some [0x7F#8] := by decide
theorem test_pute : encOut (exec (.pute 4 0x53#7) State.reset) = some [0xD3#8, 0x93#8] := by decide
theorem test_puts : encOut (exec (.puts 0x26#7) State.reset) = some [0xDE#8, 0xA6#8] := by decide
theorem test_encStep_pute :
    (after (exec .encStep (enc [0x14#8, 0x28#8] 0))).map
      (fun t => (bufferBytes t.enc.out t.enc.olen, t.enc.bi, t.enc.bo, t.enc.done)) =
      some ([0xC6#8, 0x8A#8], 1, 6#3, false) := by decide
theorem test_encStep_puts :
    (after (exec .encStep (enc [0x14#8, 0x28#8] 14))).map
      (fun t => (bufferBytes t.enc.out t.enc.olen, t.enc.bi, t.enc.bo, t.enc.done)) =
      some ([0xDE#8, 0x80#8], 2, 5#3, false) := by decide
theorem test_encode :
    encOut (exec .encode (enc [0x00#8, 0x0A#8, 0x0D#8, 0x22#8, 0x26#8, 0x5C#8] 0)) =
      some [0xC2#8, 0x82#8, 0x41#8, 0x52#8, 0x11#8, 0x19#8, 0x38#8] := by decide
theorem test_encode_shortened :
    encOut (exec .encode (enc [0x00#8, 0x00#8] 9)) =
      some [0xC2#8, 0x80#8, 0xDE#8, 0x80#8] := by decide

/-! ### PUSH7 and the units (sections 5 and 8) -/

theorem test_push7_emits :
    decOut (exec (.push7 0x67#7) (dec [] 0 0x50#8 5#3)) =
      some (0, 0x70#8, 4#3, [0x56#8]) := by decide
theorem test_push7_holds :
    decOut (exec (.push7 0x41#7) (dec [] 0 0#8 0#3)) = some (0, 0x82#8, 7#3, []) := by decide
theorem test_lit :
    decOut (exec (.lit 0x40#7) (dec [] 1 0x40#8 7#3)) = some (2, 0x00#8, 6#3, [0x41#8]) := by decide
theorem test_esc0_one_bit_held :
    decOut (exec (.esc0 0x20#7) (dec [] 7 0x80#8 1#3)) = some (9, 0x40#8, 7#3, [0x80#8]) := by decide
theorem test_esc1 :
    decOut (exec (.esc1 0x0A#7) (dec [] 0 0#8 0#3)) = some (2, 0x28#8, 6#3, [0x14#8]) := by decide
theorem test_esc2 :
    decOut (exec (.esc2 0x0A#7) (dec [] 1 0x12#8 7#3)) =
      some (3, 0x50#8, 5#3, [0x12#8, 0x34#8]) := by decide
theorem test_esc3 :
    decOut (exec (.esc3 0x00#7) (dec [] 0 0#8 0#3)) = some (2, 0x00#8, 6#3, [0x44#8]) := by decide
theorem test_esc4 :
    decOut (exec (.esc4 0x40#7) (dec [] 0 0#8 0#3)) = some (2, 0x00#8, 6#3, [0x4D#8]) := by decide
theorem test_esc5 :
    decOut (exec (.esc5 0x40#7) (dec [] 0 0#8 0#3)) = some (2, 0x00#8, 6#3, [0xB9#8]) := by decide
theorem test_escs :
    decOut (exec (.escs 0x00#7) (dec [] 2 0x28#8 6#3)) = some (4, 0x00#8, 5#3, [0x28#8]) := by decide

/-! ### DEC.STEP, DECODE, STRICT = 0, STARTs (sections 7 and 8) -/

theorem test_decStep_unit :
    decOut (exec .decStep (dec [0xC6#8, 0x8A#8, 0xDE#8, 0x80#8] 0 0#8 0#3)) =
      some (2, 0x28#8, 6#3, [0x14#8]) := by decide
theorem test_decStep_raises :
    decErr (exec .decStep (dec [0xC2#8, 0x82#8, 0x41#8, 0xDA#8, 0x80#8, 0x41#8] 3 0x08#8 5#3)) =
      some (true, 6#3, 3, true) := by decide
theorem test_decode_ok :
    (after (exec .decode (dec [0x05#8, 0xDE#8, 0x80#8, 0x41#8, 0x42#8] 3 0#8 0#3))).map
      (fun t => (t.dec.ret, t.dec.ac, t.dec.ab)) =
      some (.ok [0x0A#8, 0x02#8, 0x0C#8], 0x20#8, 4#3) := by decide
theorem test_decode_err :
    (after (exec .decode (dec [0x20#8, 0x40#8, 0xE2#8, 0x82#8, 0xAC#8] 0 0#8 0#3))).map
      (fun t => (t.dec.ret, t.dec.cause, t.dec.epc, t.dec.olen)) =
      some (.invalidSequence, 1#3, 2, 0) := by decide
theorem test_decode_lax :
    (after (exec .decode { dec [0xDD#8, 0x9C#8] 0 0#8 0#3 with strict := false })).map
      (fun t => (t.dec.ret, t.dec.ac, t.dec.ab)) = some (.ok [], 0xB8#8, 7#3) := by decide
theorem test_esckF0_lax :
    (after (exec .decode { dec [0xC4#8, 0x80#8] 0 0#8 0#3 with strict := false })).map
      (fun t => (t.dec.ret, t.dec.ac, t.dec.ab)) = some (.ok [0x14#8], 0x00#8, 6#3) := by decide
theorem test_encStart :
    (after (exec .encStart (enc [0x41#8] 14))).map (fun t => (t.enc.bi, t.enc.bo, t.enc.len)) =
      some (0, 0#3, 1) := by decide
theorem test_decStart :
    (after (exec .decStart (dec [0x41#8] 1 0x82#8 7#3))).map
      (fun t => (t.dec.pc, t.dec.ac, t.dec.ab, t.dec.tlen)) = some (0, 0#8, 0#3, 1) := by decide
theorem test_step_first_word :
    step (State.reset.withFetchWord 16 0xC682) =
      exec (.esc1 0x02#7) (State.reset.withFetchWord 16 0xC682) := rfl

/-! ### The hypotheses of the statements can be met -/

theorem witness_DecodeOfEncode :
    (Instr.illFixed 6#3 0x7F#7).wellFormedAt true = true ∧
    encode (.illFixed 6#3 0x7F#7) = some (.unit [0xD9#8, 0xBF#8]) := by decide

theorem witness_UnitDecodingLosesNoBit :
    decodeUnit true [0xC0#8, 0x41#8, 0x42#8] = .ok (.illCont 0#5 0x41#8, [0x42#8]) := by decide

/-- R89 at the ends of each of its rows, with second bytes at the ends of theirs, for STRICT = 1. -/
theorem witness_FirstByteMap :
    (([0x00, 0x7F, 0x80, 0xBF, 0xE0, 0xFF, 0xC0, 0xC1, 0xC4, 0xDD, 0xC2, 0xC3, 0xC6, 0xC7, 0xCA, 0xCB,
      0xCE, 0xCF, 0xD2, 0xD3, 0xD6, 0xD7, 0xDA, 0xDB, 0xDE, 0xDF].map fun n =>
      match decodeUnit true [BitVec.ofNat 8 n, 0x80#8] with
      | .ok (i, _) => (unitCause i, unitChunks i)
      | .error _ => (none, [])) : List (Option Cause × List Chunk)) =
    [(none, [0x00#7]), (none, [0x7F#7]), (some .lead, []), (some .lead, []), (some .lead, []),
      (some .lead, []), (some .overlong, []), (some .overlong, []), (some .fixed, []),
      (some .fixed, []), (none, [0x00#7, 0x00#7]), (none, [0x00#7, 0x40#7]), (none, [0x0A#7, 0x00#7]),
      (none, [0x0A#7, 0x40#7]), (none, [0x0D#7, 0x00#7]), (none, [0x0D#7, 0x40#7]),
      (none, [0x22#7, 0x00#7]), (none, [0x22#7, 0x40#7]), (none, [0x26#7, 0x00#7]),
      (none, [0x26#7, 0x40#7]), (none, [0x5C#7, 0x00#7]), (none, [0x5C#7, 0x40#7]),
      (some .index6, []), (some .index6, []), (none, [0x00#7]), (some .shortpay, [])] := by decide

/-- The rows of R89 that STRICT = 0 changes, at their ends, with the second byte 0xBF. -/
theorem witness_FirstByteMap_lax :
    (([0xC0, 0xC1, 0xC4, 0xC5, 0xC8, 0xC9, 0xCC, 0xCD, 0xD0, 0xD1, 0xD4, 0xD5, 0xD8, 0xD9, 0xDC, 0xDD,
      0xDF].map fun n =>
      match decodeUnit false [BitVec.ofNat 8 n, 0xBF#8] with
      | .ok (i, _) => (unitCause i, unitChunks i)
      | .error _ => (none, [])) : List (Option Cause × List Chunk)) =
    [(some .overlong, []), (some .overlong, []), (none, [0x0A#7, 0x3F#7]), (none, [0x0A#7, 0x7F#7]),
      (none, [0x0D#7, 0x3F#7]), (none, [0x0D#7, 0x7F#7]), (none, [0x22#7, 0x3F#7]),
      (none, [0x22#7, 0x7F#7]), (none, [0x26#7, 0x3F#7]), (none, [0x26#7, 0x7F#7]),
      (none, [0x5C#7, 0x3F#7]), (none, [0x5C#7, 0x7F#7]), (some .index6, []), (some .index6, []),
      (none, [0x3F#7]), (none, [0x7F#7]), (none, [0x7F#7])] := by decide

/-- First bytes 0xC0 and 0xDF with the second bytes next to the ends of 0x80 to 0xBF. -/
theorem witness_FirstByteMap_secondByte :
    (0xC0 ≤ (0xC0#8).toNat ∧ (0xC0#8).toNat ≤ 0xDF ∧ 0xC0 ≤ (0xDF#8).toNat ∧ (0xDF#8).toNat ≤ 0xDF) ∧
    decodeUnit true [0xC0#8] = .ok (.illTrunc 0#5, []) ∧
    decodeUnit true [0xDF#8, 0x7F#8] = .ok (.illCont 0b11111#5 0x7F#8, []) ∧
    decodeUnit true [0xDF#8, 0xC0#8] = .ok (.illCont 0b11111#5 0xC0#8, []) ∧
    decodeUnit true [0xDF#8, 0x9C#8] = .ok (.escs 0x5C#7, []) := by decide

/-- A literal and a LEAD byte before a byte outside 0x80 to 0xBF. -/
theorem witness_FirstByteMap_rest :
    decodeUnit true [0x20#8, 0x40#8] = .ok (.lit 0x20#7, [0x40#8]) ∧
    decodeUnit true [0xBF#8, 0x41#8] = .ok (.illLead10 0b111111#6, [0x41#8]) ∧
    decodeUnit false [0xE0#8, 0xFF#8] = .ok (.illLead111 0#5, [0xFF#8]) := by decide

theorem witness_ClassDvalInverse : classOf 0x5C#7 = .dangerous 5 := by decide

theorem witness_ClassReturnsPattern :
    Config.inDtab 0x01#7 = false ∧ Config.inDtab 0x7F#7 = false := by decide

/-- Each index field of DVAL's clauses is one of the values 0 to 7. -/
theorem witness_DvalReadsTable :
    exec (.dval 5#3) State.reset = .next (setDec State.reset
      { State.reset.dec with ret := .value 0x5C#7 }) ∧
    exec (.dval 6#3) State.reset = .refused (.noTableEntry 6#3) := ⟨rfl, rfl⟩

/-- An input of one byte: the cursor within it, at its last bit, and at its end. -/
theorem witness_ExtractTakesStreamSlice :
    (enc [0x41#8] 7).enc.inp = bufferOf [0x41#8] ∧ (enc [0x41#8] 7).enc.len = 1 ∧
    8 * (enc [0x41#8] 7).enc.bi + (enc [0x41#8] 7).enc.bo.toNat < 8 * (enc [0x41#8] 7).enc.len ∧
    8 * (enc [0x41#8] 8).enc.len ≤ 8 * (enc [0x41#8] 8).enc.bi + (enc [0x41#8] 8).enc.bo.toNat ∧
    2 ≤ chunkCount (enc [0x41#8] 7).enc.len := by decide

theorem witness_ExtractorChunkCount :
    (enc [0x41#8] 0).enc.inp = bufferOf [0x41#8] ∧ (enc [0x41#8] 0).enc.len = [0x41#8].length ∧
    chunkCount [0x41#8].length = 2 ∧
    (match drawChunks 1 (encClear (enc [0x41#8] 0).enc) with
      | .next r => some r.1
      | .fault _ => none
      | .refused _ => none) = some [0x20#7] := by decide

/-- Each bit offset, with a next byte and at the last byte. -/
theorem witness_ExtractByBitOffset :
    (∀ p : Fin 8, let e := (enc [0x12#8, 0x34#8] p).enc
      e.bi < e.len ∧ memGet e.inp e.bi = some 0x12#8 ∧ e.bi + 1 < e.len ∧
      memGet e.inp (e.bi + 1) = some 0x34#8 ∧ e.bo = BitVec.ofNat 3 p) ∧
    ∀ p : Fin 8, let e := (enc [0x12#8, 0x34#8] (8 + p)).enc
      e.bi < e.len ∧ memGet e.inp e.bi = some 0x34#8 ∧ ¬ e.bi + 1 < e.len ∧
      e.bo = BitVec.ofNat 3 p := by decide

theorem witness_Get7Completes :
    (enc [0x12#8, 0x34#8] 5).enc.inp.dense (enc [0x12#8, 0x34#8] 5).enc.len := by decide

/-- The four ways on of an ENC.STEP: done, exhausted, a safe chunk, a dangerous one with and without a
next chunk. -/
theorem witness_EncStepPacksOneUnit :
    let s := enc [0x14#8, 0x28#8]
    (∀ p : Fin 22, (s p).enc.inp = bufferOf [0x14#8, 0x28#8] ∧ (s p).enc.len = 2) ∧
    (s 0).enc.done = false ∧ ({ (s 0).enc with done := true } : Enc).done = true ∧
    8 * (s 16).enc.len ≤ 8 * (s 16).enc.bi + (s 16).enc.bo.toNat ∧
    classOf (chunkFrom [0x14#8, 0x28#8] 1) = .safe ∧
    classOf (chunkFrom [0x14#8, 0x28#8] 0) = .dangerous 1 ∧ 0 + 7 < 8 * (s 0).enc.len ∧
    classOf (chunkFrom [0x14#8, 0x28#8] 14) = .dangerous 0 ∧ ¬ 14 + 7 < 8 * (s 14).enc.len := by
  decide

/-- Both clauses; an ENC.STEP with each choice of the dispatch bits: 0x, 11 and 10. -/
theorem witness_DispatchBitsSelectEmit :
    dispatchD 0x20#7 = false ∧ classOf 0x22#7 = .dangerous 3 ∧
    let s := enc [0x14#8, 0x28#8]
    (∀ p : Fin 15, (s p).enc.inp = bufferOf [0x14#8, 0x28#8] ∧ (s p).enc.len = 2 ∧
      (s p).enc.done = false ∧ 8 * (s p).enc.bi + (s p).enc.bo.toNat < 8 * (s p).enc.len) ∧
    dispatchD (chunkFrom [0x14#8, 0x28#8] 1) = false ∧
    dispatchD (chunkFrom [0x14#8, 0x28#8] 0) = true ∧ 0 + 7 < 8 * (s 0).enc.len ∧
    dispatchD (chunkFrom [0x14#8, 0x28#8] 14) = true ∧ ¬ 14 + 7 < 8 * (s 14).enc.len := by decide

theorem witness_EncStepCompletes :
    (enc [0x14#8] 7).enc.inp.dense (enc [0x14#8] 7).enc.len := by decide

theorem witness_EncodedSize :
    (∀ c ∈ chunksOf [0x41#8], classOf c = .safe) ∧ [0x41#8].length = 1 ∧
    packChunks (chunksOf [0x0A#8]) = [0x05#8] ++ escapeBytes 7#3 0x00#7 := by decide

/-- Every fill of the accumulator with its bits below the valid ones 0. -/
theorem witness_PushByAccumulatorFill :
    ∀ a : Fin 8, let d := (dec [] 0 (if a.val = 0 then 0x00#8 else 0x80#8) (BitVec.ofNat 3 a)).dec
      d.ac <<< d.ab.toNat = 0#8 ∧ d.ab = BitVec.ofNat 3 a := by decide

theorem witness_PushIsWindow :
    ((dec [] 0 0#8 0#3).dec.ab = 0#3 → (dec [] 0 0#8 0#3).dec.ac = 0#8) ∧
    ((dec [] 0 0xFF#8 1#3).dec.ab = 0#3 → (dec [] 0 0xFF#8 1#3).dec.ac = 0#8) := by decide

theorem witness_Push7Completes :
    (dec [] 0 0#8 0#3).dec.ab = 0#3 ∧ (dec [] 0 0x80#8 1#3).dec.ab ≠ 0#3 := by decide

/-- A text whose unit at index 1 fails each of the checks in turn, and the last byte of a text. -/
theorem witness_ChecksInOrder :
    (∀ b ∈ [0x80#8, 0xBF#8, 0xE0#8, 0xFF#8, 0x00#8, 0x7F#8, 0xC0#8, 0xC1#8, 0xC4#8, 0xDD#8, 0xDA#8, 0xDE#8,
        0xC2#8, 0xD7#8],
      ∀ b2 ∈ [0x7F#8, 0x80#8, 0xBF#8, 0xC0#8],
      let s := dec [0x41#8, b, b2] 1 0x82#8 7#3
      s.dec.done = false ∧ s.dec.pc < s.dec.tlen ∧ memGet s.dec.txt s.dec.pc = some b ∧
      memGet s.dec.txt (s.dec.pc + 1) = some b2) ∧
    let s := dec [0x41#8, 0xDE#8] 1 0x82#8 7#3
    s.dec.done = false ∧ s.dec.pc < s.dec.tlen ∧ ¬ s.dec.pc + 1 < s.dec.tlen := by decide

theorem witness_StepRunsDecodedUnit :
    let s := dec [0x41#8, 0xDE#8, 0x8A#8, 0x20#8] 1 0x82#8 7#3
    s.dec.txt = bufferOf [0x41#8, 0xDE#8, 0x8A#8, 0x20#8] ∧ s.dec.tlen = 4 ∧ s.dec.done = false ∧
    s.script = [] ∧
    decodeUnit s.strict ([0x41#8, 0xDE#8, 0x8A#8, 0x20#8].drop s.dec.pc) =
      .ok (.escs 0x0A#7, [0x20#8]) := by decide

theorem witness_FetchedWordRuns :
    State.reset.strict = Config.strict ∧ decodeTableWord 8 0xC0 = some (.illTrunc 0#5) ∧
    decodeTableWord 16 0xC280 = some (.esc0 0#7) := by decide

theorem witness_EndOfTextSetsDone :
    (dec [0x41#8] 1 0x82#8 7#3).dec.done = false ∧
    (dec [0x41#8] 1 0x82#8 7#3).dec.tlen ≤ (dec [0x41#8] 1 0x82#8 7#3).dec.pc := by decide

theorem witness_StepAfterDoneDoesNothing :
    (encSetDone State.reset.enc).done = true ∧ (decSetDone State.reset.dec).done = true := by decide

theorem witness_DecodeOfValidText :
    parseText State.reset.strict [0xC6#8, 0x8A#8, 0xDE#8, 0x80#8] =
      .ok [0x0A#7, 0x0A#7, 0x00#7] := by decide

theorem witness_DecodeOfInvalidText :
    parseText State.reset.strict [0x41#8, 0xDE#8] = .error (.trunc, 1) := by decide

theorem witness_PrefixBeforeFaultDecodes :
    (after (exec .decode (placeText State.reset [0x20#8, 0x40#8, 0xE2#8]))).map
      (fun t => t.dec.err) = some true := by decide

theorem witness_ConcatenationAtSevenBytes :
    [0xFF#8, 0xFF#8, 0xFF#8, 0xFF#8, 0xFF#8, 0xFF#8, 0x80#8].length % 7 = 0 := by decide

theorem witness_EnginesShareNoState :
    (after (exec .get7 (enc [0x41#8] 0))).isSome = true ∧ isEncInstr .get7 = true ∧
    (after (exec (.lit 0x41#7) State.reset)).isSome = true ∧ isEncInstr (.lit 0x41#7) = false ∧
    (enc [0x41#8] 0).dec = State.reset.dec ∧ (enc [0x41#8] 0).strict = State.reset.strict := by decide

theorem witness_InterleavingIsIrrelevant :
    let cs := [HostCmd.encStep, .decStep, .encStep]
    let s := placeText (enc [0x41#8] 0) [0xDA#8]
    (after (runScript (cs.filter HostCmd.isEnc) s)).isSome = true ∧
    (after (runScript (cs.filter fun c => !c.isEnc) s)).isSome = true := by decide

theorem witness_InputsAreNeverWritten :
    (after (exec .encode (enc [0x41#8] 0))).isSome = true := by decide

/-- A run that raises, and a DEC.START after it. -/
theorem witness_ErrorFlagSetAndCleared :
    (after (exec .decStep (dec [0xDA#8, 0x80#8] 0 0#8 0#3))).map
      (fun t => (t.dec.err, (after (exec .decStart t)).map fun u => u.dec.err)) =
      some (true, some false) := by decide

theorem witness_ProgramCounterMoves :
    (after (exec .decStep (dec [0xDE#8, 0x80#8] 0 0#8 0#3))).map (fun t => t.dec.pc) = some 2 ∧
    Instr.decStep ≠ .decode := by decide

/-- Both clauses: a PUT1 after another, and a LIT after seven bits. -/
theorem witness_OutputsAreAppendOnly :
    ((after (exec (.put1 0x20#7) State.reset)).bind fun t => after (exec (.put1 0x21#7) t)).map
      (fun t => t.enc.olen) = some 2 ∧
    (after (exec (.lit 0x21#7) (dec [] 0 0#8 7#3))).map (fun t => (t.dec.olen, t.dec.err)) =
      some (1, false) := by decide

/-- An encode run in its middle and a decode run at its start, the next command an ENC.STEP. -/
def midRun : State :=
  let s := placeText (enc [0x41#8] 7) [0x20#8, 0x40#8]
  setScript (setEnc s { s.enc with out := ⟨[(0, 0x20#8)]⟩, olen := 1 }) [.encStep]

theorem witness_StepKeepsInvariant : Inv midRun ∧ (after (step midRun)).isSome = true := by
  have hsafe : ∀ cell ∈ midRun.enc.out.cells, safeByte cell.2 := by
    intro cell hc
    obtain rfl : cell = (0, 0x20#8) := List.mem_singleton.1 hc
    unfold safeByte
    decide
  refine ⟨⟨⟨?_, ?_, ?_, ?_, ?_, ?_, ?_, hsafe⟩, ⟨?_, ?_, ?_, ?_, ?_, ?_, ?_, ?_⟩⟩, ?_⟩ <;> decide

theorem witness_StepNeverStops : Inv midRun := witness_StepKeepsInvariant.1

/-- A read at the length of a placed input, and below the length where nothing was placed. -/
theorem witness_ReadsOutsideTheInputStop :
    (enc [0x41#8] 0).enc.len ≤ 1 ∧ (dec [0x41#8] 0 0#8 0#3).dec.tlen ≤ 1 ∧
    (let e := { (enc [0x41#8] 0).enc with len := 2 }
     1 < e.len ∧ memGet e.inp 1 = none) ∧
    let d := { (dec [0x41#8] 0 0#8 0#3).dec with tlen := 2 }
    1 < d.tlen ∧ memGet d.txt 1 = none := by decide

end Sys2Proof.Tests
end

section
/-! SUPPORT. The first-byte map (30_encoding.md R86 to R90): the ranges that frame a unit, the scalar of
a two-byte unit from its fields, and the unit that each index field and fixed bit select. -/

namespace Sys2Proof

open Sys2Proof.Machine

/-! ### The ranges of a byte -/

theorem topBit_clear_iff {b : Byte} : b.getLsbD 7 = false ↔ b.toNat ≤ 0x7F := by
  revert b
  decide

theorem beginsEscape_iff {b : Byte} :
    beginsEscape b = true ↔ 0xC0 ≤ b.toNat ∧ b.toNat ≤ 0xDF := by
  revert b
  decide

theorem isContinuation_iff {b : Byte} :
    isContinuation b = true ↔ 0x80 ≤ b.toNat ∧ b.toNat ≤ 0xBF := by
  revert b
  decide

/-! ### The unit decoder by the range of its first byte (R87, R90) -/

section
variable {strict : Bool} {b1 b2 : Byte} {rest : List Byte}

theorem decodeUnit_literal (h : b1.toNat ≤ 0x7F) :
    decodeUnit strict (b1 :: rest) = .ok (.lit (b1.extractLsb' 0 7), rest) := by
  rw [decodeUnit.eq_def]
  exact if_pos (topBit_clear_iff.2 h)

theorem decodeUnit_lead (h : (0x80 ≤ b1.toNat ∧ b1.toNat ≤ 0xBF) ∨ 0xE0 ≤ b1.toNat) :
    ∃ i, decodeUnit strict (b1 :: rest) = .ok (i, rest) ∧ unitCause i = some .lead := by
  have h7 : ¬ b1.getLsbD 7 = false := by rw [topBit_clear_iff]; omega
  have he : ¬ beginsEscape b1 = true := by rw [beginsEscape_iff]; omega
  simp only [decodeUnit.eq_def, if_neg h7, if_neg he]
  cases b1.getLsbD 6
  · exact ⟨_, rfl, rfl⟩
  · exact ⟨_, rfl, rfl⟩

theorem topBit_of_beginsEscape (h : beginsEscape b1 = true) : ¬ b1.getLsbD 7 = false := by
  have := beginsEscape_iff.1 h
  rw [topBit_clear_iff]
  omega

theorem decodeUnit_trunc (h : beginsEscape b1 = true) :
    decodeUnit strict [b1] = .ok (.illTrunc (b1.extractLsb' 0 5), []) := by
  rw [decodeUnit, if_neg (topBit_of_beginsEscape h), if_pos h]

theorem decodeUnit_cont (h : beginsEscape b1 = true) (h2 : ¬ isContinuation b2 = true) :
    decodeUnit strict (b1 :: b2 :: rest) = .ok (.illCont (b1.extractLsb' 0 5) b2, rest) := by
  rw [decodeUnit, if_neg (topBit_of_beginsEscape h), if_pos h]
  exact if_neg h2

theorem decodeUnit_twoBytes (h : beginsEscape b1 = true) (h2 : isContinuation b2 = true) :
    decodeUnit strict (b1 :: b2 :: rest) = .ok (scalarUnit strict (unitScalar b1 b2), rest) := by
  rw [decodeUnit, if_neg (topBit_of_beginsEscape h), if_pos h]
  exact if_pos h2

end

/-! ### The scalar from its fields (R86) -/

/-- The scalar of index field k, fixed bit f and payload p. -/
def scalarOf (k : IndexField) (f : Bool) (p : Chunk) : Scalar := k ++ BitVec.ofBool f ++ p

/-- The number of two strings of bits set side by side. -/
theorem toNat_append_eq_add {m n : Nat} (x : BitVec m) (y : BitVec n) :
    (x ++ y).toNat = 2 ^ n * x.toNat + y.toNat := by
  rw [BitVec.toNat_append, ← Nat.shiftLeft_add_eq_or_of_lt y.isLt, Nat.shiftLeft_eq, Nat.mul_comm]

theorem scalarOf_toNat (k : IndexField) (f : Bool) (p : Chunk) :
    (scalarOf k f p).toNat = 256 * k.toNat + 128 * f.toNat + p.toNat := by
  simp only [scalarOf, toNat_append_eq_add, BitVec.toNat_ofBool]
  omega

@[simp] theorem scalarIndex_scalarOf (k : IndexField) (f : Bool) (p : Chunk) :
    scalarIndex (scalarOf k f p) = k := by
  have hk := k.isLt
  have hf := Bool.toNat_lt f
  have hp := p.isLt
  apply BitVec.eq_of_toNat_eq
  rw [scalarIndex, BitVec.extractLsb'_toNat, scalarOf_toNat, Nat.shiftRight_eq_div_pow]
  omega

@[simp] theorem scalarFixed_scalarOf (k : IndexField) (f : Bool) (p : Chunk) :
    scalarFixed (scalarOf k f p) = f := by
  have hp := p.isLt
  rw [scalarFixed, BitVec.getLsbD, scalarOf_toNat, Nat.testBit_eq_decide_div_mod_eq]
  cases f <;> simp <;> omega

@[simp] theorem scalarPayload_scalarOf (k : IndexField) (f : Bool) (p : Chunk) :
    scalarPayload (scalarOf k f p) = p := by
  have hp := p.isLt
  apply BitVec.eq_of_toNat_eq
  rw [scalarPayload, BitVec.extractLsb'_toNat, scalarOf_toNat, Nat.shiftRight_zero]
  omega

/-- A scalar is below 128 exactly where its index field and its fixed bit are 0. -/
theorem scalarOf_lt_iff {k : IndexField} {f : Bool} {p : Chunk} :
    scalarOf k f p < 128#11 ↔ k = 0#3 ∧ f = false := by
  have hp := p.isLt
  rw [BitVec.lt_def, scalarOf_toNat, BitVec.toNat_eq]
  cases f <;> simp <;> omega

/-- The units with the fixed bit set, by index field (R88, R168 checks 6 and 7). -/
theorem scalarUnit_fixed_set (strict : Bool) (k : IndexField) (p : Chunk) :
    scalarUnit strict (scalarOf k true p) =
      if k = 0#3 then .esc0 p else if k = 1#3 then .esc1 p else if k = 2#3 then .esc2 p
      else if k = 3#3 then .esc3 p else if k = 4#3 then .esc4 p else if k = 5#3 then .esc5 p
      else if k = 6#3 then .illIndex6 p
      else if strict && !Config.inDtab p then .illShortpay p else .escs p := by
  simp [scalarUnit, scalarOf_lt_iff]

/-- The units with the fixed bit clear, by index field and STRICT (R89, R168 checks 4 and 5). -/
theorem scalarUnit_fixed_clear (strict : Bool) (k : IndexField) (p : Chunk) :
    scalarUnit strict (scalarOf k false p) =
      if k = 0#3 then .illOverlong p else if strict then .illFixed k p
      else if h : k.toNat < 6 then .esckF0 ⟨k.toNat, h⟩ p
      else if k = 6#3 then .illIndex6F0 p else .escsF0 p := by
  simp [scalarUnit, scalarOf_lt_iff]

/-- The two first bytes `110kkkFp` of an index field and a fixed bit, one per payload bit (R84). -/
def firstBytes (k : IndexField) (f : Bool) : List Nat :=
  let n := 0xC0 + 4 * k.toNat + 2 * f.toNat
  [n, n + 1]

/-- The scalar of two bytes of such a unit is that of its fields (R86). -/
theorem unitScalar_firstBytes {b1 : Byte} {k : IndexField} {f : Bool}
    (h : b1.toNat ∈ firstBytes k f) (b2 : Byte) :
    unitScalar b1 b2 = scalarOf k f (b1.extractLsb' 0 1 ++ b2.extractLsb' 0 6) := by
  have hk := k.isLt
  have hf := Bool.toNat_lt f
  simp only [firstBytes, List.mem_cons, List.not_mem_nil, or_false] at h
  apply BitVec.eq_of_toNat_eq
  rw [scalarOf_toNat, unitScalar]
  simp only [toNat_append_eq_add, BitVec.extractLsb'_toNat, Nat.shiftRight_zero]
  omega

/-- A two-byte unit is selected by the index field and the fixed bit of its first byte (R89). -/
theorem decodeUnit_firstBytes {strict : Bool} {b1 b2 : Byte} {rest : List Byte} {k : IndexField}
    {f : Bool} (h : b1.toNat ∈ firstBytes k f) (h2 : isContinuation b2 = true) :
    decodeUnit strict (b1 :: b2 :: rest) =
      .ok (scalarUnit strict (scalarOf k f (b1.extractLsb' 0 1 ++ b2.extractLsb' 0 6)), rest) := by
  have hesc : beginsEscape b1 = true := by
    have hk := k.isLt
    have hf := Bool.toNat_lt f
    simp only [firstBytes, List.mem_cons, List.not_mem_nil, or_false] at h
    exact beginsEscape_iff.2 (by omega)
  rw [decodeUnit_twoBytes hesc h2, unitScalar_firstBytes h]

/-- The fourteen first bytes with the fixed bit clear that do not begin an overlong unit (R89). -/
theorem mem_firstBytes_fixed_clear {n : Nat}
    (h : n ∈ [0xC4, 0xC5, 0xC8, 0xC9, 0xCC, 0xCD, 0xD0, 0xD1, 0xD4, 0xD5, 0xD8, 0xD9, 0xDC, 0xDD]) :
    ∃ k : IndexField, k ≠ 0#3 ∧ n ∈ firstBytes k false := by
  revert n
  decide

end Sys2Proof

open Sys2Proof Sys2Proof.Machine

/-- Settles O3: the range of the first byte frames the unit; within `110xxxxx` its index field and
fixed bit select it. -/
theorem firstByteMap : Obligations.FirstByteMap := by
  refine ⟨?_, fun strict b1 rest h => decodeUnit_literal h, fun strict b1 rest h => decodeUnit_lead h,
    ?_⟩
  · intro strict b1 hlo hhi
    have hesc := beginsEscape_iff.2 ⟨hlo, hhi⟩
    refine ⟨⟨_, decodeUnit_trunc hesc, rfl⟩, fun b2 rest h2 => ⟨_, decodeUnit_cont hesc ?_, rfl⟩⟩
    rw [isContinuation_iff]
    omega
  · intro strict b1 b2 rest hlo hhi n p unit ill
    have hunit : ∀ k f, n ∈ firstBytes k f → unit (scalarUnit strict (scalarOf k f p)) :=
      fun k f h => decodeUnit_firstBytes h (isContinuation_iff.2 ⟨hlo, hhi⟩)
    simp only [Bool.forall_bool, scalarUnit_fixed_set, scalarUnit_fixed_clear, forall_and] at hunit
    obtain ⟨hclear, hset⟩ := hunit
    refine ⟨fun h => ⟨_, hclear 0#3 h, rfl⟩, ?_, hset 0#3, hset 1#3, hset 2#3, hset 3#3, hset 4#3,
      hset 5#3, fun h => ⟨_, hset 6#3 h, rfl⟩, ?_, ?_⟩
    · rintro hstrict h
      obtain ⟨k, hk, hn⟩ := mem_firstBytes_fixed_clear h
      have hfixed := hclear k hn
      rw [if_neg hk, if_pos hstrict] at hfixed
      exact ⟨_, hfixed, rfl⟩
    · intro h
      have hshort := hset 7#3 h
      split
      · next hc => exact ⟨_, by simpa [hc.1, hc.2] using hshort, rfl⟩
      · next hc => simpa [hc] using hshort
    · rintro rfl
      exact ⟨hclear 1#3, hclear 2#3, hclear 3#3, hclear 4#3, hclear 5#3,
        fun h => ⟨_, hclear 6#3 h, rfl⟩, hclear 7#3⟩
end

section
/-! SUPPORT. The output of an encode run: what appends, ENC.STEP and the whole loop keep, and that no
byte of it is a dangerous value (30_encoding.md R98). -/

open Sys2Proof Sys2Proof.Machine

namespace Sys2Proof.Machine

/-! ### Safe bytes -/

/-- The six dangerous values written out (10_state.md R34). -/
theorem safeByte_iff {b : Byte} :
    safeByte b ↔ b.toNat ≠ 0x00 ∧ b.toNat ≠ 0x0A ∧ b.toNat ≠ 0x0D ∧ b.toNat ≠ 0x22 ∧
      b.toNat ≠ 0x26 ∧ b.toNat ≠ 0x5C := by
  simp [safeByte, Fin.forall_fin_succ, Config.dtab, BitVec.toNat_eq]

/-- A byte with its top bit set is safe: every dangerous value is below 0x80. -/
theorem safeByte_of_topBit {b : Byte} (h : b.getLsbD 7 = true) : safeByte b := by
  rintro k rfl
  simp at h

theorem safeByte_escByte1 (k : IndexField) (p : Chunk) : safeByte (escByte1 k p) :=
  safeByte_of_topBit (by simp [escByte1])

theorem safeByte_escByte2 (p : Chunk) : safeByte (escByte2 p) :=
  safeByte_of_topBit (by simp [escByte2])

/-- The literal byte of a safe chunk is safe: it equals a dangerous value only if the chunk does. -/
theorem safeByte_literal {c : Chunk} (h : classOf c = .safe) : safeByte (c.setWidth 8) := by
  intro k hk
  have hc : Config.dtab[k] = c := by
    have := congrArg (BitVec.setWidth 7) hk
    simpa using this.symm
  rw [classOf_dangerous.2 hc] at h
  cases h

/-! ### The bytes of ENC.OUT -/

/-- The text in ENC.OUT. -/
def encText (e : Enc) : List Byte := bufferBytes e.out e.olen

@[simp] theorem encText_encAppend (b : Byte) (e : Enc) :
    encText (encAppend b e) = encText e ++ [b] := by
  simp [encText, bufferBytes_memPut]

@[simp] theorem encText_encClear (e : Enc) : encText (encClear e) = [] := rfl
@[simp] theorem encText_cursorAt (e : Enc) (p : Nat) : encText (cursorAt e p) = encText e := rfl
@[simp] theorem encText_encSetDone (e : Enc) : encText (encSetDone e) = encText e := rfl

/-- All that ENC.STEP can append: nothing, the literal of a safe chunk, or an escape (R148). -/
theorem encText_encodeStep {e e' : Enc} (h : encodeStep e = .next e') :
    encText e' = encText e ∨
    (∃ c, classOf c = .safe ∧ encText e' = encText e ++ [c.setWidth 8]) ∨
    ∃ k p, encText e' = encText e ++ escapeBytes k p := by
  rcases encodeStep_cases h with ⟨-, rfl⟩ | ⟨-, -, rfl⟩ | ⟨-, -, c, hc, rfl⟩ |
    ⟨-, -, -, k, n, rfl⟩ | ⟨-, -, -, c, -, rfl⟩
  · exact .inl rfl
  · exact .inl rfl
  · exact .inr (.inl ⟨c, hc, by simp⟩)
  · exact .inr (.inr ⟨indexField k, n, by simp [escapeBytes]⟩)
  · exact .inr (.inr ⟨7#3, c, by simp [escapeBytes]⟩)

/-- ENC.STEP keeps the text free of dangerous values (R98). -/
theorem encodeStep_keeps_safe {e e' : Enc} (hs : ∀ b ∈ encText e, safeByte b)
    (h : encodeStep e = .next e') : ∀ b ∈ encText e', safeByte b := by
  rcases encText_encodeStep h with ht | ⟨c, hc, ht⟩ | ⟨k, p, ht⟩ <;> rw [ht]
  · exact hs
  · simpa [or_imp, forall_and] using ⟨hs, safeByte_literal hc⟩
  · simpa [escapeBytes, or_imp, forall_and] using
      ⟨hs, safeByte_escByte1 k p, safeByte_escByte2 p⟩

/-! ### The encode loop -/

/-- ENC.STEP leaves the input as the host placed it (R62). -/
theorem encodeStep_input {e e' : Enc} (h : encodeStep e = .next e') :
    e'.inp = e.inp ∧ e'.len = e.len := by
  rcases encodeStep_cases h with ⟨-, rfl⟩ | ⟨-, -, rfl⟩ | ⟨-, -, c, -, rfl⟩ |
    ⟨-, -, -, k, n, rfl⟩ | ⟨-, -, -, c, -, rfl⟩ <;> simp

/-- What every ENC.STEP keeps, the encode loop keeps (R149). -/
theorem encodeLoop_keeps {P : Enc → Prop}
    (hstep : ∀ {e e'}, P e → encodeStep e = .next e' → P e') {n : Nat} {e e' : Enc} (he : P e)
    (h : encodeLoop n e = .next e') : P e' := by
  induction n generalizing e with
  | zero =>
    obtain rfl : e = e' := by simpa [encodeLoop] using h
    exact he
  | succ n ih =>
    unfold encodeLoop at h
    split at h
    · obtain rfl : e = e' := by simpa using h
      exact he
    · obtain ⟨e1, h1, h2⟩ := andThen_eq_next.1 h
      exact ih (hstep he h1) h2

/-- The encode loop completes with a placed input (R149). -/
theorem encodeLoop_completes {n : Nat} {e : Enc} (hd : e.inp.dense e.len) :
    ∃ e', encodeLoop n e = .next e' := by
  induction n generalizing e with
  | zero => exact ⟨e, rfl⟩
  | succ n ih =>
    unfold encodeLoop
    split
    · exact ⟨e, rfl⟩
    · obtain ⟨e1, h1⟩ := encodeStep_completes hd
      obtain ⟨hi, hl⟩ := encodeStep_input h1
      obtain ⟨e2, h2⟩ := ih (e := e1) (by rw [hi, hl]; exact hd)
      exact ⟨e2, andThen_eq_next.2 ⟨e1, h1, h2⟩⟩

/-- ENCODE is its loop from ENC.START, with the text in the return register (R149). -/
theorem exec_encode_of_loop {s : State} {e : Enc}
    (h : encodeLoop (encodeBound s.enc.len) (encClear s.enc) = .next e) :
    exec .encode s = .next (setEnc s (setEncRet e (.text (encText e)))) :=
  andThen_eq_next.2 ⟨e, h, rfl⟩

end Sys2Proof.Machine

/-- Settles O23: the text is free of dangerous values after ENC.START and every ENC.STEP keeps it so. -/
theorem outputBytesSafe : Obligations.OutputBytesSafe := by
  intro s bytes
  obtain ⟨e, he⟩ := encodeLoop_completes (n := encodeBound (placeInput s bytes).enc.len)
    (e := encClear (placeInput s bytes).enc) (bufferOf_dense bytes)
  have hsafe : ∀ b ∈ encText e, safeByte b :=
    encodeLoop_keeps (P := fun e => ∀ b ∈ encText e, safeByte b) encodeStep_keeps_safe (by simp) he
  exact ⟨_, exec_encode_of_loop he, fun b hb => safeByte_iff.1 (hsafe b hb)⟩
end

section
/-! SUPPORT. The extractor as a reader of the bit stream (40_extractor.md): the chunk of two bytes as a
window of their sixteen bits, the bits of a chunk of the stream, and what a run of calls draws. -/

open Sys2Proof Sys2Proof.Machine

namespace Sys2Proof.Machine

/-! ### The window of two bytes (R113) -/

/-- The chunk of two bytes is the seven of their sixteen bits that follow the first `o`. -/
theorem joinBytes_eq_window {o : Nat} (ho : o < 8) (cur nxt : Byte) :
    joinBytes o cur nxt = (cur ++ nxt).extractLsb' (9 - o) 7 := by
  apply BitVec.eq_of_getLsbD_eq
  intro i hi
  simp only [joinBytes, BitVec.getLsbD_or, BitVec.getLsbD_setWidth, BitVec.getLsbD_ushiftRight,
    BitVec.getLsbD_shiftLeft, BitVec.getLsbD_extractLsb', BitVec.getLsbD_append, hi, decide_true,
    Bool.true_and]
  by_cases hlow : 9 - o + i < 8
  · have hcur : 1 + i < o := by omega
    simp [hlow, hcur]
  · have hnxt : nxt.getLsbD (9 - o + i) = false := BitVec.getLsbD_of_ge _ _ (by omega)
    have hcur : ¬ 1 + i < o := by omega
    have hin : 1 + i < 8 := by omega
    have hidx : 9 - o + i - 8 = 1 + i - o := by omega
    simp [hlow, hnxt, hcur, hin, hidx]

/-- A window within the first byte. -/
theorem window_of_first (cur nxt : Byte) (start len : Nat) :
    (cur ++ nxt).extractLsb' (8 + start) len = cur.extractLsb' start len := by
  rw [BitVec.extractLsb'_append_eq_of_le (Nat.le_add_right 8 start), Nat.add_sub_cancel_left]

/-- A window across the two bytes: the low `a` bits of the first, then the top `b` of the second. -/
theorem window_across (cur nxt : Byte) (a b : Nat) (hb : b ≤ 8) :
    (cur ++ nxt).extractLsb' (8 - b) (a + b) = cur.extractLsb' 0 a ++ nxt.extractLsb' (8 - b) b := by
  have hsplit : 8 + 0 = 8 - b + b := by omega
  rw [← BitVec.extractLsb'_append_extractLsb'_eq_extractLsb' hsplit, window_of_first,
    BitVec.extractLsb'_append_eq_of_add_le (by omega)]

/-! ### GET7 from the bytes that it reads (R110) -/

/-- GET7 needs only the bytes it reads: the current one, and the next one where there is one. Moving on
by 7 bits takes 1 from ENC.BO modulo 8, and the next byte begins unless ENC.BO was 0. -/
theorem extract_of_bytes {e : Enc} {cur nxt : Byte} (h : e.bi < e.len)
    (hcur : memGet e.inp e.bi = some cur)
    (hnxt : if e.bi + 1 < e.len then memGet e.inp (e.bi + 1) = some nxt else nxt = 0#8) :
    extract e = .next (some (joinBytes e.bo.toNat cur nxt),
      { e with bo := e.bo - 1#3, bi := if e.bo = 0#3 then e.bi else e.bi + 1 }) := by
  have hne : ¬ e.len ≤ e.bi := by omega
  have hread : readInput e e.bi = .next cur := memRead_eq_next.2 ⟨h, hcur⟩
  simp only [extract, encExhausted, hne, decide_false, hread, andThen_next, Bool.false_eq_true,
    if_false]
  by_cases h0 : e.bo = 0#3
  · have hjoin : joinBytes 0 cur nxt = ((cur <<< 0) >>> 1).setWidth 7 := by
      simp [joinBytes, BitVec.ushiftRight_eq_zero (show 8 ≤ 9 by decide)]
    simp [h0, hjoin]
  · have hpos : 0 < e.bo.toNat := Nat.pos_of_ne_zero fun h => h0 (BitVec.eq_of_toNat_eq h)
    have hbo : BitVec.ofNat 3 (e.bo.toNat + 7 - 8) = e.bo - 1#3 := by bv_omega
    have hcross : ¬ e.bo.toNat + 7 < 8 := by omega
    have hshift : 8 - (e.bo.toNat + 7 - 8) = 9 - e.bo.toNat := by omega
    simp only [hcross, h0, if_false, hbo, hshift]
    by_cases hend : e.len ≤ e.bi + 1
    · obtain rfl : nxt = 0#8 := by simpa [Nat.not_lt.2 hend] using hnxt
      simp [hend, joinBytes_zero]
    · have hlt : e.bi + 1 < e.len := by omega
      rw [if_pos hlt] at hnxt
      have hread' : memRead .encIn e.inp e.len (e.bi + 1) = .next nxt := memRead_eq_next.2 ⟨hlt, hnxt⟩
      simp [hend, readInput, hread', joinBytes]

/-! ### The bits of a chunk of the stream (R10, R111) -/

theorem streamBit_eq (bytes : List Byte) (i : Nat) :
    streamBit bytes i = (bytes.getD (i / 8) 0#8).getLsbD (7 - i % 8) := by
  rw [streamBit, List.getD_eq_getElem?_getD]
  cases bytes[i / 8]? <;> simp

/-- The stream reads as 0 beyond its end (R10). -/
theorem streamBit_beyond {bytes : List Byte} {i : Nat} (h : 8 * bytes.length ≤ i) :
    streamBit bytes i = false := by
  have hnone : bytes[i / 8]? = none := List.getElem?_eq_none (by omega)
  simp [streamBit, hnone]

theorem bitsToNat_append_singleton (bits : List Bool) (b : Bool) :
    bitsToNat (bits ++ [b]) = 2 * bitsToNat bits + b.toNat := by
  simp [bitsToNat]

/-- Bit i of the number of n bits is the i-th from the last, and 0 from n on. -/
theorem testBit_bitsToNat (f : Nat → Bool) (n i : Nat) :
    (bitsToNat ((List.range n).map f)).testBit i = (decide (i < n) && f (n - 1 - i)) := by
  induction n generalizing i with
  | zero => simp [bitsToNat]
  | succ n ih =>
    rw [List.range_succ, List.map_append, List.map_singleton, bitsToNat_append_singleton]
    cases i with
    | zero => cases h : f n <;> simp [Nat.add_mod, h]
    | succ i =>
      have hhalf : (2 * bitsToNat ((List.range n).map f) + (f n).toNat) / 2 =
          bitsToNat ((List.range n).map f) := by
        have := Bool.toNat_lt (f n)
        omega
      have hidx : n + 1 - 1 - (i + 1) = n - 1 - i := by omega
      rw [Nat.testBit_add_one, hhalf, ih, hidx]
      simp

/-- The bits of a chunk are seven of the stream, the first of them at the top (R111). -/
theorem getLsbD_chunkFrom (bytes : List Byte) (p : Nat) {i : Nat} (hi : i < 7) :
    (chunkFrom bytes p).getLsbD i = streamBit bytes (p + (6 - i)) := by
  rw [chunkFrom, BitVec.getLsbD_ofNat, testBit_bitsToNat]
  simp [hi]

/-- The chunk of two neighbouring bytes of the stream is the chunk of the stream there (R111, R113). -/
theorem joinBytes_eq_chunkFrom (bytes : List Byte) (a : Nat) {o : Nat} (ho : o < 8) :
    joinBytes o (bytes.getD a 0#8) (bytes.getD (a + 1) 0#8) = chunkFrom bytes (8 * a + o) := by
  apply BitVec.eq_of_getLsbD_eq
  intro i hi
  rw [joinBytes_eq_window ho, getLsbD_chunkFrom bytes _ hi, streamBit_eq, BitVec.getLsbD_extractLsb',
    BitVec.getLsbD_append]
  by_cases hlow : 9 - o + i < 8
  · have hbyte : (8 * a + o + (6 - i)) / 8 = a + 1 := by omega
    have hbit : 7 - (8 * a + o + (6 - i)) % 8 = 9 - o + i := by omega
    rw [hbyte, hbit, if_pos hlow]
    simp [hi]
  · have hbyte : (8 * a + o + (6 - i)) / 8 = a := by omega
    have hbit : 7 - (8 * a + o + (6 - i)) % 8 = 9 - o + i - 8 := by omega
    rw [hbyte, hbit, if_neg hlow]
    simp [hi]

/-! ### The number of chunks (R112) -/

/-- Chunk q exists exactly where its first bit is one of the input. -/
theorem lt_chunkCount_iff {q n : Nat} : q < chunkCount n ↔ 7 * q < 8 * n := by
  simp only [chunkCount]
  omega

/-- The zero-fill bits of the last chunk, by n mod 7 (R112). -/
def zeroFill (n : Nat) : Nat := [0, 6, 5, 4, 3, 2, 1].getD (n % 7) 0

theorem zeroFill_eq (n : Nat) : zeroFill n = 6 * (n % 7) % 7 := by
  have htable : ∀ r < 7, [0, 6, 5, 4, 3, 2, 1].getD r 0 = 6 * r % 7 := by decide
  exact htable _ (Nat.mod_lt n (by decide))

/-- The chunks hold the bits of the input and the fill bits. -/
theorem chunkCount_zeroFill (n : Nat) : 7 * chunkCount n = 8 * n + zeroFill n := by
  simp only [chunkCount, zeroFill_eq]
  omega

/-- The cursor after the last chunk (R112). -/
theorem cursor_at_last (n : Nat) :
    7 * chunkCount n / 8 = n ∧ 7 * chunkCount n % 8 = zeroFill n := by
  have hsum := chunkCount_zeroFill n
  have hfill := zeroFill_eq n
  omega

/-- The fill bits of the last chunk are 0. -/
theorem lastChunk_fill {bytes : List Byte} (h : 0 < bytes.length) :
    (chunkFrom bytes (7 * (chunkCount bytes.length - 1))).toNat % 2 ^ zeroFill bytes.length = 0 := by
  have hsum := chunkCount_zeroFill bytes.length
  have hfill := zeroFill_eq bytes.length
  apply Nat.eq_of_testBit_eq
  intro i
  rw [Nat.testBit_mod_two_pow, Nat.zero_testBit, Bool.and_eq_false_imp]
  intro hi
  have hlt : i < zeroFill bytes.length := by simpa using hi
  rw [BitVec.testBit_toNat, getLsbD_chunkFrom _ _ (by omega)]
  exact streamBit_beyond (by omega)

/-! ### What a run of calls draws (R111, R112) -/

section
variable {e : Enc} {bytes : List Byte}

theorem inputByte_placed (hin : e.inp = bufferOf bytes) (hlen : e.len = bytes.length) (a : Nat) :
    inputByte e a = bytes.getD a 0#8 := by
  rw [inputByte, hin, hlen, memGet_bufferOf, List.getD_eq_getElem?_getD]
  split
  · rfl
  · next h => simp [List.getElem?_eq_none (Nat.not_lt.1 h)]

/-- GET7 on a placed input returns the chunk of the stream at its cursor (R111). -/
theorem extract_placed (hin : e.inp = bufferOf bytes) (hlen : e.len = bytes.length)
    (h : cursorBit e < 8 * e.len) :
    extract e = .next (some (chunkFrom bytes (cursorBit e)), cursorAt e (cursorBit e + 7)) := by
  have hbi : e.bi < e.len := by
    unfold cursorBit at h
    omega
  have hdense : e.inp.dense e.len := by
    rw [hin, hlen]
    exact bufferOf_dense bytes
  rw [extract_within hbi hdense, inputByte_placed hin hlen, inputByte_placed hin hlen,
    joinBytes_eq_chunkFrom bytes e.bi e.bo.isLt, cursorBit]

/-- GET7 with its cursor at or beyond the end of the stream returns None (R111). -/
theorem extract_beyond (h : 8 * e.len ≤ cursorBit e) : extract e = .next (none, e) :=
  extract_exhausted (by simpa [encExhausted] using (exhausted_iff e).2 h)

/-- Calls of GET7 from chunk q on draw the chunks of the stream in order, as many as are called for and
are left. -/
theorem drawChunks_from (hin : e.inp = bufferOf bytes) (hlen : e.len = bytes.length) (calls q : Nat) :
    let drawn := min calls (chunkCount e.len - q)
    drawChunks calls (cursorAt e (7 * q)) =
      .next ((List.range' q drawn).map fun i => chunkFrom bytes (7 * i),
        cursorAt e (7 * (q + drawn))) := by
  induction calls generalizing q with
  | zero => simp [drawChunks]
  | succ calls ih =>
    by_cases hq : q < chunkCount e.len
    · have hcall := extract_placed (e := cursorAt e (7 * q)) hin hlen
        (by simpa using lt_chunkCount_iff.1 hq)
      have hdrawn : min (calls + 1) (chunkCount e.len - q) =
          min calls (chunkCount e.len - (q + 1)) + 1 := by omega
      simp only [cursorBit_cursorAt, cursorAt_cursorAt] at hcall
      simp only [drawChunks, hcall, andThen_next, hdrawn, List.range'_succ, List.map_cons]
      rw [← Nat.mul_succ, ih (q + 1)]
      simp [Nat.add_assoc, Nat.add_comm 1]
    · have hcall := extract_beyond (e := cursorAt e (7 * q))
        (by simpa using fun h => hq (lt_chunkCount_iff.2 h))
      have hnone : chunkCount e.len - q = 0 := by omega
      simp [drawChunks, hcall, hnone]

/-- Calls of GET7 since ENC.START. -/
theorem drawChunks_encClear (hin : e.inp = bufferOf bytes) (hlen : e.len = bytes.length)
    (calls : Nat) :
    let drawn := min calls (chunkCount e.len)
    drawChunks calls (encClear e) =
      .next ((List.range drawn).map fun i => chunkFrom bytes (7 * i),
        cursorAt (encClear e) (7 * drawn)) := by
  have hstart : cursorAt (encClear e) 0 = encClear e := rfl
  simpa [List.range_eq_range', hstart] using drawChunks_from (e := encClear e) hin hlen calls 0

end

end Sys2Proof.Machine

/-- Settles O12: GET7 takes a window of two bytes, which each row splits at the byte boundary. -/
theorem extractByBitOffset : Obligations.ExtractByBitOffset := by
  intro e cur nxt hbi hcur hnxt answer
  have hrow : ∀ o c, e.bo = o → (cur ++ nxt).extractLsb' (9 - o.toNat) 7 = c →
      answer c (o - 1#3) (if o = 0#3 then e.bi else e.bi + 1) := by
    rintro _ _ rfl rfl
    rw [← joinBytes_eq_window e.bo.isLt]
    exact extract_of_bytes hbi hcur hnxt
  have hacross := window_across cur nxt
  exact ⟨fun h => hrow _ _ h (window_of_first cur nxt 1 7),
    fun h => hrow _ _ h (window_of_first cur nxt 0 7),
    fun h => hrow _ _ h (hacross 6 1 (by decide)), fun h => hrow _ _ h (hacross 5 2 (by decide)),
    fun h => hrow _ _ h (hacross 4 3 (by decide)), fun h => hrow _ _ h (hacross 3 4 (by decide)),
    fun h => hrow _ _ h (hacross 2 5 (by decide)), fun h => hrow _ _ h (hacross 1 6 (by decide))⟩

/-- Settles O10: GET7 on a placed input is the chunk of the stream at its cursor, and so is each of a
run of calls. -/
theorem extractTakesStreamSlice : Obligations.ExtractTakesStreamSlice := by
  intro e bytes hin hlen
  refine ⟨extract_beyond, fun h => ?_, fun j hj => ?_⟩
  · refine ⟨_, _, extract_placed hin hlen h, fun i hi => ?_, cursorBit_cursorAt e _, rfl⟩
    rw [getLsbD_chunkFrom _ _ (by omega), Nat.sub_sub_self (by omega)]
    rfl
  · simpa [Nat.min_eq_left hj] using drawChunks_encClear hin hlen j

/-- Settles O11: a run of calls draws as many chunks as are left, and 7 ceil(8n/7) bits are the 8n of
the input and the fill bits. -/
theorem extractorChunkCount : Obligations.ExtractorChunkCount := by
  intro e bytes hin hlen n m fill
  have hsum : 7 * m = 8 * n + fill := chunkCount_zeroFill n
  obtain ⟨hbi, hbo⟩ : 7 * m / 8 = n ∧ 7 * m % 8 = fill := cursor_at_last n
  have hdraw := drawChunks_encClear hin hlen
  simp only [hlen] at hdraw
  refine ⟨by omega, hsum, fun calls h => ?_, fun calls cs e' h hcs => ?_, fun h => ⟨?_, ?_⟩⟩
  · refine ⟨cursorAt (encClear e) (7 * m), ?_, hbi, (cursorAt_bo _ _).trans hbo, extract_beyond ?_⟩
    · rw [hdraw, Nat.min_eq_right h, chunksOf]
    · rw [cursorBit_cursorAt, cursorAt_len, encClear_len, hlen]
      omega
  · rw [hdraw, Nat.min_eq_left h.le] at hcs
    cases hcs
    simp
  · exact lastChunk_fill h
  · exact lt_chunkCount_iff.1 (by omega : m - 1 < m)
end

section
/-! SUPPORT. The classifier's partition of the 128 chunk values: the safe ones by their value, and the
six that are left (41_classifier.md R131). -/

open Sys2Proof Sys2Proof.Machine

namespace Sys2Proof.Machine

/-- A chunk is safe exactly where it is none of the six values of DTAB (R130). -/
theorem classOf_safe_iff_toNat {c : Chunk} :
    classOf c = .safe ↔ c.toNat ≠ 0x00 ∧ c.toNat ≠ 0x0A ∧ c.toNat ≠ 0x0D ∧ c.toNat ≠ 0x22 ∧
      c.toNat ≠ 0x26 ∧ c.toNat ≠ 0x5C := by
  rw [classOf_safe]
  simp [Config.inDtab, Config.dtab, BitVec.toNat_eq]

/-- The values that are not safe are those of DTAB, which lists them in increasing order (R34). -/
theorem filter_not_safe_range :
    ((List.range 128).filter fun n => !decide (classOf (BitVec.ofNat 7 n) = .safe)) =
      Config.dtab.toList.map BitVec.toNat := by
  decide

/-- Of the 128 chunk values the six of DTAB are not safe, so 122 are (R131). -/
theorem length_filter_safe_range :
    ((List.range 128).filter fun n => classOf (BitVec.ofNat 7 n) = .safe).length = 122 := by
  have hsplit := List.length_eq_length_filter_add (l := List.range 128)
    fun n => decide (classOf (BitVec.ofNat 7 n) = .safe)
  have hdangerous : (Config.dtab.toList.map BitVec.toNat).length = 6 := rfl
  rw [filter_not_safe_range, List.length_range, hdangerous] at hsplit
  omega

end Sys2Proof.Machine

/-- Settles O6: the seven ranges are what DTAB's six values leave of 0 to 127. -/
theorem safeChunkValues : Obligations.SafeChunkValues := by
  refine ⟨fun c => ?_, length_filter_safe_range⟩
  have hc := c.isLt
  rw [classOf_safe_iff_toNat]
  omega

/-- Settles O7: CLASS answers `dangerous k` exactly on DTAB[k], which is what DVAL of k returns. -/
theorem classDvalInverse : Obligations.ClassDvalInverse := by
  refine ⟨fun k => ⟨_, tableEntry_index k, classOf_dangerous.2 rfl⟩, fun c k h => ?_⟩
  rw [tableEntry_index, classOf_dangerous.1 h]
end

section
/-! SUPPORT. The packer (42_packer.md): what one ENC.STEP does on a placed input, the encode loop as `pack`
of the chunks that are left, and the size of a packed text. -/

open Sys2Proof Sys2Proof.Machine

namespace Sys2Proof.Machine

/-! ### ENC.STEP in each of its cases (R148) -/

section
variable {e : Enc} {bytes : List Byte} {c : Chunk} {k : Index}

theorem encodeStep_of_done (h : e.done = true) : encodeStep e = .next e := by
  simp [encodeStep, h]

theorem encodeStep_exhausted (hdone : e.done = false) (h : 8 * e.len ≤ cursorBit e) :
    encodeStep e = .next (encSetDone e) := by
  simp [encodeStep, hdone, extract_beyond h]

theorem encodeStep_safe (hin : e.inp = bufferOf bytes) (hlen : e.len = bytes.length)
    (hdone : e.done = false) (h : cursorBit e < 8 * e.len)
    (hc : classOf (chunkFrom bytes (cursorBit e)) = .safe) :
    encodeStep e = .next
      (emitLiteral (chunkFrom bytes (cursorBit e)) (cursorAt e (cursorBit e + 7))) := by
  simp [encodeStep, hdone, extract_placed hin hlen h, hc]

/-- The chunk after a dangerous one is drawn in the same step and not classified. -/
theorem encodeStep_pair (hin : e.inp = bufferOf bytes) (hlen : e.len = bytes.length)
    (hdone : e.done = false) (h : cursorBit e + 7 < 8 * e.len)
    (hc : classOf (chunkFrom bytes (cursorBit e)) = .dangerous k) :
    encodeStep e = .next (emitEscape (indexField k) (chunkFrom bytes (cursorBit e + 7))
      (cursorAt e (cursorBit e + 14))) := by
  have hfirst := extract_placed hin hlen (by omega : cursorBit e < 8 * e.len)
  have hsecond := extract_placed (e := cursorAt e (cursorBit e + 7)) hin hlen (by simpa using h)
  simp only [cursorBit_cursorAt, cursorAt_cursorAt] at hsecond
  simp [encodeStep, hdone, hfirst, hc, hsecond]

theorem encodeStep_last (hin : e.inp = bufferOf bytes) (hlen : e.len = bytes.length)
    (hdone : e.done = false) (h : cursorBit e < 8 * e.len) (hend : 8 * e.len ≤ cursorBit e + 7)
    (hc : classOf (chunkFrom bytes (cursorBit e)) = .dangerous k) :
    encodeStep e = .next
      (emitEscape 7#3 (chunkFrom bytes (cursorBit e)) (cursorAt e (cursorBit e + 7))) := by
  have hnone := extract_beyond (e := cursorAt e (cursorBit e + 7)) (by simpa using hend)
  simp [encodeStep, hdone, extract_placed hin hlen h, hc, hnone]

end

/-- ENC.STEP is the step of the encode engine. -/
theorem exec_encStep_of_step {s : State} {e : Enc} (h : encodeStep s.enc = .next e) :
    exec .encStep s = .next (setEnc s e) :=
  andThen_eq_next.2 ⟨e, h, rfl⟩

/-! ### `pack` by the class of the first chunk (R150) -/

section
variable {c n : Chunk} {k : Index} {rest : List Chunk}

theorem packChunks_safe (h : classOf c = .safe) :
    packChunks (c :: rest) = c.setWidth 8 :: packChunks rest := by
  cases rest <;> simp [packChunks, h]

theorem packChunks_pair (h : classOf c = .dangerous k) :
    packChunks (c :: n :: rest) = escapeBytes (indexField k) n ++ packChunks rest := by
  simp [packChunks, h]

theorem packChunks_last (h : classOf c = .dangerous k) : packChunks [c] = escapeBytes 7#3 c := by
  simp [packChunks, h]

end

/-- Induction over a chunk list as `pack` takes it apart: by a safe chunk, by a dangerous one with the
next, and by a dangerous one that is the last. -/
theorem packing_induction {motive : List Chunk → Prop} (nil : motive [])
    (safe : ∀ c rest, classOf c = .safe → motive rest → motive (c :: rest))
    (pair : ∀ c n rest k, classOf c = .dangerous k → motive rest → motive (c :: n :: rest))
    (last : ∀ c k, classOf c = .dangerous k → motive [] → motive [c]) (cs : List Chunk) :
    motive cs := by
  induction cs using packChunks.induct with
  | case1 => exact nil
  | case2 c hc => exact safe c [] hc nil
  | case3 c k hc => exact last c k hc nil
  | case4 c n rest hc ih => exact safe c (n :: rest) hc ih
  | case5 c n rest k hc ih => exact pair c n rest k hc ih

/-! ### The chunks left at a position of the cursor (R111, R112) -/

@[simp] theorem length_chunksOf (bytes : List Byte) :
    (chunksOf bytes).length = chunkCount bytes.length := by
  simp [chunksOf]

theorem drop_chunksOf_nil {bytes : List Byte} {q : Nat} (h : (chunksOf bytes).drop q = []) :
    8 * bytes.length ≤ 7 * q := by
  have hq : chunkCount bytes.length ≤ q := by simpa using h
  exact not_lt.1 fun hlt => absurd (lt_chunkCount_iff.2 hlt) (not_lt.2 hq)

theorem drop_chunksOf_cons {bytes : List Byte} {q : Nat} {c : Chunk} {rest : List Chunk}
    (h : (chunksOf bytes).drop q = c :: rest) :
    7 * q < 8 * bytes.length ∧ c = chunkFrom bytes (7 * q) ∧
      (chunksOf bytes).drop (q + 1) = rest := by
  have hq : q < (chunksOf bytes).length := by
    by_contra hge
    simp [List.drop_eq_nil_of_le (not_lt.1 hge)] at h
  rw [List.drop_eq_getElem_cons hq] at h
  obtain ⟨hc, hrest⟩ := List.cons.inj h
  refine ⟨lt_chunkCount_iff.1 (by simpa using hq), ?_, hrest⟩
  rw [← hc]
  simp [chunksOf]

/-! ### The encode loop packs the chunks that are left (R149, R150) -/

@[simp] theorem cursorBit_encAppend (b : Byte) (e : Enc) :
    cursorBit (encAppend b e) = cursorBit e := rfl

/-- An encode run of an input that has not ended and whose next chunk is chunk q. -/
structure AtChunk (bytes : List Byte) (q : Nat) (e : Enc) : Prop where
  inp : e.inp = bufferOf bytes
  len : e.len = bytes.length
  running : e.done = false
  cursor : cursorBit e = 7 * q

section
variable {e : Enc} {bytes : List Byte} {q : Nat} {c n : Chunk} {rest : List Chunk} {k : Index}

theorem atChunk_encClear (hin : e.inp = bufferOf bytes) (hlen : e.len = bytes.length) :
    AtChunk bytes 0 (encClear e) :=
  ⟨hin, hlen, rfl, rfl⟩

theorem AtChunk.step_exhausted (h : AtChunk bytes q e) (hcs : (chunksOf bytes).drop q = []) :
    encodeStep e = .next (encSetDone e) := by
  obtain ⟨-, hlen, hdone, hcur⟩ := h
  have hend := drop_chunksOf_nil hcs
  exact encodeStep_exhausted hdone (by omega)

theorem AtChunk.step_safe (h : AtChunk bytes q e) (hcs : (chunksOf bytes).drop q = c :: rest)
    (hc : classOf c = .safe) :
    ∃ e1, encodeStep e = .next e1 ∧ AtChunk bytes (q + 1) e1 ∧
      encText e1 = encText e ++ [c.setWidth 8] := by
  obtain ⟨hin, hlen, hdone, hcur⟩ := h
  obtain ⟨hlt, rfl, -⟩ := drop_chunksOf_cons hcs
  rw [← hcur] at hc ⊢
  exact ⟨_, encodeStep_safe hin hlen hdone (by omega) hc,
    ⟨hin, hlen, hdone, by simp [hcur, Nat.mul_add]⟩, by simp⟩

theorem AtChunk.step_pair (h : AtChunk bytes q e)
    (hcs : (chunksOf bytes).drop q = c :: n :: rest) (hc : classOf c = .dangerous k) :
    ∃ e1, encodeStep e = .next e1 ∧ AtChunk bytes (q + 2) e1 ∧
      encText e1 = encText e ++ escapeBytes (indexField k) n := by
  obtain ⟨hin, hlen, hdone, hcur⟩ := h
  obtain ⟨-, rfl, hnext⟩ := drop_chunksOf_cons hcs
  obtain ⟨hlt, rfl, -⟩ := drop_chunksOf_cons hnext
  rw [Nat.mul_succ, ← hcur] at hlt ⊢
  rw [← hcur] at hc
  exact ⟨_, encodeStep_pair hin hlen hdone (by omega) hc,
    ⟨hin, hlen, hdone, by simp [hcur, Nat.mul_add]⟩, by simp [escapeBytes]⟩

theorem AtChunk.step_last (h : AtChunk bytes q e) (hcs : (chunksOf bytes).drop q = [c])
    (hc : classOf c = .dangerous k) :
    ∃ e1, encodeStep e = .next e1 ∧ AtChunk bytes (q + 1) e1 ∧
      encText e1 = encText e ++ escapeBytes 7#3 c := by
  obtain ⟨hin, hlen, hdone, hcur⟩ := h
  obtain ⟨hlt, rfl, hrest⟩ := drop_chunksOf_cons hcs
  have hend := drop_chunksOf_nil hrest
  rw [← hcur] at hc ⊢
  exact ⟨_, encodeStep_last hin hlen hdone (by omega) (by omega) hc,
    ⟨hin, hlen, hdone, by simp [hcur, Nat.mul_add]⟩, by simp [escapeBytes]⟩

end

theorem encodeLoop_of_done {fuel : Nat} {e : Enc} (h : e.done = true) :
    encodeLoop fuel e = .next e := by
  cases fuel <;> simp [encodeLoop, h]

theorem encodeLoop_of_step {fuel : Nat} {e e1 : Enc} (hdone : e.done = false) (hfuel : 0 < fuel)
    (h : encodeStep e = .next e1) : encodeLoop fuel e = encodeLoop (fuel - 1) e1 := by
  cases fuel with
  | zero => omega
  | succ fuel => simp [encodeLoop, hdone, h]

/-- The encode loop from chunk q on appends `pack` of the chunks from q on and ends the run. -/
theorem encodeLoop_packs {bytes : List Byte} {cs : List Chunk} {e : Enc} {q fuel : Nat}
    (h : AtChunk bytes q e) (hcs : (chunksOf bytes).drop q = cs) (hfuel : cs.length < fuel) :
    ∃ e', encodeLoop fuel e = .next e' ∧ encText e' = encText e ++ packChunks cs ∧
      e'.done = true := by
  have hpos : 0 < fuel := by omega
  induction cs using packing_induction generalizing e q fuel with
  | nil =>
    refine ⟨encSetDone e, ?_, by simp [packChunks], rfl⟩
    rw [encodeLoop_of_step h.running hpos (h.step_exhausted hcs), encodeLoop_of_done rfl]
  | safe c rest hc ih =>
    obtain ⟨e1, hstep, hat, htext⟩ := h.step_safe hcs hc
    obtain ⟨-, -, hrest⟩ := drop_chunksOf_cons hcs
    rw [encodeLoop_of_step h.running hpos hstep, packChunks_safe hc]
    simp only [List.length_cons] at hfuel
    simpa [htext] using ih hat hrest (by omega) (by omega)
  | pair c n rest k hc ih =>
    obtain ⟨e1, hstep, hat, htext⟩ := h.step_pair hcs hc
    obtain ⟨-, -, hnext⟩ := drop_chunksOf_cons hcs
    obtain ⟨-, -, hrest⟩ := drop_chunksOf_cons hnext
    rw [encodeLoop_of_step h.running hpos hstep, packChunks_pair hc]
    simp only [List.length_cons] at hfuel
    simpa [htext] using ih hat hrest (by omega) (by omega)
  | last c k hc ih =>
    obtain ⟨e1, hstep, hat, htext⟩ := h.step_last hcs hc
    obtain ⟨-, -, hrest⟩ := drop_chunksOf_cons hcs
    rw [encodeLoop_of_step h.running hpos hstep, packChunks_last hc]
    simp only [List.length_cons] at hfuel
    simpa [htext, packChunks] using ih hat hrest (by omega) (by omega)

/-! ### ENC.OUT stays dense (R51) -/

theorem encAppend_dense {e : Enc} (h : e.out.dense e.olen) (b : Byte) :
    (encAppend b e).out.dense (encAppend b e).olen :=
  memPut_dense h b

theorem encodeStep_keeps_dense {e e' : Enc} (hd : e.out.dense e.olen) (h : encodeStep e = .next e') :
    e'.out.dense e'.olen := by
  rcases encodeStep_cases h with ⟨-, rfl⟩ | ⟨-, -, rfl⟩ | ⟨-, -, c, -, rfl⟩ |
    ⟨-, -, -, k, n, rfl⟩ | ⟨-, -, -, c, -, rfl⟩
  · exact hd
  · exact hd
  · exact encAppend_dense (e := cursorAt e _) hd _
  · exact encAppend_dense (encAppend_dense (e := cursorAt e _) hd _) _
  · exact encAppend_dense (encAppend_dense (e := cursorAt e _) hd _) _

/-- A dense buffer has as many bytes as its length. -/
theorem length_bufferBytes {m : Memory} {len : Nat} (h : m.dense len) {n : Nat} (hn : n ≤ len) :
    (bufferBytes m n).length = n := by
  induction n with
  | zero => rfl
  | succ n ih =>
    obtain ⟨b, hb⟩ := dense_get h hn
    simp [bufferBytes_succ, hb, ih (Nat.le_of_succ_le hn)]

/-! ### The size of a packed text (R151) -/

/-- The text ends with a shortened escape. -/
def EndsShortened (text : List Byte) : Prop :=
  ∃ c pre, Config.inDtab c = true ∧ text = pre ++ escapeBytes 7#3 c

theorem escByte1_toNat (k : IndexField) (p : Chunk) :
    (escByte1 k p).toNat = 0xC2 + 4 * k.toNat + p.toNat / 64 := by
  revert k p
  decide

theorem escByte2_toNat (p : Chunk) : (escByte2 p).toNat = 0x80 + p.toNat % 64 := by
  revert p
  decide

/-- A byte below 0xDE, the least first byte of a shortened escape, leaves the end of a text as it is. -/
theorem endsShortened_cons {b : Byte} {text : List Byte} (hb : b.toNat < 0xDE) :
    EndsShortened (b :: text) ↔ EndsShortened text := by
  constructor
  · rintro ⟨c, pre, hc, h⟩
    cases pre with
    | nil =>
      obtain rfl := (List.cons.inj h).1
      simp [escByte1_toNat] at hb
    | cons _ pre => exact ⟨c, pre, hc, (List.cons.inj h).2⟩
  · rintro ⟨c, pre, hc, rfl⟩
    exact ⟨c, b :: pre, hc, rfl⟩

theorem indexField_lt (k : Index) : (indexField k).toNat < 6 := by
  revert k
  decide

theorem inDtab_of_dangerous {c : Chunk} {k : Index} (h : classOf c = .dangerous k) :
    Config.inDtab c = true := by
  rw [inDtab_eq, indexOf_eq_some.2 (classOf_dangerous.1 h)]
  rfl

theorem not_endsShortened_nil : ¬ EndsShortened [] := by
  rintro ⟨c, pre, -, h⟩
  simp [escapeBytes] at h

/-- One byte per chunk, and one more exactly where the text ends with a shortened escape. -/
theorem length_packChunks (cs : List Chunk) :
    (EndsShortened (packChunks cs) ∧ (packChunks cs).length = cs.length + 1) ∨
    (¬ EndsShortened (packChunks cs) ∧ (packChunks cs).length = cs.length) := by
  induction cs using packing_induction with
  | nil => exact .inr ⟨not_endsShortened_nil, rfl⟩
  | safe c rest hc ih =>
    have hlit : (c.setWidth 8).toNat < 0xDE := by
      have := c.isLt
      simp
      omega
    simpa [packChunks_safe hc, endsShortened_cons hlit] using ih
  | pair c n rest k hc ih =>
    have h1 : (escByte1 (indexField k) n).toNat < 0xDE := by
      have hn := n.isLt
      have hk := indexField_lt k
      rw [escByte1_toNat]
      omega
    have h2 : (escByte2 n).toNat < 0xDE := by
      rw [escByte2_toNat]
      omega
    simpa [packChunks_pair hc, escapeBytes, endsShortened_cons h1, endsShortened_cons h2] using ih
  | last c k hc _ =>
    rw [packChunks_last hc]
    exact .inl ⟨⟨c, [], inDtab_of_dangerous hc, rfl⟩, rfl⟩

/-- A chunk list without a dangerous chunk packs to one byte per chunk. -/
theorem length_packChunks_safe {cs : List Chunk} (h : ∀ c ∈ cs, classOf c = .safe) :
    (packChunks cs).length = cs.length := by
  induction cs with
  | nil => rfl
  | cons c rest ih =>
    obtain ⟨hc, hrest⟩ := List.forall_mem_cons.1 h
    simp [packChunks_safe hc, ih hrest]

end Sys2Proof.Machine

/-- Settles O17: what the one or two calls of GET7 return decides the case. -/
theorem encStepPacksOneUnit : Obligations.EncStepPacksOneUnit := by
  intro s bytes hin hlen p c moved
  refine ⟨fun hdone => exec_encStep_of_step (encodeStep_of_done hdone),
    fun hdone hend => exec_encStep_of_step (encodeStep_exhausted hdone hend), fun hdone hlt => ?_⟩
  cases hc : classOf c with
  | safe => exact exec_encStep_of_step (encodeStep_safe hin hlen hdone hlt hc)
  | dangerous k =>
    by_cases hnext : p + 7 < 8 * s.enc.len
    · simp only [hnext, if_true]
      exact exec_encStep_of_step (encodeStep_pair hin hlen hdone hnext hc)
    · simp only [hnext, if_false]
      exact exec_encStep_of_step (encodeStep_last hin hlen hdone hlt (Nat.not_lt.1 hnext) hc)

/-- Settles O20: the encode loop from ENC.START packs the chunks from chunk 0 on. -/
theorem encodePacksChunks : Obligations.EncodePacksChunks := by
  intro s bytes
  have hstart : AtChunk bytes 0 (encClear (placeInput s bytes).enc) := atChunk_encClear rfl rfl
  obtain ⟨e, hloop, htext, hdone⟩ := encodeLoop_packs hstart List.drop_zero
    (fuel := encodeBound (placeInput s bytes).enc.len) (by simp [encodeBound, chunkCount])
  rw [encText_encClear, List.nil_append] at htext
  have hdense : e.out.dense e.olen := encodeLoop_keeps (P := fun e => e.out.dense e.olen)
    encodeStep_keeps_dense empty_dense hloop
  refine ⟨_, exec_encode_of_loop hloop, htext, ?_, hdense, hdone⟩
  rw [← htext]
  exact (length_bufferBytes hdense le_rfl).symm

/-- Settles O22: ENCODE returns `pack` of the ceil(8n/7) chunks, whose size is theirs, and one more
after a shortened escape. -/
theorem encodedSize : Obligations.EncodedSize := by
  intro s bytes
  obtain ⟨t, hexec, htext, holen, -, -⟩ := encodePacksChunks s bytes
  refine ⟨t, hexec, ?_⟩
  intro n m
  rw [htext, holen]
  have hm : (chunksOf bytes).length = m := length_chunksOf bytes
  have hbounds : n ≤ m ∧ m ≤ 2 * n := by
    simp only [m, chunkCount]
    omega
  have hempty : n = 0 → (packChunks (chunksOf bytes)).length = 0 := fun hn => by
    have hnil : chunksOf bytes = [] := List.length_eq_zero_iff.1 (by omega)
    rw [hnil]
    rfl
  have hsafe : (∀ c ∈ chunksOf bytes, classOf c = .safe) →
      (packChunks (chunksOf bytes)).length = m := fun h => (length_packChunks_safe h).trans hm
  rcases length_packChunks (chunksOf bytes) with ⟨hends, hlen⟩ | ⟨hends, hlen⟩ <;> rw [hm] at hlen
  · exact ⟨hempty, by omega, ⟨fun _ => hends, fun _ => hlen⟩, by omega, hsafe, by omega, by omega⟩
  · exact ⟨hempty, by omega, ⟨fun h => by omega, fun h => absurd h hends⟩, by omega, hsafe, by omega,
      by omega⟩
end

section
/-! SUPPORT. The decode run of a text that parses (43_unpacker.md R172, R174): DEC.STEP runs the unit at
DEC.PC, and the loop pushes the chunks of the text one after another. -/

open Sys2Proof Sys2Proof.Machine

namespace Sys2Proof.Machine

/-! ### The bytes of the first unit of a text (R58, R87) -/

/-- The number of bytes of the first unit of a text, by its first byte: two where it is `110xxxxx` and
the text has a second byte, else one. -/
def frameLength : List Byte → Nat
  | [] => 0
  | [_] => 1
  | b1 :: _ :: _ => if beginsEscape b1 = true then 2 else 1

theorem frameLength_bounds {bytes : List Byte} (h : bytes ≠ []) :
    0 < frameLength bytes ∧ frameLength bytes ≤ bytes.length := by
  match bytes with
  | [_] => simp [frameLength]
  | b1 :: _ :: _ =>
    simp only [frameLength, List.length_cons]
    split <;> omega

theorem length_unitBytes_scalarUnit (strict : Bool) (s : Scalar) :
    (unitBytes (scalarUnit strict s)).length = 2 := by
  simp only [scalarUnit, apply_ite unitBytes, apply_dite unitBytes, apply_ite List.length,
    apply_dite List.length]
  simp [unitBytes, encode, twoBytes]

/-- A first byte that does not begin an escape is a unit by itself, whatever follows it. -/
theorem decodeUnit_oneByte (strict : Bool) {b1 : Byte} (h : ¬ beginsEscape b1 = true) :
    ∃ i, (unitBytes i).length = 1 ∧ ∀ rest, decodeUnit strict (b1 :: rest) = .ok (i, rest) := by
  by_cases h7 : b1.getLsbD 7 = false
  · exact ⟨.lit (b1.extractLsb' 0 7), rfl, fun rest => by simp only [decodeUnit.eq_def, if_pos h7]⟩
  · by_cases h6 : b1.getLsbD 6 = true
    · exact ⟨.illLead111 (b1.extractLsb' 0 5), rfl,
        fun rest => by simp only [decodeUnit.eq_def, if_neg h7, if_neg h, if_pos h6]⟩
    · exact ⟨.illLead10 (b1.extractLsb' 0 6), rfl,
        fun rest => by simp only [decodeUnit.eq_def, if_neg h7, if_neg h, if_neg h6]⟩

/-- The unit decoder reads the bytes of the first unit and leaves the others. -/
theorem decodeUnit_framed {strict : Bool} {bytes rest : List Byte} {i : Instr}
    (h : decodeUnit strict bytes = .ok (i, rest)) :
    (unitBytes i).length = frameLength bytes ∧ rest = bytes.drop (frameLength bytes) ∧
      decodeUnit strict (bytes.take (frameLength bytes)) = .ok (i, []) := by
  cases bytes with
  | nil => simp [decodeUnit] at h
  | cons b1 tail =>
    by_cases hesc : beginsEscape b1 = true
    · cases tail with
      | nil =>
        rw [decodeUnit_trunc hesc] at h
        cases h
        exact ⟨rfl, rfl, decodeUnit_trunc hesc⟩
      | cons b2 tail =>
        simp only [frameLength, if_pos hesc]
        by_cases hcont : isContinuation b2 = true
        · rw [decodeUnit_twoBytes hesc hcont] at h
          cases h
          exact ⟨length_unitBytes_scalarUnit _ _, rfl, decodeUnit_twoBytes hesc hcont⟩
        · rw [decodeUnit_cont hesc hcont] at h
          cases h
          exact ⟨rfl, rfl, decodeUnit_cont hesc hcont⟩
    · have hframe : frameLength (b1 :: tail) = 1 := by cases tail <;> simp [frameLength, hesc]
      obtain ⟨j, hlen, hdec⟩ := decodeUnit_oneByte strict hesc
      rw [hdec tail] at h
      cases h
      rw [hframe]
      exact ⟨hlen, rfl, hdec []⟩

/-! ### DEC.STEP on a placed text (R172) -/

/-- A decode run of a text that has not ended. -/
structure RunsText (text : List Byte) (d : Dec) : Prop where
  txt : d.txt = bufferOf text
  tlen : d.tlen = text.length
  running : d.done = false

section
variable {text : List Byte}

theorem readText_placed {d : Dec} {a : Nat} {b : Byte} (h : RunsText text d)
    (hb : text[a]? = some b) : readText d a = .next b := by
  obtain ⟨ha, -⟩ := List.getElem?_eq_some_iff.1 hb
  refine memRead_eq_next.2 ⟨by rwa [h.tlen], ?_⟩
  rw [h.txt, memGet_bufferOf, hb]

/-- DEC.STEP fetches the bytes of the unit at DEC.PC (R58). -/
theorem fetchUnit_eq {d : Dec} (h : RunsText text d) (hne : text.drop d.pc ≠ []) :
    fetchUnit d = .next ((text.drop d.pc).take (frameLength (text.drop d.pc))) := by
  have hget : ∀ j, text[d.pc + j]? = (text.drop d.pc)[j]? := fun j => List.getElem?_drop.symm
  have hlen : text.length - d.pc = (text.drop d.pc).length := List.length_drop.symm
  generalize text.drop d.pc = left at hne hget hlen ⊢
  cases left with
  | nil => exact absurd rfl hne
  | cons b1 tail =>
    have hread1 : readText d d.pc = .next b1 := readText_placed h (hget 0)
    cases tail with
    | nil =>
      have hend : ¬ d.pc + 1 < d.tlen := by
        rw [h.tlen]
        simp only [List.length_singleton] at hlen
        omega
      simp [fetchUnit, hread1, hend, frameLength]
    | cons b2 tail =>
      have hread2 := readText_placed h (hget 1)
      have hmore : d.pc + 1 < d.tlen := by
        rw [h.tlen]
        simp only [List.length_cons] at hlen
        omega
      by_cases hesc : beginsEscape b1 = true
      · simp [fetchUnit, hread1, hread2, hmore, hesc, frameLength]
      · simp [fetchUnit, hread1, hesc, frameLength]

variable {s : State}

theorem execDecStep_at_end (h : RunsText text s.dec) (hend : text.drop s.dec.pc = []) :
    execDecStep s = .next (setDec s (decSetDone s.dec)) := by
  have hpc : s.dec.tlen ≤ s.dec.pc := by simpa [h.tlen] using hend
  simp [execDecStep, h.running, decAtEnd, hpc]

/-- DEC.STEP is the effect of the unit that the text has at DEC.PC. -/
theorem execDecStep_of_unit {i : Instr} {rest : List Byte} (h : RunsText text s.dec)
    (hdec : decodeUnit s.strict (text.drop s.dec.pc) = .ok (i, rest)) :
    execDecStep s = exec i s := by
  have hne : text.drop s.dec.pc ≠ [] := by
    intro hnil
    simp [hnil, decodeUnit] at hdec
  have hpc : ¬ s.dec.tlen ≤ s.dec.pc := by simpa [h.tlen] using hne
  obtain ⟨-, -, htake⟩ := decodeUnit_framed hdec
  simp [execDecStep, h.running, decAtEnd, hpc, fetchUnit_eq h hne, htake,
    runUnit_eq_exec (decodeUnit_isTextUnit hdec)]

end

/-! ### Pushing a list of chunks -/

/-- The engine after PUSH7 of each chunk in turn. -/
def pushAll (cs : List Chunk) (d : Dec) : Dec := cs.foldl (fun d v => (pushChunk v d).2) d

theorem pushAll_nil (d : Dec) : pushAll [] d = d := rfl

theorem pushAll_cons (v : Chunk) (cs : List Chunk) (d : Dec) :
    pushAll (v :: cs) d = pushAll cs (pushChunk v d).2 := rfl

theorem pushAll_append (cs cs' : List Chunk) (d : Dec) :
    pushAll (cs ++ cs') d = pushAll cs' (pushAll cs d) := List.foldl_append

/-- What PUSH7 keeps, pushing a list keeps. -/
theorem pushAll_keeps {P : Dec → Prop} (hpush : ∀ v d, P d → P (pushChunk v d).2) (cs : List Chunk)
    {d : Dec} (h : P d) : P (pushAll cs d) := by
  induction cs generalizing d with
  | nil => exact h
  | cons v cs ih => exact ih (hpush v d h)

theorem RunsText.pushAll {text : List Byte} {d : Dec} (h : RunsText text d) (cs : List Chunk) :
    RunsText text (pushAll cs d) := by
  refine pushAll_keeps (fun v d h => ?_) cs h
  obtain ⟨-, htlen, hdone, -, -, -, htxt, -⟩ := pushChunk_frame v d
  exact ⟨htxt.trans h.txt, htlen.trans h.tlen, hdone.trans h.running⟩

theorem RunsText.advancePc {text : List Byte} {d : Dec} (h : RunsText text d) (n : Nat) :
    RunsText text (advancePc n d) :=
  ⟨h.txt, h.tlen, h.running⟩

theorem pushAll_pc (cs : List Chunk) (d : Dec) : (pushAll cs d).pc = d.pc := by
  refine pushAll_keeps (P := fun d' => d'.pc = d.pc) (fun v d' h => ?_) cs rfl
  obtain ⟨hpc, -⟩ := pushChunk_frame v d'
  exact hpc.trans h

theorem pushAll_err (cs : List Chunk) (d : Dec) : (pushAll cs d).err = d.err := by
  refine pushAll_keeps (P := fun d' => d'.err = d.err) (fun v d' h => ?_) cs rfl
  obtain ⟨-, -, -, herr, -⟩ := pushChunk_frame v d'
  exact herr.trans h

/-- PUSH7 does not depend on DEC.PC. -/
theorem pushAll_advancePc (cs : List Chunk) (n : Nat) (d : Dec) :
    pushAll cs (advancePc n d) = advancePc n (pushAll cs d) := by
  induction cs generalizing d with
  | nil => rfl
  | cons v cs ih =>
    have hpush : (pushChunk v (advancePc n d)).2 = advancePc n (pushChunk v d).2 := by
      by_cases ha : d.ab.toNat = 0 <;> simp [pushChunk, ha, advancePc, decAppend]
    rw [pushAll_cons, hpush, ih, pushAll_cons]

theorem advancePc_advancePc (m n : Nat) (d : Dec) :
    advancePc m (advancePc n d) = advancePc (n + m) d := by
  simp [advancePc, Nat.add_assoc]

/-! ### The decode loop of a text that parses (R174, R176) -/

@[simp] theorem textChunks_nil (strict : Bool) (fuel pos : Nat) :
    textChunks strict fuel pos [] = .ok [] := by
  cases fuel <;> rfl

/-- A text parses exactly where its first unit is valid and the text after it parses. -/
theorem textChunks_eq_ok {strict : Bool} {fuel pos : Nat} {bytes rest : List Byte} {i : Instr}
    {cs : List Chunk} (hdec : decodeUnit strict bytes = .ok (i, rest)) :
    textChunks strict (fuel + 1) pos bytes = .ok cs ↔ unitCause i = none ∧
      ∃ cs', textChunks strict fuel (pos + (bytes.length - rest.length)) rest = .ok cs' ∧
        unitChunks i ++ cs' = cs := by
  simp only [textChunks, hdec]
  cases unitCause i with
  | some cause => simp
  | none =>
    cases textChunks strict fuel (pos + (bytes.length - rest.length)) rest <;> simp

theorem decodeLoop_of_done {steps : Nat} {s : State} (h : s.dec.done = true) :
    decodeLoop steps s = .next s := by
  cases steps <;> simp [decodeLoop, h]

theorem decodeLoop_of_step {steps : Nat} {s t : State} (hdone : s.dec.done = false)
    (h : execDecStep s = .next t) : decodeLoop (steps + 1) s = decodeLoop steps t := by
  simp [decodeLoop, hdone, h]

/-- The engine that has pushed the chunks `cs`, moved past n bytes and ended its run. -/
def endedRun (n : Nat) (cs : List Chunk) (d : Dec) : Dec := decSetDone (advancePc n (pushAll cs d))

/-- Pushing in two goes is pushing at once. -/
theorem endedRun_advancePc_pushAll (m n : Nat) (vs cs : List Chunk) (d : Dec) :
    endedRun n cs (advancePc m (pushAll vs d)) = endedRun (m + n) (vs ++ cs) d := by
  simp [endedRun, pushAll_advancePc, advancePc_advancePc, pushAll_append]

/-- DEC.STEP on a text whose rest parses pushes the chunks of one unit and moves past its bytes; what is
left parses to the other chunks. -/
theorem execDecStep_of_parse {text : List Byte} {s : State} {fuel pos : Nat} {cs : List Chunk}
    (h : RunsText text s.dec) (hne : text.drop s.dec.pc ≠ [])
    (hparse : textChunks s.strict (fuel + 1) pos (text.drop s.dec.pc) = .ok cs) :
    ∃ n vs pos' cs', 0 < n ∧ n ≤ (text.drop s.dec.pc).length ∧ vs ++ cs' = cs ∧
      execDecStep s = .next (setDec s (advancePc n (pushAll vs s.dec))) ∧
      textChunks s.strict fuel pos' (text.drop (s.dec.pc + n)) = .ok cs' := by
  obtain ⟨i, rest, hdec⟩ : ∃ i rest, decodeUnit s.strict (text.drop s.dec.pc) = .ok (i, rest) := by
    obtain ⟨b, tail, hleft⟩ := List.exists_cons_of_ne_nil hne
    rw [hleft]
    exact decodeUnit_cons s.strict b tail
  obtain ⟨hvalid, cs', hrest, hcs⟩ := (textChunks_eq_ok hdec).1 hparse
  obtain ⟨hlen, rfl, -⟩ := decodeUnit_framed hdec
  obtain ⟨hpos, hle⟩ := frameLength_bounds hne
  rw [List.drop_drop] at hrest
  refine ⟨_, _, _, cs', hpos, hle, hcs, ?_, hrest⟩
  rw [execDecStep_of_unit h hdec, exec_unit (decodeUnit_isTextUnit hdec), hvalid, hlen]
  rfl

/-- The decode loop on a text whose rest from DEC.PC on parses pushes the chunks of that rest, moves to
the end of the text and ends the run. -/
theorem decodeLoop_of_parse {text : List Byte} {s : State} {cs : List Chunk} {fuel pos steps : Nat}
    (h : RunsText text s.dec) (hparse : textChunks s.strict fuel pos (text.drop s.dec.pc) = .ok cs)
    (hfuel : (text.drop s.dec.pc).length ≤ fuel) (hsteps : (text.drop s.dec.pc).length < steps) :
    decodeLoop steps s = .next (setDec s (endedRun (text.drop s.dec.pc).length cs s.dec)) := by
  induction steps generalizing s cs fuel pos with
  | zero => omega
  | succ steps ih =>
    by_cases hend : text.drop s.dec.pc = []
    · rw [hend, textChunks_nil] at hparse
      cases hparse
      rw [decodeLoop_of_step h.running (execDecStep_at_end h hend), decodeLoop_of_done rfl, hend]
      rfl
    · have hlen := List.length_pos_iff.2 hend
      obtain ⟨fuel, rfl⟩ := Nat.exists_eq_add_one_of_ne_zero (by omega : fuel ≠ 0)
      obtain ⟨n, vs, pos', cs', hpos, hle, rfl, hstep, hrest⟩ := execDecStep_of_parse h hend hparse
      have hpc : (advancePc n (pushAll vs s.dec)).pc = s.dec.pc + n := by simp [pushAll_pc]
      have hleft : (text.drop (s.dec.pc + n)).length = (text.drop s.dec.pc).length - n := by
        simp only [List.length_drop]
        omega
      have hloop := ih (s := setDec s (advancePc n (pushAll vs s.dec))) (cs := cs') (fuel := fuel)
        (pos := pos') ((h.pushAll vs).advancePc n)
      simp only [setDec_dec, setDec_strict, setDec_setDec, hpc, hleft, endedRun_advancePc_pushAll,
        Nat.add_sub_of_le hle] at hloop
      rw [decodeLoop_of_step h.running hstep]
      exact hloop hrest (by omega) (by omega)

/-- The engine at the end of a DECODE of a text that parses to `cs` (R176). -/
def decodedEngine (s : State) (text : List Byte) (cs : List Chunk) : Dec :=
  endedRun text.length cs (decClear (placeText s text).dec)

/-- DECODE of a text that parses: its chunks pushed from DEC.START on, and the result returned. -/
theorem exec_decode_of_parse {s : State} {text : List Byte} {cs : List Chunk}
    (hparse : parseText s.strict text = .ok cs) :
    exec .decode (placeText s text) = .next (setDec (placeText s text)
      (setDecRet (decodedEngine s text cs) (decodeResult (decodedEngine s text cs)))) := by
  have hstart : RunsText text (setDec (placeText s text) (decClear (placeText s text).dec)).dec :=
    ⟨rfl, rfl, rfl⟩
  exact andThen_eq_next.2
    ⟨_, decodeLoop_of_parse hstart hparse le_rfl (Nat.lt_succ_self text.length), rfl⟩

end Sys2Proof.Machine
end

section
/-! SUPPORT. The round trip (42_packer.md R153): a packed text parses to its chunks, and pushing the chunks
of a buffer gives its bytes. -/

open Sys2Proof Sys2Proof.Machine

namespace Sys2Proof.Machine

/-! ### The units of a packed text (R150, R152) -/

theorem decodeUnit_literalByte (strict : Bool) (c : Chunk) (rest : List Byte) :
    decodeUnit strict (c.setWidth 8 :: rest) = .ok (.lit c, rest) := by
  have hc := c.isLt
  have hback : (c.setWidth 8).extractLsb' 0 7 = c := by
    apply BitVec.eq_of_toNat_eq
    simp
    omega
  rw [decodeUnit_literal (by simp; omega), hback]

/-- The bytes of an escape are the scalar of its index field and payload, the fixed bit set (R85, R86). -/
theorem decodeUnit_escapeBytes (strict : Bool) (k : IndexField) (p : Chunk) (rest : List Byte) :
    decodeUnit strict (escapeBytes k p ++ rest) =
      .ok (scalarUnit strict (scalarOf k true p), rest) := by
  have hp := p.isLt
  have hfirst : (escByte1 k p).toNat ∈ firstBytes k true := by
    simp only [firstBytes, List.mem_cons, List.not_mem_nil, or_false, escByte1_toNat, Bool.toNat_true]
    omega
  have hsecond : isContinuation (escByte2 p) = true := by
    rw [isContinuation_iff, escByte2_toNat]
    omega
  have hpayload : (escByte1 k p).extractLsb' 0 1 ++ (escByte2 p).extractLsb' 0 6 = p := by
    apply BitVec.eq_of_toNat_eq
    simp only [toNat_append_eq_add, BitVec.extractLsb'_toNat, Nat.shiftRight_zero, escByte1_toNat,
      escByte2_toNat]
    omega
  have hunit := decodeUnit_firstBytes (strict := strict) (rest := rest) hfirst hsecond
  rwa [hpayload] at hunit

/-- A full escape yields its dangerous value and its payload (R176). -/
theorem scalarUnit_indexField (strict : Bool) (k : Index) (p : Chunk) :
    unitCause (scalarUnit strict (scalarOf (indexField k) true p)) = none ∧
      unitChunks (scalarUnit strict (scalarOf (indexField k) true p)) = [Config.dtab[k], p] := by
  rw [scalarUnit_fixed_set]
  fin_cases k <;> exact ⟨rfl, rfl⟩

/-- A shortened escape of a dangerous value passes the check of SHORTPAY. -/
theorem scalarUnit_shortened (strict : Bool) {c : Chunk} (h : Config.inDtab c = true) :
    scalarUnit strict (scalarOf 7#3 true c) = .escs c := by
  simp [scalarUnit_fixed_set, h]

/-- The text of a chunk list parses to it. -/
theorem textChunks_packChunks (strict : Bool) (cs : List Chunk) {fuel pos : Nat}
    (hfuel : (packChunks cs).length ≤ fuel) :
    textChunks strict fuel pos (packChunks cs) = .ok cs := by
  induction cs using packing_induction generalizing fuel pos with
  | nil => exact textChunks_nil strict fuel pos
  | safe c rest hc ih =>
    rw [packChunks_safe hc] at hfuel ⊢
    obtain ⟨fuel, rfl⟩ := Nat.exists_eq_add_one_of_ne_zero (Nat.ne_zero_of_lt hfuel)
    exact (textChunks_eq_ok (decodeUnit_literalByte strict c _)).2
      ⟨rfl, rest, ih (Nat.le_of_succ_le_succ hfuel), rfl⟩
  | pair c n rest k hc ih =>
    rw [packChunks_pair hc] at hfuel ⊢
    obtain ⟨fuel, rfl⟩ := Nat.exists_eq_add_one_of_ne_zero (Nat.ne_zero_of_lt hfuel)
    obtain ⟨hvalid, hchunks⟩ := scalarUnit_indexField strict k n
    refine (textChunks_eq_ok (decodeUnit_escapeBytes strict _ n _)).2 ⟨hvalid, rest, ih ?_, ?_⟩
    · simp only [escapeBytes, List.length_append, List.length_cons] at hfuel
      omega
    · rw [hchunks, classOf_dangerous.1 hc]
      rfl
  | last c k hc ih =>
    rw [packChunks_last hc] at hfuel ⊢
    obtain ⟨fuel, rfl⟩ := Nat.exists_eq_add_one_of_ne_zero (Nat.ne_zero_of_lt hfuel)
    have hdec := decodeUnit_escapeBytes strict 7#3 c []
    rw [scalarUnit_shortened strict (inDtab_of_dangerous hc)] at hdec
    exact (textChunks_eq_ok hdec).2 ⟨rfl, [], textChunks_nil _ _ _, rfl⟩

/-! ### Bit strings of bytes and of chunks (R10, R176) -/

theorem streamBit_eq_getMsbD (bytes : List Byte) (i : Nat) :
    streamBit bytes i = (bytes.getD (i / 8) 0#8).getMsbD (i % 8) := by
  rw [streamBit_eq, BitVec.getMsbD]
  simp [Nat.mod_lt]

theorem chunkBit_eq_getMsbD (cs : List Chunk) (i : Nat) :
    chunkBit cs i = (cs.getD (i / 7) 0#7).getMsbD (i % 7) := by
  rw [chunkBit, List.getD_eq_getElem?_getD, BitVec.getMsbD]
  cases cs[i / 7]? <;> simp [Nat.mod_lt]

theorem chunkBit_beyond {cs : List Chunk} {i : Nat} (h : 7 * cs.length ≤ i) :
    chunkBit cs i = false := by
  have hnone : cs[i / 7]? = none := List.getElem?_eq_none (by omega)
  simp [chunkBit, hnone]

/-- One more word adds its bits at the end of the bit string of a list of words. -/
theorem getMsbD_getD_append_singleton {w : Nat} (hw : 0 < w) (xs : List (BitVec w)) (x : BitVec w)
    (i : Nat) :
    ((xs ++ [x]).getD (i / w) 0).getMsbD (i % w) =
      if i < w * xs.length then (xs.getD (i / w) 0).getMsbD (i % w)
      else x.getMsbD (i - w * xs.length) := by
  have hsplit := Nat.div_add_mod i w
  have hmod := Nat.mod_lt i hw
  split
  · next h => rw [List.getD_append _ _ _ _ (Nat.div_lt_of_lt_mul h)]
  · next h =>
    have hge : xs.length ≤ i / w := (Nat.le_div_iff_mul_le hw).2 (by rw [Nat.mul_comm]; omega)
    rw [List.getD_append_right _ _ _ _ hge]
    obtain ⟨extra, hextra⟩ := Nat.exists_eq_add_of_le hge
    rw [hextra, Nat.mul_add] at hsplit
    rw [hextra, Nat.add_sub_cancel_left]
    cases extra with
    | zero =>
      have hidx : i % w = i - w * xs.length := by omega
      rw [hidx]
      rfl
    | succ extra =>
      rw [BitVec.getMsbD_of_ge x _ (by rw [Nat.mul_succ] at hsplit; omega)]
      simp

theorem streamBit_append_singleton (bytes : List Byte) (b : Byte) (i : Nat) :
    streamBit (bytes ++ [b]) i =
      if i < 8 * bytes.length then streamBit bytes i else b.getMsbD (i - 8 * bytes.length) := by
  simp only [streamBit_eq_getMsbD]
  exact getMsbD_getD_append_singleton (by decide) bytes b i

theorem chunkBit_append_singleton (cs : List Chunk) (v : Chunk) (i : Nat) :
    chunkBit (cs ++ [v]) i =
      if i < 7 * cs.length then chunkBit cs i else v.getMsbD (i - 7 * cs.length) := by
  simp only [chunkBit_eq_getMsbD]
  exact getMsbD_getD_append_singleton (by decide) cs v i

/-- The chunks of a buffer spell its bit stream. -/
theorem chunkBit_chunksOf (bytes : List Byte) (i : Nat) :
    chunkBit (chunksOf bytes) i = streamBit bytes i := by
  by_cases h : i / 7 < chunkCount bytes.length
  · have hget : (chunksOf bytes)[i / 7]? = some (chunkFrom bytes (7 * (i / 7))) := by
      simp [chunksOf, h]
    have hidx : 7 * (i / 7) + (6 - (6 - i % 7)) = i := by omega
    simp only [chunkBit, hget]
    rw [getLsbD_chunkFrom _ _ (by omega), hidx]
  · have hend : 8 * bytes.length ≤ i := by
      have := chunkCount_zeroFill bytes.length
      omega
    rw [streamBit_beyond hend, chunkBit_beyond (by rw [length_chunksOf]; omega)]

/-! ### The accumulator (R160) -/

section
variable {ac : Byte} {v : Chunk} {a j : Nat}

/-- The byte that PUSH7 emits: the `a` bits held, then the first bits of the chunk. -/
theorem getMsbD_pushedByte (ha : 0 < a) (ha8 : a < 8) (hac : ∀ j, a ≤ j → ac.getMsbD j = false)
    (hj : j < 8) :
    (ac ||| (v >>> (a - 1)).setWidth 8).getMsbD j =
      if j < a then ac.getMsbD j else v.getMsbD (j - a) := by
  have hchunk : ((v >>> (a - 1)).setWidth 8).getMsbD j = v.getLsbD (a - 1 + (7 - j)) := by
    simp only [BitVec.getMsbD, BitVec.getLsbD_setWidth, BitVec.getLsbD_ushiftRight, hj]
    simp
    omega
  rw [BitVec.getMsbD_or, hchunk]
  split
  · next h => rw [BitVec.getLsbD_of_ge _ _ (by omega), Bool.or_false]
  · next h =>
    have hidx : a - 1 + (7 - j) = 7 - 1 - (j - a) := by omega
    have hin : j - a < 7 := by omega
    rw [hac j (by omega), hidx, BitVec.getMsbD, decide_eq_true hin, Bool.true_and, Bool.false_or]

/-- What PUSH7 keeps: the bits of the chunk for which the emitted byte had no room, all seven where none
is emitted. -/
theorem getMsbD_keptBits (ha : a ≤ 8) :
    (v.setWidth 8 <<< (9 - a)).getMsbD j = v.getMsbD (j + 8 - a) := by
  simp only [BitVec.getMsbD, BitVec.getLsbD_setWidth, BitVec.getLsbD_shiftLeft]
  by_cases hin : j + 8 - a < 7
  · have hidx : 8 - 1 - j - (9 - a) = 7 - 1 - (j + 8 - a) := by omega
    have hj : j < 8 := by omega
    have hshift : ¬ 8 - 1 - j < 9 - a := by omega
    have hbyte : 8 - 1 - j < 8 := by omega
    have hchunk : 7 - 1 - (j + 8 - a) < 8 := by omega
    simp only [hidx, hin, hj, hshift, hbyte, hchunk, decide_true, decide_false, Bool.not_false,
      Bool.true_and]
  · simp [hin]
    omega

end

/-- DEC.OUT and DEC.AC hold the bit string of the chunks pushed: the output bytes and the accumulator
spell it, zeros after it, and every bit but the DEC.AB last is in the output. -/
structure HoldsChunks (cs : List Chunk) (d : Dec) : Prop where
  count : 8 * d.olen + d.ab.toNat = 7 * cs.length
  outputDense : d.out.dense d.olen
  bits : ∀ i, streamBit (bufferBytes d.out d.olen ++ [d.ac]) i = chunkBit cs i

theorem holdsChunks_decClear (d : Dec) : HoldsChunks [] (decClear d) := by
  refine ⟨rfl, empty_dense, fun i => ?_⟩
  rw [decClear_olen, bufferBytes_zero, streamBit_append_singleton]
  simp [chunkBit]

/-- PUSH7 adds its chunk to the chunks held: a bit of the window is one of those held, or of the chunk in
the emitted byte, or of the chunk kept. -/
theorem HoldsChunks.push {cs : List Chunk} {d : Dec} (h : HoldsChunks cs d) (v : Chunk) :
    HoldsChunks (cs ++ [v]) (pushChunk v d).2 := by
  obtain ⟨hcount, hdense, hbits⟩ := h
  have hout := length_bufferBytes hdense le_rfl
  have hab := d.ab.isLt
  simp only [streamBit_append_singleton, hout] at hbits
  rcases pushChunk_cases v d with ⟨h0, hpush⟩ | ⟨h0, byte, hbyte, hpush⟩ <;> rw [hpush]
  · have hcount' : 8 * d.olen = 7 * cs.length := by simpa [h0] using hcount
    refine ⟨by simp; omega, hdense, fun i => ?_⟩
    have hkept := getMsbD_keptBits (v := v) (a := 8) (j := i - 8 * d.olen) le_rfl
    rw [Nat.add_sub_cancel] at hkept
    rw [streamBit_append_singleton, chunkBit_append_singleton, ← hcount', hout]
    split
    · next h => simpa [h] using hbits i
    · exact hkept
  · have hpos : 0 < d.ab.toNat := Nat.pos_of_ne_zero fun h => h0 (BitVec.eq_of_toNat_eq h)
    have hlen : d.olen + 1 = (bufferBytes d.out d.olen ++ [byte]).length := by simp [hout]
    have hac : ∀ j, d.ab.toNat ≤ j → d.ac.getMsbD j = false := fun j hj => by
      have hbit := hbits (8 * d.olen + j)
      rwa [if_neg (by omega), chunkBit_beyond (by omega), Nat.add_sub_cancel_left] at hbit
    refine ⟨by simp; omega, memPut_dense hdense byte, fun i => ?_⟩
    rw [bufferBytes_memPut, streamBit_append_singleton, streamBit_append_singleton,
      chunkBit_append_singleton, ← hcount, ← hlen, hout, ← hbits i]
    by_cases hold : i < 8 * d.olen
    · rw [if_pos (by omega), if_pos hold, if_pos (by omega), if_pos hold]
    · obtain ⟨j, rfl⟩ := Nat.exists_eq_add_of_le (Nat.not_lt.1 hold)
      rw [if_neg hold, Nat.add_sub_cancel_left, Nat.add_sub_add_left]
      by_cases hj : j < 8
      · rw [if_pos (by omega), if_neg hold, hbyte, getMsbD_pushedByte hpos hab hac hj]
        simp only [Nat.add_lt_add_iff_left]
      · have hkept := getMsbD_keptBits (v := v) (j := j - 8) hab.le
        have hidx : 8 * d.olen + j - 8 * (d.olen + 1) = j - 8 := by omega
        rw [if_neg (by omega), if_neg (by omega), hidx, hkept, Nat.sub_add_cancel (by omega)]

theorem HoldsChunks.pushAll {cs : List Chunk} {d : Dec} (h : HoldsChunks cs d) (vs : List Chunk) :
    HoldsChunks (cs ++ vs) (pushAll vs d) := by
  induction vs generalizing cs d with
  | nil => simpa [pushAll_nil] using h
  | cons v vs ih => simpa [pushAll_cons] using ih (h.push v)

/-- An engine that holds the chunks of a buffer has the bytes of the buffer in DEC.OUT: the fill bits are
fewer than a byte. -/
theorem HoldsChunks.output {bytes : List Byte} {d : Dec} (h : HoldsChunks (chunksOf bytes) d) :
    bufferBytes d.out d.olen = bytes := by
  obtain ⟨hcount, hdense, hbits⟩ := h
  have hout := length_bufferBytes hdense le_rfl
  have holen : d.olen = bytes.length := by
    have hab := d.ab.isLt
    have hsum := chunkCount_zeroFill bytes.length
    have hfill := zeroFill_eq bytes.length
    rw [length_chunksOf] at hcount
    omega
  apply List.ext_getElem (hout.trans holen)
  intro a ha ha'
  apply BitVec.eq_of_getMsbD_eq
  intro j hj
  have hbit := hbits (8 * a + j)
  rw [chunkBit_chunksOf, streamBit_append_singleton, if_pos (by omega)] at hbit
  have hbyte : (8 * a + j) / 8 = a := by omega
  have hpos : (8 * a + j) % 8 = j := by omega
  simpa [streamBit_eq_getMsbD, hbyte, hpos, ha, ha'] using hbit

end Sys2Proof.Machine

/-- Settles O43: the text that ENCODE packs parses to the chunks of the input, and the output bytes of an
engine that has pushed them are the input. -/
theorem decodeOfEncodeReturnsInput : Obligations.DecodeOfEncodeReturnsInput := by
  intro s bytes
  obtain ⟨t, hencode, htext, -, -, -⟩ := encodePacksChunks s bytes
  have hparse : parseText t.strict (packChunks (chunksOf bytes)) = .ok (chunksOf bytes) :=
    textChunks_packChunks t.strict _ le_rfl
  rw [← htext] at hparse
  refine ⟨t, _, hencode, exec_decode_of_parse hparse, rfl, ?_, ?_⟩
  · exact pushAll_err _ _
  · exact ((holdsChunks_decClear _).pushAll (chunksOf bytes)).output
end

section
/-! SUPPORT. PUSH7 as a window (43_unpacker.md R161, R162): what it emits and what it keeps, cut out of the
bits held and the chunk. -/

open Sys2Proof Sys2Proof.Machine

namespace Sys2Proof.Machine

section
variable {ac : Byte} {v : Chunk} {a b n : Nat} {d : Dec}

/-! ### PUSH7 by the fill of the accumulator (R160) -/

theorem pushChunk_of_empty (h : d.ab = 0#3) :
    pushChunk v d = (none, { d with ac := v.setWidth 8 <<< 1, ab := 7#3 }) := by
  rcases pushChunk_cases v d with ⟨-, hpush⟩ | ⟨hne, -⟩
  · exact hpush
  · exact absurd h hne

theorem pushChunk_of_held (h : d.ab.toNat = a) (ha : 0 < a) :
    pushChunk v d = (some (d.ac ||| (v >>> (a - 1)).setWidth 8),
      { d with
        ac := v.setWidth 8 <<< (9 - a)
        ab := BitVec.ofNat 3 (a - 1)
        out := memPut d.out d.olen (d.ac ||| (v >>> (a - 1)).setWidth 8)
        olen := d.olen + 1 }) := by
  subst h
  rcases pushChunk_cases v d with ⟨h0, -⟩ | ⟨-, _, rfl, hpush⟩
  · simp [h0] at ha
  · exact hpush

/-! ### The 15-bit window (R161) -/

/-- The window W of R161: the accumulator, and the chunk after `a` of its bits. -/
def pushWindow (ac : Byte) (v : Chunk) (a : Nat) : BitVec 15 :=
  (ac.setWidth 15 <<< 7) ||| (v.setWidth 15 <<< (8 - a))

/-- The top 8 bits of the window are the byte that PUSH7 emits. -/
theorem pushWindow_top (ha : 0 < a) (ha8 : a < 8) :
    (pushWindow ac v a).extractLsb' 7 8 = ac ||| (v >>> (a - 1)).setWidth 8 := by
  apply BitVec.eq_of_getLsbD_eq
  intro i hi
  have hidx : 7 + i - (8 - a) = a - 1 + i := by omega
  have hshift : ¬ 7 + i < 8 - a := by omega
  have hin : 7 + i < 15 := by omega
  have hac : i < 15 := by omega
  have hchunk : a - 1 + i < 15 := by omega
  simp only [pushWindow, BitVec.getLsbD_extractLsb', BitVec.getLsbD_or, BitVec.getLsbD_shiftLeft,
    BitVec.getLsbD_setWidth, BitVec.getLsbD_ushiftRight]
  simp [hi, hidx, hshift, hin, hac, hchunk]

/-- From an empty accumulator they are the chunk, which is all that PUSH7 keeps. -/
theorem pushWindow_top_empty : (pushWindow 0#8 v 0).extractLsb' 7 8 = v.setWidth 8 <<< 1 := by
  revert v
  decide

/-- The low 7 bits of the window are what PUSH7 carries. -/
theorem pushWindow_low (ha8 : a < 8) :
    (pushWindow ac v a).extractLsb' 0 7 ++ 0#1 = v.setWidth 8 <<< (9 - a) := by
  apply BitVec.eq_of_getLsbD_eq
  intro i hi
  rw [BitVec.getLsbD_append, BitVec.getLsbD_shiftLeft, BitVec.getLsbD_setWidth]
  by_cases h0 : i < 1
  · have hshift : i < 9 - a := by omega
    simp [h0, hshift]
  · have hidx : i - 1 - (8 - a) = i - (9 - a) := by omega
    have hshift : i - 1 < 8 - a ↔ i < 9 - a := by omega
    have hin : i - 1 < 7 := by omega
    have hwindow : i - 1 < 15 := by omega
    have hchunk : i - (9 - a) < 8 := by omega
    simp [pushWindow, h0, hi, hidx, hshift, hin, hwindow, hchunk]

/-! ### The parts of the byte by the bits held (R162) -/

/-- The bits of the accumulator below its `a` valid ones are 0 (R29). -/
theorem getMsbD_of_residue (hac : ac <<< a = 0#8) {j : Nat} (hj : a ≤ j) : ac.getMsbD j = false := by
  have hbit : (ac <<< a).getMsbD (j - a) = ac.getMsbD j := by
    rw [BitVec.getMsbD_shiftLeft, Nat.sub_add_cancel hj]
  rw [← hbit, hac, BitVec.getMsbD_zero]

/-- The byte that PUSH7 emits is the `a` bits held and the first `b` of the chunk. -/
theorem pushedByte_eq_append (hab : a + b = 8) (ha : 0 < a) (hb : 0 < b) (hac : ac <<< a = 0#8) :
    ac ||| (v >>> (a - 1)).setWidth 8 =
      (ac.extractLsb' b a ++ v.extractLsb' (a - 1) b).cast hab := by
  apply BitVec.eq_of_getMsbD_eq
  intro j hj
  rw [getMsbD_pushedByte ha (by omega) (fun _ => getMsbD_of_residue hac) hj, BitVec.getMsbD_cast,
    BitVec.getMsbD_append]
  by_cases hheld : j < a
  · have hidx : 8 - (b + a - j) = j := by omega
    have hin : b + a - j ≤ 8 := by omega
    simp [hheld, BitVec.getMsbD_extractLsb', hidx, hin]
  · have hidx : 7 - (a - 1 + b - (j - a)) = j - a := by omega
    have hin : a - 1 + b - (j - a) ≤ 7 := by omega
    have hlt : j - a < b := by omega
    simp [hheld, Nat.le_of_not_lt hheld, BitVec.getMsbD_extractLsb', hidx, hin, hlt]

/-- What PUSH7 keeps is the last bits of the chunk, zeros after them. -/
theorem keptBits_eq_append (hbn : b + n = 8) (hn : 0 < n) :
    v.setWidth 8 <<< n = (v.extractLsb' 0 b ++ 0#n).cast hbn := by
  apply BitVec.eq_of_getLsbD_eq
  intro i hi
  rw [BitVec.getLsbD_shiftLeft, BitVec.getLsbD_setWidth, BitVec.getLsbD_cast, BitVec.getLsbD_append,
    BitVec.getLsbD_extractLsb', Nat.zero_add]
  by_cases hlow : i < n
  · simp [hlow]
  · have hin : i - n < b := by omega
    have hbyte : i - n < 8 := by omega
    simp [hlow, hi, hin, hbyte]

end

end Sys2Proof.Machine

/-- Settles O25: each row of the table splits the emitted byte after the bits held, and the chunk where
the byte ends. -/
theorem pushByAccumulatorFill : Obligations.PushByAccumulatorFill := by
  intro d v hac emits
  have hrow : ∀ (a b : Nat) {byte rest : Byte} (hab : a + 1 + b = 8), 0 < b →
      (d.ac.extractLsb' b (a + 1) ++ v.extractLsb' a b).cast hab = byte →
      (v.extractLsb' 0 a ++ 0#(b + 1)).cast (by omega) = rest →
      d.ab = BitVec.ofNat 3 (a + 1) → emits byte rest (BitVec.ofNat 3 a) := by
    rintro a b _ _ hab hb rfl rfl h
    have hheld : d.ab.toNat = a + 1 := by
      rw [h, BitVec.toNat_ofNat]
      omega
    have hshift : 9 - (a + 1) = b + 1 := by omega
    have hpush := pushChunk_of_held (v := v) hheld (Nat.succ_pos a)
    rw [hheld] at hac
    rwa [pushedByte_eq_append hab (Nat.succ_pos a) hb hac, hshift,
      keptBits_eq_append (b := a) (by omega) (Nat.succ_pos b)] at hpush
  have hwhole : v.extractLsb' 0 7 = v := BitVec.extractLsb'_eq_self
  refine ⟨fun h => ?_, hrow 0 7 rfl (by decide) (by simp [hwhole]) (by simp),
    hrow 1 6 rfl (by decide) rfl rfl, hrow 2 5 rfl (by decide) rfl rfl,
    hrow 3 4 rfl (by decide) rfl rfl, hrow 4 3 rfl (by decide) rfl rfl,
    hrow 5 2 rfl (by decide) rfl rfl, hrow 6 1 rfl (by decide) rfl rfl⟩
  have hkept : v.setWidth 8 <<< 1 = v.extractLsb' 0 7 ++ 0#1 := keptBits_eq_append rfl (by decide)
  rw [pushChunk_of_empty h, hkept, hwhole]

/-- Settles O26: the two ends of the window are what PUSH7 emits and carries. -/
theorem pushIsWindow : Obligations.PushIsWindow := by
  intro d v hempty a w
  have hlt : a < 8 := d.ab.isLt
  have hw : w = pushWindow d.ac v a := rfl
  by_cases h0 : d.ab = 0#3
  · have ha : a = 0 := by simp [a, h0]
    rw [if_neg (by omega), hw, ha, hempty h0, pushChunk_of_empty h0, pushWindow_top_empty]
  · have hpos : 0 < a := Nat.pos_of_ne_zero fun h => h0 (BitVec.eq_of_toNat_eq h)
    have hab : a + 7 - 8 = a - 1 := by omega
    rw [if_pos (by omega), hw, pushWindow_top hpos hlt, pushWindow_low hlt, hab]
    exact pushChunk_of_held rfl hpos
end

section
/-! SUPPORT. DECODE of a text that parses (43_unpacker.md R176, R177): the whole bytes of the chunk bit
string are in DEC.OUT, and its last bits in DEC.AC. -/

open Sys2Proof Sys2Proof.Machine

namespace Sys2Proof.Machine

/-- The byte of eight bits, the first of them at the top. -/
theorem getMsbD_ofNat_bitsToNat (f : Nat → Bool) {j : Nat} (hj : j < 8) :
    (BitVec.ofNat 8 (bitsToNat ((List.range 8).map f))).getMsbD j = f j := by
  have hidx : 8 - 1 - (8 - 1 - j) = j := by omega
  have hin : 8 - 1 - j < 8 := by omega
  rw [BitVec.getMsbD, BitVec.getLsbD_ofNat, testBit_bitsToNat, hidx]
  simp only [hj, hin, decide_true, Bool.true_and]

section
variable {cs : List Chunk} {d : Dec}

theorem HoldsChunks.size (h : HoldsChunks cs d) :
    d.olen = 7 * cs.length / 8 ∧ d.ab.toNat = 7 * cs.length % 8 := by
  have hcount := h.count
  have hab := d.ab.isLt
  omega

/-- The first bits of the string are in the output (R176). -/
theorem HoldsChunks.bufferBytes_eq (h : HoldsChunks cs d) :
    bufferBytes d.out d.olen = chunkBytes cs := by
  have hout := length_bufferBytes h.outputDense le_rfl
  obtain ⟨holen, -⟩ := h.size
  apply List.ext_getElem
  · rw [hout, holen]
    simp [chunkBytes]
  intro a ha ha'
  apply BitVec.eq_of_getMsbD_eq
  intro j hj
  have hbit := h.bits (8 * a + j)
  have hbyte : (8 * a + j) / 8 = a := by omega
  have hpos : (8 * a + j) % 8 = j := by omega
  rw [streamBit_append_singleton, if_pos (by omega)] at hbit
  simp only [chunkBytes, List.getElem_map, List.getElem_range, getMsbD_ofNat_bitsToNat _ hj]
  simpa [streamBit_eq_getMsbD, hbyte, hpos, ha] using hbit

/-- The bits after them are in the accumulator (R176). -/
theorem HoldsChunks.getMsbD_ac (h : HoldsChunks cs d) (j : Nat) :
    d.ac.getMsbD j = chunkBit cs (8 * d.olen + j) := by
  have hout := length_bufferBytes h.outputDense le_rfl
  rw [← h.bits, streamBit_append_singleton, hout, if_neg (by omega), Nat.add_sub_cancel_left]

/-- The accumulator is 0 beyond the end of the string (R29). -/
theorem HoldsChunks.residue (h : HoldsChunks cs d) : d.ac <<< d.ab.toNat = 0#8 := by
  have hcount := h.count
  apply BitVec.eq_of_getMsbD_eq
  intro j _
  rw [BitVec.getMsbD_shiftLeft, h.getMsbD_ac, chunkBit_beyond (by omega), BitVec.getMsbD_zero]

end

theorem holdsChunks_decodedEngine (s : State) (text : List Byte) (cs : List Chunk) :
    HoldsChunks cs (decodedEngine s text cs) := by
  obtain ⟨hcount, hdense, hbits⟩ :=
    (holdsChunks_decClear (placeText s text).dec).pushAll cs
  exact ⟨hcount, hdense, hbits⟩

theorem decodedEngine_pc (s : State) (text : List Byte) (cs : List Chunk) :
    (decodedEngine s text cs).pc = text.length := by
  simp [decodedEngine, endedRun, pushAll_pc]

theorem decodedEngine_err (s : State) (text : List Byte) (cs : List Chunk) :
    (decodedEngine s text cs).err = false := by
  simp [decodedEngine, endedRun, pushAll_err]

end Sys2Proof.Machine

/-- Settles O38: the engine at the end of the run holds the bit string of the chunks, which its size cuts
into the bytes of DEC.OUT and the bits of DEC.AC. -/
theorem decodeOfValidText : Obligations.DecodeOfValidText := by
  intro s text cs hparse
  have hholds := holdsChunks_decodedEngine s text cs
  obtain ⟨holen, hab⟩ := hholds.size
  refine ⟨_, exec_decode_of_parse hparse, rfl, decodedEngine_err s text cs,
    decodedEngine_pc s text cs, holen, hholds.bufferBytes_eq, hab, fun i hi => ?_, hholds.residue⟩
  have hbit := hholds.getMsbD_ac i
  have hin : i < 8 := hi.trans (decodedEngine s text cs).ab.isLt
  rwa [BitVec.getMsbD, decide_eq_true hin, Bool.true_and] at hbit
end

section
/-! SUPPORT. The checks of DEC.STEP (43_unpacker.md R168) on the one or two bytes at DEC.PC: which unit is
fetched, and the code of R202 that it leaves. -/

open Sys2Proof Sys2Proof.Machine

namespace Sys2Proof.Machine

/-! ### The code of the check that a unit fails -/

/-- The code that executing a unit leaves in DEC.CAUSE (R202), 0 where the unit passes the checks. -/
def failureCode (i : Instr) : BitVec 3 := (unitCause i).elim 0#3 causeCode

theorem failureCode_of_cause {i : Instr} {cause : Cause} (h : unitCause i = some cause) :
    failureCode i = causeCode cause := by
  rw [failureCode, h, Option.elim_some]

theorem causeCode_ne_zero (cause : Cause) : causeCode cause ≠ 0#3 := by
  cases cause <;> decide

theorem unitCause_eq_none_iff {i : Instr} : unitCause i = none ↔ failureCode i = 0#3 := by
  cases h : unitCause i with
  | none => simp [failureCode, h]
  | some cause => simp [failureCode_of_cause h, causeCode_ne_zero]

/-- Checks 4 to 7 on the scalar of a two-byte unit, in their order. Below them the unit depends on the
index field, the fixed bit, STRICT and whether the payload is dangerous. -/
theorem failureCode_scalarUnit (strict : Bool) (x : Scalar) :
    failureCode (scalarUnit strict x) =
      if x.toNat < 128 then 4#3
      else if strict = true ∧ scalarFixed x = false then 5#3
      else if scalarIndex x = 6#3 then 6#3
      else if strict = true ∧ scalarIndex x = 7#3 ∧ Config.inDtab (scalarPayload x) = false then 7#3
      else 0#3 := by
  simp only [scalarUnit, BitVec.lt_def, BitVec.toNat_ofNat, apply_ite failureCode,
    apply_dite failureCode]
  by_cases hover : x.toNat < 128
  · simp [hover, failureCode, unitCause, causeCode]
  · simp only [hover, failureCode, unitCause, causeCode, Option.elim]
    generalize Config.inDtab (scalarPayload x) = dangerous, scalarIndex x = k, scalarFixed x = fixed
    revert strict dangerous k fixed
    decide

/-- Check 3 on the second byte comes before those on the scalar. -/
theorem decodeUnit_escape {strict : Bool} {b1 b2 : Byte} (h : beginsEscape b1 = true) :
    ∃ i, decodeUnit strict [b1, b2] = .ok (i, []) ∧ (unitBytes i).length = 2 ∧
      failureCode i = if ¬ (0x80 ≤ b2.toNat ∧ b2.toNat ≤ 0xBF) then 3#3
        else failureCode (scalarUnit strict (unitScalar b1 b2)) := by
  by_cases hcont : isContinuation b2 = true
  · refine ⟨_, decodeUnit_twoBytes h hcont, length_unitBytes_scalarUnit _ _, ?_⟩
    rw [if_neg (not_not.2 (isContinuation_iff.1 hcont))]
  · refine ⟨_, decodeUnit_cont h hcont, rfl, ?_⟩
    rw [if_pos (mt isContinuation_iff.2 hcont)]
    rfl

/-! ### The unit that DEC.STEP fetches (R58) -/

section
variable {d : Dec} {b1 b2 : Byte}

theorem fetchUnit_oneByte (hpc : d.pc < d.tlen) (h1 : memGet d.txt d.pc = some b1)
    (hone : ¬ (beginsEscape b1 = true ∧ d.pc + 1 < d.tlen)) : fetchUnit d = .next [b1] := by
  have hread : readText d d.pc = .next b1 := memRead_eq_next.2 ⟨hpc, h1⟩
  rw [← decide_eq_true_iff (p := d.pc + 1 < d.tlen), ← Bool.and_eq_true] at hone
  rw [fetchUnit, hread, andThen_next, if_neg hone]

theorem fetchUnit_twoBytes (hesc : beginsEscape b1 = true) (hmore : d.pc + 1 < d.tlen)
    (h1 : memGet d.txt d.pc = some b1) (h2 : memGet d.txt (d.pc + 1) = some b2) :
    fetchUnit d = .next [b1, b2] := by
  have hread1 : readText d d.pc = .next b1 := memRead_eq_next.2 ⟨Nat.lt_of_succ_lt hmore, h1⟩
  have hread2 : readText d (d.pc + 1) = .next b2 := memRead_eq_next.2 ⟨hmore, h2⟩
  simp [fetchUnit, hread1, hread2, hesc, hmore]

end

/-! ### DEC.STEP by the check that the fetched unit fails -/

theorem pushAll_done (cs : List Chunk) (d : Dec) : (pushAll cs d).done = d.done := by
  refine pushAll_keeps (P := fun d' => d'.done = d.done) (fun v d' h => ?_) cs rfl
  obtain ⟨-, -, hdone, -⟩ := pushChunk_frame v d'
  exact hdone.trans h

section
variable {s : State} {bytes rest : List Byte} {i : Instr}

theorem execDecStep_of_fetch (hdone : s.dec.done = false) (hpc : s.dec.pc < s.dec.tlen)
    (hfetch : fetchUnit s.dec = .next bytes) (hdec : decodeUnit s.strict bytes = .ok (i, rest)) :
    execDecStep s = exec i s := by
  have hmore : ¬ s.dec.tlen ≤ s.dec.pc := Nat.not_le.2 hpc
  simp [execDecStep, hdone, decAtEnd, hmore, hfetch, hdec,
    runUnit_eq_exec (decodeUnit_isTextUnit hdec)]

/-- A unit that passes is executed without an error, and moves DEC.PC past its bytes. -/
theorem exec_of_passing (hunit : isTextUnit i = true) (h : unitCause i = none) :
    ∃ t, exec i s = .next t ∧ t.dec.err = s.dec.err ∧ t.dec.done = s.dec.done ∧
      t.dec.pc = s.dec.pc + (unitBytes i).length := by
  refine ⟨setDec s (advancePc (unitBytes i).length (pushAll (unitChunks i) s.dec)), ?_,
    pushAll_err _ _, pushAll_done _ _, ?_⟩
  · rw [exec_unit hunit, h]
    rfl
  · rw [setDec_dec, advancePc_pc, pushAll_pc]

/-- A unit that fails raises at DEC.PC. -/
theorem exec_of_failing (hunit : isTextUnit i = true) {cause : Cause} (h : unitCause i = some cause) :
    exec i s = .next (setDec s (raisedAt s.dec (causeCode cause))) := by
  rw [exec_unit hunit, h]
  rfl

/-- DEC.STEP by the code of the fetched unit: it executes the unit or raises. -/
theorem exec_decStep_of_code {code : BitVec 3} {len : Nat} (hdone : s.dec.done = false)
    (hpc : s.dec.pc < s.dec.tlen) (hfetch : fetchUnit s.dec = .next bytes)
    (hdec : decodeUnit s.strict bytes = .ok (i, rest)) (hcode : failureCode i = code)
    (hlen : code = 0#3 → (unitBytes i).length = len) :
    if code = 0#3 then
      ∃ t, exec .decStep s = .next t ∧ t.dec.err = s.dec.err ∧ t.dec.done = false ∧
        t.dec.pc = s.dec.pc + len
    else exec .decStep s = .next (setDec s (raisedAt s.dec code)) := by
  have hunit := decodeUnit_isTextUnit hdec
  have hexec : exec .decStep s = exec i s := execDecStep_of_fetch hdone hpc hfetch hdec
  rw [hexec]
  cases hcause : unitCause i with
  | none =>
    have hpass : code = 0#3 := hcode.symm.trans (unitCause_eq_none_iff.1 hcause)
    rw [if_pos hpass, ← hlen hpass, ← hdone]
    exact exec_of_passing hunit hcause
  | some cause =>
    rw [← hcode, failureCode_of_cause hcause, if_neg (causeCode_ne_zero cause)]
    exact exec_of_failing hunit hcause

end

end Sys2Proof.Machine

/-- Settles O32: the first byte frames the unit (checks 1 and 2), the second byte and the scalar select
it (checks 3 to 7). -/
theorem checksInOrder : Obligations.ChecksInOrder := by
  intro s b1 b2 hdone hpc h1 h2 n scalar k p failing
  have hone := fetchUnit_oneByte hpc h1
  have hframe : beginsEscape b1 = true ↔ 0xC0 ≤ n ∧ n ≤ 0xDF := beginsEscape_iff
  obtain ⟨bytes, rest, i, hfetch, hdec, hcode, hlen⟩ : ∃ bytes rest i,
      fetchUnit s.dec = .next bytes ∧ decodeUnit s.strict bytes = .ok (i, rest) ∧
      failureCode i = failing ∧
      (failing = 0#3 → (unitBytes i).length = if n ≤ 0x7F then 1 else 2) := by
    by_cases hlead : (0x80 ≤ n ∧ n ≤ 0xBF) ∨ 0xE0 ≤ n
    · obtain ⟨i, hdec, hcause⟩ := decodeUnit_lead (strict := s.strict) (rest := []) hlead
      have hesc : ¬ beginsEscape b1 = true := fun h => by have := hframe.1 h; omega
      rw [show failing = 1#3 from if_pos hlead]
      exact ⟨_, _, i, hone fun h => hesc h.1, hdec, failureCode_of_cause hcause, nofun⟩
    by_cases hlit : n ≤ 0x7F
    · have hesc : ¬ beginsEscape b1 = true := fun h => by have := hframe.1 h; omega
      rw [show failing = 0#3 from (if_neg hlead).trans (if_pos hlit), if_pos hlit]
      exact ⟨_, _, _, hone fun h => hesc h.1, decodeUnit_literal hlit, rfl, fun _ => rfl⟩
    have hesc : beginsEscape b1 = true := hframe.2 (by omega)
    by_cases htrunc : s.dec.tlen ≤ s.dec.pc + 1
    · rw [show failing = 2#3 from (if_neg hlead).trans ((if_neg hlit).trans (if_pos htrunc))]
      exact ⟨_, _, _, hone fun h => Nat.not_le.2 h.2 htrunc, decodeUnit_trunc hesc, rfl, nofun⟩
    · have hmore := Nat.not_le.1 htrunc
      obtain ⟨i, hdec, hlen, hcode⟩ := decodeUnit_escape (strict := s.strict) (b2 := b2) hesc
      rw [failureCode_scalarUnit] at hcode
      rw [if_neg hlit]
      refine ⟨_, _, i, fetchUnit_twoBytes hesc hmore h1 (h2 hmore), hdec, ?_, fun _ => hlen⟩
      exact hcode.trans ((if_neg hlead).trans ((if_neg hlit).trans (if_neg htrunc))).symm
  exact exec_decStep_of_code hdone hpc hfetch hdec hcode hlen
end

section
/-! SUPPORT. The system operations (44_system.md R190, R193): a STEP after DONE, and ENC.START, which is
the reset of the encode engine. -/

open Sys2Proof Sys2Proof.Machine

namespace Sys2Proof.Machine

theorem execDecStep_of_done {s : State} (h : s.dec.done = true) : execDecStep s = .next s :=
  if_pos h

@[simp] theorem encClear_encClear (e : Enc) : encClear (encClear e) = encClear e := rfl

/-- ENC.START is the reset of the encode engine. -/
theorem exec_encStart (s : State) : exec .encStart s = .next (setEnc s (encClear s.enc)) := rfl

theorem exec_encStart_of_cleared (s : State) :
    exec .encStart (setEnc s (encClear s.enc)) = .next (setEnc s (encClear s.enc)) := by
  rw [exec_encStart, setEnc_enc, encClear_encClear, setEnc_setEnc]

end Sys2Proof.Machine

/-- Settles O37: DONE is the first thing that either STEP looks at. ENC.STEP puts back the engine it
found, and DEC.STEP answers the state itself before it looks at any other flag. -/
theorem stepAfterDoneDoesNothing : Obligations.StepAfterDoneDoesNothing := by
  intro s
  constructor
  · intro hdone
    have hstep := exec_encStep_of_step (encodeStep_of_done hdone)
    rwa [setEnc_self] at hstep
  · intro hdone
    exact execDecStep_of_done hdone

/-- Settles O46: the state after ENC.START is the one with the engine's reset, which a second START
leaves as it is. -/
theorem encStartResets : Obligations.EncStartResets := by
  intro s
  exact ⟨setEnc s (encClear s.enc), exec_encStart s, rfl, exec_encStart_of_cleared s⟩
end

section
/-! SUPPORT. Power-on (70_reset_and_hazards.md R230): both engines as their START leaves them, at the end
of an empty run. -/

open Sys2Proof Sys2Proof.Machine

namespace Sys2Proof.Machine

/-! ### Each engine as its START leaves it, inputs empty -/

theorem encClear_reset : encClear State.reset.enc = State.reset.enc := rfl

theorem decClear_reset : decClear State.reset.dec = State.reset.dec := rfl

/-- The decode engine at power-on runs the empty text. -/
theorem runsText_reset : RunsText [] State.reset.dec := ⟨rfl, rfl, rfl⟩

/-! ### START and a premature STEP at power-on -/

/-- DEC.START is the reset of the decode engine. -/
theorem exec_decStart (s : State) : exec .decStart s = .next (setDec s (decClear s.dec)) := rfl

theorem exec_encStart_reset : exec .encStart State.reset = .next State.reset := by
  rw [exec_encStart, encClear_reset, setEnc_self]

theorem exec_decStart_reset : exec .decStart State.reset = .next State.reset := by
  rw [exec_decStart, decClear_reset, setDec_self]

/-- The cursor stands at the end of the empty input, so the first ENC.STEP ends the run (R148). -/
theorem exec_encStep_reset :
    exec .encStep State.reset = .next (setEnc State.reset (encSetDone State.reset.enc)) :=
  exec_encStep_of_step (encodeStep_exhausted rfl (Nat.zero_le _))

/-- DEC.PC stands at the end of the empty text, so the first DEC.STEP ends the run (R172). -/
theorem exec_decStep_reset :
    exec .decStep State.reset = .next (setDec State.reset (decSetDone State.reset.dec)) :=
  execDecStep_at_end runsText_reset rfl

end Sys2Proof.Machine

/-- Settles O48: the values are those of the reset state, a START clears what is clear already, and each
STEP finds its empty input exhausted. -/
theorem resetIsStartWithEmptyInputs : Obligations.ResetIsStartWithEmptyInputs := by
  unfold Obligations.ResetIsStartWithEmptyInputs
  intro r
  refine ⟨rfl, rfl, rfl, rfl, rfl, rfl, rfl, rfl, rfl, rfl, rfl, rfl, rfl, rfl, rfl, rfl, rfl, rfl,
    ?start_enc, ?start_dec, ?step_enc, ?step_dec⟩
  case start_enc => exact exec_encStart_reset
  case start_dec => exact exec_decStart_reset
  case step_enc => exact exec_encStep_reset
  case step_dec => exact exec_decStep_reset
end

section
/-! SUPPORT. Decode and encode (30_encoding.md R84 to R95): each unit's bytes decode to it, whatever follows
them, and what the unit decoder answers has the bytes that it read. -/

open Sys2Proof Sys2Proof.Machine

namespace Sys2Proof

/-! ### The two-byte forms (R84, R86) -/

theorem indexField_of_lt {k : IndexField} (h : k.toNat < 6) : indexField ⟨k.toNat, h⟩ = k := by
  simp [indexField]

theorem index_eq_seven {k : IndexField} (h : 6 ≤ k.toNat) (h6 : k ≠ 6#3) : k = 7#3 := by
  revert k
  decide

section
variable (strict : Bool) (k : IndexField) (f : Bool) (p : Chunk)

/-- The two bytes of a form decode to the unit of its fields, whatever follows them. -/
theorem decodeUnit_twoBytes_append (rest : List Byte) :
    decodeUnit strict (twoBytes k f p ++ rest) = .ok (scalarUnit strict (scalarOf k f p), rest) := by
  have hf := Bool.toNat_lt f
  have hp := p.isLt
  have hfirst : (0b110#3 ++ k ++ BitVec.ofBool f ++ p.extractLsb' 6 1).toNat ∈ firstBytes k f := by
    simp only [firstBytes, List.mem_cons, List.not_mem_nil, or_false, toNat_append_eq_add,
      BitVec.toNat_ofBool, BitVec.extractLsb'_toNat, Nat.shiftRight_eq_div_pow, BitVec.toNat_ofNat]
    omega
  have hsecond : isContinuation (0b10#2 ++ p.extractLsb' 0 6) = true := by
    rw [isContinuation_iff]
    simp only [toNat_append_eq_add, BitVec.extractLsb'_toNat, Nat.shiftRight_zero, BitVec.toNat_ofNat]
    omega
  have hpayload : (0b110#3 ++ k ++ BitVec.ofBool f ++ p.extractLsb' 6 1).extractLsb' 0 1 ++
      (0b10#2 ++ p.extractLsb' 0 6).extractLsb' 0 6 = p := by
    apply BitVec.eq_of_toNat_eq
    simp only [toNat_append_eq_add, BitVec.extractLsb'_toNat, Nat.shiftRight_eq_div_pow,
      BitVec.toNat_ofNat]
    omega
  have hunit := decodeUnit_firstBytes (strict := strict) (rest := rest) hfirst hsecond
  rwa [hpayload] at hunit

/-- With the fixed bit set, a unit meets its operand conditions and has the bytes of its fields. -/
theorem scalarUnit_fixed_set_sound :
    (scalarUnit strict (scalarOf k true p)).wellFormedAt strict = true ∧
      unitBytes (scalarUnit strict (scalarOf k true p)) = twoBytes k true p := by
  rw [scalarUnit_fixed_set]
  split_ifs with h0 h1 h2 h3 h4 h5 h6 hshort
  · exact ⟨rfl, h0 ▸ rfl⟩
  · exact ⟨rfl, h1 ▸ rfl⟩
  · exact ⟨rfl, h2 ▸ rfl⟩
  · exact ⟨rfl, h3 ▸ rfl⟩
  · exact ⟨rfl, h4 ▸ rfl⟩
  · exact ⟨rfl, h5 ▸ rfl⟩
  · exact ⟨rfl, h6 ▸ rfl⟩
  all_goals
    obtain rfl : k = 7#3 := index_eq_seven (by bv_omega) h6
  · exact ⟨hshort, rfl⟩
  · exact ⟨by simpa [Instr.wellFormedAt, imp_iff_not_or] using hshort, rfl⟩

/-- With the fixed bit clear, a unit meets its operand conditions and has the bytes of its fields. -/
theorem scalarUnit_fixed_clear_sound :
    (scalarUnit strict (scalarOf k false p)).wellFormedAt strict = true ∧
      unitBytes (scalarUnit strict (scalarOf k false p)) = twoBytes k false p := by
  rw [scalarUnit_fixed_clear]
  split_ifs with h0 hstrict hk h6
  · exact ⟨rfl, h0 ▸ rfl⟩
  · exact ⟨by simpa [Instr.wellFormedAt, hstrict] using h0, rfl⟩
  all_goals
    obtain rfl : strict = false := by simpa using hstrict
  · have hne : (⟨k.toNat, hk⟩ : Index) ≠ 0 := fun h =>
      h0 (BitVec.eq_of_toNat_eq (Fin.mk.inj h))
    refine ⟨by simpa [Instr.wellFormedAt] using hne, ?_⟩
    simp [unitBytes, encode, indexField_of_lt hk]
  · exact ⟨rfl, h6 ▸ rfl⟩
  · obtain rfl : k = 7#3 := index_eq_seven (Nat.not_lt.1 hk) h6
    exact ⟨rfl, rfl⟩

/-- The unit of a two-byte form meets its operand conditions and has the bytes of its fields. -/
theorem scalarUnit_sound :
    (scalarUnit strict (scalarOf k f p)).wellFormedAt strict = true ∧
      unitBytes (scalarUnit strict (scalarOf k f p)) = twoBytes k f p := by
  cases f with
  | false => exact scalarUnit_fixed_clear_sound strict k p
  | true => exact scalarUnit_fixed_set_sound strict k p

end

theorem escape_byte_fields {b : Byte} (h : beginsEscape b = true) :
    0b110#3 ++ b.extractLsb' 2 3 ++ BitVec.ofBool (b.getLsbD 1) ++ b.extractLsb' 0 1 = b := by
  revert b
  decide

theorem continuation_byte {b : Byte} (h : isContinuation b = true) :
    0b10#2 ++ b.extractLsb' 0 6 = b := by
  revert b
  decide

/-- Two bytes that frame a two-byte unit are those of some fields (R86). -/
theorem twoBytes_of_framed {b1 b2 : Byte} (h1 : beginsEscape b1 = true)
    (h2 : isContinuation b2 = true) : ∃ k f p, [b1, b2] = twoBytes k f p := by
  refine ⟨b1.extractLsb' 2 3, b1.getLsbD 1, b1.extractLsb' 0 1 ++ b2.extractLsb' 0 6, ?_⟩
  have hhigh : (b1.extractLsb' 0 1 ++ b2.extractLsb' 0 6).extractLsb' 6 1 = b1.extractLsb' 0 1 := by
    rw [BitVec.extractLsb'_append_eq_of_le (by decide)]
    simp
  have hlow : (b1.extractLsb' 0 1 ++ b2.extractLsb' 0 6).extractLsb' 0 6 = b2.extractLsb' 0 6 := by
    rw [BitVec.extractLsb'_append_eq_of_add_le (by decide)]
    simp
  rw [twoBytes, hhigh, hlow, escape_byte_fields h1, continuation_byte h2]

/-! ### The one-byte forms and the illegal units of a first byte (R81, R89) -/

theorem literal_byte {b : Byte} (h : b.getLsbD 7 = false) : 0#1 ++ b.extractLsb' 0 7 = b := by
  revert b
  decide

theorem escape_byte {b : Byte} (h : beginsEscape b = true) : 0b110#3 ++ b.extractLsb' 0 5 = b := by
  revert b
  decide

theorem lead111_byte {b : Byte} (h7 : ¬ b.getLsbD 7 = false) (hesc : ¬ beginsEscape b = true)
    (h6 : b.getLsbD 6 = true) : 0b111#3 ++ b.extractLsb' 0 5 = b := by
  revert b
  decide

theorem lead10_byte {b : Byte} (h7 : ¬ b.getLsbD 7 = false) (h6 : ¬ b.getLsbD 6 = true) :
    0b10#2 ++ b.extractLsb' 0 6 = b := by
  revert b
  decide

section
variable {strict : Bool} {b : Byte} {rest : List Byte}

theorem decodeUnit_lead111 (h7 : ¬ b.getLsbD 7 = false) (hesc : ¬ beginsEscape b = true)
    (h6 : b.getLsbD 6 = true) :
    decodeUnit strict (b :: rest) = .ok (.illLead111 (b.extractLsb' 0 5), rest) := by
  simp only [decodeUnit.eq_def, if_neg h7, if_neg hesc, if_pos h6]

theorem decodeUnit_lead10 (h7 : ¬ b.getLsbD 7 = false) (hesc : ¬ beginsEscape b = true)
    (h6 : ¬ b.getLsbD 6 = true) :
    decodeUnit strict (b :: rest) = .ok (.illLead10 (b.extractLsb' 0 6), rest) := by
  simp only [decodeUnit.eq_def, if_neg h7, if_neg hesc, if_neg h6]

end

/-! ### From bytes to a unit and back -/

/-- What the unit decoder answers meets its operand conditions, and its bytes are those it read. -/
theorem decodeUnit_sound {strict : Bool} {bytes rest : List Byte} {i : Instr}
    (h : decodeUnit strict bytes = .ok (i, rest)) :
    i.wellFormedAt strict = true ∧ unitBytes i ++ rest = bytes := by
  cases bytes with
  | nil => simp [decodeUnit] at h
  | cons b1 tail =>
    by_cases hesc : beginsEscape b1 = true
    · cases tail with
      | nil =>
        rw [decodeUnit_trunc hesc] at h
        cases h
        exact ⟨rfl, by simp [unitBytes, encode, escape_byte hesc]⟩
      | cons b2 tail =>
        by_cases hcont : isContinuation b2 = true
        · obtain ⟨k, f, p, hbytes⟩ := twoBytes_of_framed hesc hcont
          have htext : b1 :: b2 :: tail = twoBytes k f p ++ tail := congrArg (· ++ tail) hbytes
          obtain ⟨hwf, hunit⟩ := scalarUnit_sound strict k f p
          rw [htext, decodeUnit_twoBytes_append] at h
          cases h
          exact ⟨hwf, by rw [hunit, htext]⟩
        · rw [decodeUnit_cont hesc hcont] at h
          cases h
          exact ⟨by simpa [Instr.wellFormedAt, isContinuation] using hcont,
            by simp [unitBytes, encode, escape_byte hesc]⟩
    · by_cases h7 : b1.getLsbD 7 = false
      · rw [decodeUnit_literal (topBit_clear_iff.1 h7)] at h
        cases h
        exact ⟨rfl, by simp [unitBytes, encode, literal_byte h7]⟩
      · by_cases h6 : b1.getLsbD 6 = true
        · rw [decodeUnit_lead111 h7 hesc h6] at h
          cases h
          exact ⟨rfl, by simp [unitBytes, encode, lead111_byte h7 hesc h6]⟩
        · rw [decodeUnit_lead10 h7 hesc h6] at h
          cases h
          exact ⟨rfl, by simp [unitBytes, encode, lead10_byte h7 h6]⟩

theorem literal_eq_setWidth (c : Chunk) : 0#1 ++ c = c.setWidth 8 := by
  revert c
  decide

theorem illLead10_fields (x : BitVec 6) :
    ¬ (0b10#2 ++ x).getLsbD 7 = false ∧ ¬ beginsEscape (0b10#2 ++ x) = true ∧
      ¬ (0b10#2 ++ x).getLsbD 6 = true ∧ (0b10#2 ++ x).extractLsb' 0 6 = x := by
  revert x
  decide

theorem illLead111_fields (x : BitVec 5) :
    ¬ (0b111#3 ++ x).getLsbD 7 = false ∧ ¬ beginsEscape (0b111#3 ++ x) = true ∧
      (0b111#3 ++ x).getLsbD 6 = true ∧ (0b111#3 ++ x).extractLsb' 0 5 = x := by
  revert x
  decide

theorem escape_fields (x : BitVec 5) :
    beginsEscape (0b110#3 ++ x) = true ∧ (0b110#3 ++ x).extractLsb' 0 5 = x := by
  revert x
  decide

theorem indexField_eq_zero (k : Index) : indexField k = 0#3 ↔ k = 0 := by
  revert k
  decide

theorem index_of_indexField (k : Index) (h : (indexField k).toNat < 6) :
    (⟨(indexField k).toNat, h⟩ : Index) = k := by
  revert k
  decide

/-- The code of a text unit is its bytes. -/
theorem encode_of_isTextUnit {i : Instr} (h : isTextUnit i = true) :
    encode i = some (.unit (unitBytes i)) := by
  unfold isTextUnit at h
  unfold unitBytes
  split at h <;> simp_all

/-- The bytes of a well-formed unit decode to it, whatever follows them; the unit of check 2 is the one
that nothing may follow. -/
theorem decodeUnit_unitBytes_append {strict : Bool} {i : Instr} {rest : List Byte}
    (hwf : i.wellFormedAt strict = true) (hunit : isTextUnit i = true)
    (htrunc : unitCause i = some .trunc → rest = []) :
    decodeUnit strict (unitBytes i ++ rest) = .ok (i, rest) := by
  have hset := fun k p => decodeUnit_twoBytes_append strict k true p rest
  have hclear := fun k p => decodeUnit_twoBytes_append strict k false p rest
  simp only [scalarUnit_fixed_set, scalarUnit_fixed_clear] at hset hclear
  cases i with
  | lit c => simpa [unitBytes, encode, literal_eq_setWidth] using decodeUnit_literalByte strict c rest
  | esc0 p => exact hset 0#3 p
  | esc1 p => exact hset 1#3 p
  | esc2 p => exact hset 2#3 p
  | esc3 p => exact hset 3#3 p
  | esc4 p => exact hset 4#3 p
  | esc5 p => exact hset 5#3 p
  | escs p =>
    have hshort : ¬ (strict && !Config.inDtab p) = true := by
      simpa [Instr.wellFormedAt, imp_iff_not_or] using hwf
    have hdec := hset 7#3 p
    rwa [if_neg hshort] at hdec
  | illLead10 x =>
    obtain ⟨h7, hesc, h6, hx⟩ := illLead10_fields x
    have hdec := decodeUnit_lead10 (strict := strict) (rest := rest) h7 hesc h6
    rwa [hx] at hdec
  | illLead111 x =>
    obtain ⟨h7, hesc, h6, hx⟩ := illLead111_fields x
    have hdec := decodeUnit_lead111 (strict := strict) (rest := rest) h7 hesc h6
    rwa [hx] at hdec
  | illTrunc x =>
    obtain ⟨hesc, hx⟩ := escape_fields x
    obtain rfl := htrunc rfl
    have hdec := decodeUnit_trunc (strict := strict) hesc
    rwa [hx] at hdec
  | illCont x y =>
    obtain ⟨hesc, hx⟩ := escape_fields x
    have hcont : ¬ isContinuation y = true := by
      simpa [Instr.wellFormedAt, isContinuation] using hwf
    have hdec := decodeUnit_cont (strict := strict) (rest := rest) hesc hcont
    rwa [hx] at hdec
  | illOverlong p => exact hclear 0#3 p
  | illFixed k p =>
    obtain ⟨rfl, hk⟩ : strict = true ∧ k ≠ 0#3 := by simpa [Instr.wellFormedAt] using hwf
    have hdec := hclear k p
    rwa [if_neg hk, if_pos rfl] at hdec
  | illIndex6 p => exact hset 6#3 p
  | illShortpay p =>
    have hshort : (strict && !Config.inDtab p) = true := hwf
    have hdec := hset 7#3 p
    rwa [if_pos hshort] at hdec
  | esckF0 k p =>
    obtain ⟨rfl, hk⟩ : strict = false ∧ k ≠ 0 := by simpa [Instr.wellFormedAt] using hwf
    have hdec := hclear (indexField k) p
    have hne : indexField k ≠ 0#3 := fun h => hk ((indexField_eq_zero k).1 h)
    rwa [if_neg hne, if_neg Bool.false_ne_true, dif_pos (indexField_lt k), index_of_indexField] at hdec
  | escsF0 p =>
    obtain rfl : strict = false := by simpa [Instr.wellFormedAt] using hwf
    exact hclear 7#3 p
  | illIndex6F0 p =>
    obtain rfl : strict = false := by simpa [Instr.wellFormedAt] using hwf
    exact hclear 6#3 p
  | _ => simp [isTextUnit, encode] at hunit

/-! ### The codes that are not text (R94, R95) -/

theorem decodeAt_unit {strict : Bool} {bytes : List Byte} {i : Instr}
    (h : decodeUnit strict bytes = .ok (i, [])) : decodeAt strict (.unit bytes) = .ok i := by
  simp [decodeAt, h]

/-- The classifier's default is the pattern of every chunk off DTAB. -/
theorem decodeChunk_safe {c : Chunk} (h : Config.inDtab c = false) :
    decodeChunk c = .classSafe c := by
  simp only [Config.inDtab, Config.dtab] at h
  simp_all [decodeChunk]

theorem indexOf_dtab (k : Index) : indexOf Config.dtab[k] = some k := indexOf_eq_some.2 rfl

theorem indexOf_safe {c : Chunk} (h : Config.inDtab c = false) : indexOf c = none := by
  simpa [inDtab_eq] using h

theorem indexOf_inDtab {c : Chunk} (h : Config.inDtab c = true) : ∃ k, indexOf c = some k := by
  simpa [inDtab_eq, Option.isSome_iff_exists] using h

/-- Decoding the code of a well-formed instruction gives it back. -/
theorem decodeAt_encode {strict : Bool} {i : Instr} {code : Code}
    (hwf : i.wellFormedAt strict = true) (hcode : encode i = some code) :
    decodeAt strict code = .ok i := by
  cases hunit : isTextUnit i with
  | true =>
    rw [encode_of_isTextUnit hunit] at hcode
    cases hcode
    have hdec := decodeUnit_unitBytes_append (rest := []) hwf hunit fun _ => rfl
    rw [List.append_nil] at hdec
    exact decodeAt_unit hdec
  | false =>
    cases i with
    | classSafe c =>
      cases hcode
      exact congrArg Except.ok (decodeChunk_safe (by simpa [Instr.wellFormedAt] using hwf))
    | put1 c =>
      cases hcode
      have hsafe := indexOf_safe (by simpa [Instr.wellFormedAt] using hwf)
      simp [decodeAt, decodeDispatch, hsafe]
    | pute k n =>
      cases hcode
      simp only [decodeAt, decodeDispatch, indexOf_dtab, if_true]
    | puts c =>
      cases hcode
      obtain ⟨k, hk⟩ := indexOf_inDtab hwf
      simp [decodeAt, decodeDispatch, hk]
    | classD0 => cases hcode; rfl
    | classD1 => cases hcode; rfl
    | classD2 => cases hcode; rfl
    | classD3 => cases hcode; rfl
    | classD4 => cases hcode; rfl
    | classD5 => cases hcode; rfl
    | _ => cases hcode <;> cases hunit
/-! ### The valid scalars (R89, R91) -/

/-- A scalar is that of its fields (R86). -/
theorem scalarOf_fields (x : Scalar) :
    scalarOf (scalarIndex x) (scalarFixed x) (scalarPayload x) = x := by
  have hx := x.isLt
  apply BitVec.eq_of_toNat_eq
  rw [scalarOf_toNat, scalarIndex, scalarFixed, scalarPayload, BitVec.extractLsb'_toNat,
    BitVec.extractLsb'_toNat, BitVec.getLsbD, Nat.toNat_testBit, Nat.shiftRight_eq_div_pow,
    Nat.shiftRight_zero]
  omega

/-- Under STRICT = 1 a two-byte form is valid where its fixed bit is set and its index field is that of a
dangerous value, or that of a shortened escape of one. -/
theorem unitCause_scalarUnit_eq_none_iff {k : IndexField} {f : Bool} {p : Chunk} :
    unitCause (scalarUnit true (scalarOf k f p)) = none ↔
      f = true ∧ (k.toNat < 6 ∨ k = 7#3 ∧ Config.inDtab p = true) := by
  have hover : (scalarOf k f p).toNat < 128 ↔ k = 0#3 ∧ f = false := scalarOf_lt_iff
  simp only [unitCause_eq_none_iff, failureCode_scalarUnit, hover, scalarIndex_scalarOf,
    scalarFixed_scalarOf, scalarPayload_scalarOf, true_and]
  clear hover
  generalize Config.inDtab p = dangerous
  revert k f dangerous
  decide

theorem inDtab_iff_toNat {c : Chunk} :
    Config.inDtab c = true ↔ c.toNat ∈ [0x00, 0x0A, 0x0D, 0x22, 0x26, 0x5C] := by
  simp [Config.inDtab, Config.dtab, BitVec.toNat_eq]

end Sys2Proof

/-- Settles O1: a unit's bytes frame it and spell its fields; the other codes are tables. -/
theorem decodeOfEncode : Obligations.DecodeOfEncode :=
  fun _ _ _ hwf hcode => decodeAt_encode hwf hcode

/-- Settles O2: each outcome of the unit decoder spells the bytes that it was read from. -/
theorem unitDecodingLosesNoBit : Obligations.UnitDecodingLosesNoBit := by
  intro strict bytes rest i h
  obtain ⟨hwf, hbytes⟩ := decodeUnit_sound h
  exact ⟨hwf, decodeUnit_isTextUnit h, hbytes⟩

/-- Settles O5: each word is the code of its unit. -/
theorem writtenWordsDecode : Obligations.WrittenWordsDecode := by
  have hword : ∀ {i : Instr} {code : Code}, i.wellFormed = true → encode i = some code →
      decode code = .ok i := decodeAt_encode
  exact ⟨hword rfl rfl, hword rfl rfl, hword rfl rfl, hword rfl rfl, hword rfl rfl, hword rfl rfl,
    hword rfl rfl, hword rfl rfl, hword rfl rfl, hword rfl rfl⟩

/-- Settles O4: the ranges are the index fields 0 to 5 with the fixed bit set, and the single values are
index field 7 with a payload of DTAB. -/
theorem validEscapeScalars : Obligations.ValidEscapeScalars := by
  intro x
  rw [← scalarOf_fields x, unitCause_scalarUnit_eq_none_iff, scalarOf_toNat, inDtab_iff_toNat]
  generalize scalarIndex x = k, scalarFixed x = f, scalarPayload x = p
  have hp := p.isLt
  have hset : f = true ↔ f.toNat = 1 := by cases f <;> decide
  have hbit := Bool.toNat_lt f
  simp only [hset, List.mem_cons, List.not_mem_nil, or_false, BitVec.toNat_eq, BitVec.toNat_ofNat]
  constructor
  · rintro ⟨hf, hlow | ⟨hk7, hmem⟩⟩
    · refine .inl ⟨⟨k.toNat, hlow⟩, ?_, ?_⟩ <;> dsimp only <;> omega
    · omega
  · rintro (⟨⟨j, hj⟩, hlo, hhi⟩ | hmem)
    · simp only at hlo hhi
      omega
    · omega
end

section
/-! SUPPORT. What an instruction can do to the engine that it belongs to (10_state.md R20, R39): one relation
for each engine, with a case for each kind of effect, and the inversion of exec into it. -/

open Sys2Proof Sys2Proof.Machine

namespace Sys2Proof.Machine

/-! ### The operations of the encode engine -/

/-- CLASS and its pattern rows (R130). -/
def isClassifier : Instr → Bool
  | .classD0 | .classD1 | .classD2 | .classD3 | .classD4 | .classD5 => true
  | .classSafe _ | .classify _ => true
  | _ => false

/-- All that an operation of XTR, CLS or PCK can do to the encode engine. -/
inductive EncEffect (e : Enc) : Instr → Enc → Prop where
  | classifies {i : Instr} (hi : isClassifier i = true) (r : ChunkClass) :
      EncEffect e i (setEncRet e (.cls r))
  | literal (c : Chunk) : EncEffect e (.put1 c) (emitLiteral c e)
  | escape (k : Index) (n : Chunk) : EncEffect e (.pute k n) (emitEscape (indexField k) n e)
  | shortened (c : Chunk) : EncEffect e (.puts c) (emitEscape 7#3 c e)
  | draws {r : Option Chunk} {e' : Enc} (h : extract e = .next (r, e')) :
      EncEffect e .get7 (setEncRet e' (.chunk r))
  | step {e' : Enc} (h : encodeStep e = .next e') : EncEffect e .encStep e'
  | run {e' : Enc} (r : EncReturn) (h : encodeLoop (encodeBound e.len) (encClear e) = .next e') :
      EncEffect e .encode (setEncRet e' r)
  | start : EncEffect e .encStart (encClear e)

/-- An operation of the encode engine that completes has one of these effects, and writes that engine
only. -/
theorem exec_encEffect {i : Instr} {s t : State} (hi : isEncInstr i = true)
    (h : exec i s = .next t) : ∃ e, EncEffect s.enc i e ∧ t = setEnc s e := by
  cases i with
  | classD0 | classD1 | classD2 | classD3 | classD4 | classD5 =>
    cases h
    exact ⟨_, .classifies rfl _, rfl⟩
  | classSafe c | classify c =>
    cases h
    exact ⟨_, .classifies rfl _, rfl⟩
  | put1 c =>
    cases h
    exact ⟨_, .literal c, rfl⟩
  | pute k n =>
    cases h
    exact ⟨_, .escape k n, rfl⟩
  | puts c =>
    cases h
    exact ⟨_, .shortened c, rfl⟩
  | get7 =>
    obtain ⟨⟨r, e'⟩, hdraw, hret⟩ := andThen_eq_next.1 h
    cases hret
    exact ⟨_, .draws hdraw, rfl⟩
  | encStep =>
    obtain ⟨e', hstep, hret⟩ := andThen_eq_next.1 h
    cases hret
    exact ⟨_, .step hstep, rfl⟩
  | encode =>
    obtain ⟨e', hloop, hret⟩ := andThen_eq_next.1 h
    cases hret
    exact ⟨_, .run _ hloop, rfl⟩
  | encStart =>
    cases h
    exact ⟨_, .start, rfl⟩
  | _ => cases hi

/-! ### The operations of the decode engine -/

/-- What executing a text unit can do: raise at DEC.PC, or push its chunks and move past it (R164 to
R168). -/
inductive UnitEffect (d : Dec) (i : Instr) : Dec → Prop where
  | raises {cause : Cause} (h : unitCause i = some cause) :
      UnitEffect d i (raiseInvalidSequence cause d.pc d)
  | executes (h : unitCause i = none) :
      UnitEffect d i (advancePc (unitBytes i).length (pushAll (unitChunks i) d))

/-- What DEC.STEP can do (R172): nothing after DEC.DONE, set it at the end of the text, or execute a unit
that the text has at DEC.PC. -/
inductive DecStepEffect (d : Dec) : Dec → Prop where
  | idle (hdone : d.done = true) : DecStepEffect d d
  | ends (hdone : d.done = false) (hend : d.tlen ≤ d.pc) : DecStepEffect d (decSetDone d)
  | unit {i : Instr} {d' : Dec} (hdone : d.done = false)
      (hfits : d.pc + (unitBytes i).length ≤ d.tlen) (h : UnitEffect d i d') : DecStepEffect d d'

/-- A run of DEC.STEPs. -/
abbrev DecRun : Dec → Dec → Prop := Relation.ReflTransGen DecStepEffect

/-- All that an operation of UPK can do to the decode engine. -/
inductive DecEffect (d : Dec) : Instr → Dec → Prop where
  | returns (k : IndexField) (r : DecReturn) : DecEffect d (.dval k) (setDecRet d r)
  | pushes (v : Chunk) (r : DecReturn) : DecEffect d (.push7 v) (setDecRet (pushChunk v d).2 r)
  | unit {i : Instr} {d' : Dec} (hunit : isTextUnit i = true) (h : UnitEffect d i d') :
      DecEffect d i d'
  | step {d' : Dec} (h : DecStepEffect d d') : DecEffect d .decStep d'
  | run {d' : Dec} (r : DecReturn) (h : DecRun (decClear d) d') :
      DecEffect d .decode (setDecRet d' r)
  | start : DecEffect d .decStart (decClear d)

theorem exec_unitEffect {i : Instr} {s t : State} (hunit : isTextUnit i = true)
    (h : exec i s = .next t) : ∃ d, UnitEffect s.dec i d ∧ t = setDec s d := by
  rw [exec_unit hunit] at h
  cases hcause : unitCause i with
  | some cause =>
    simp only [hcause, Host.Outcome.next.injEq] at h
    exact ⟨_, .raises hcause, h.symm⟩
  | none =>
    simp only [hcause, Host.Outcome.next.injEq] at h
    exact ⟨_, .executes hcause, h.symm⟩

/-- The fetched bytes lie in the text. -/
theorem fetchUnit_fits {d : Dec} {bytes : List Byte} (h : fetchUnit d = .next bytes) :
    bytes ≠ [] ∧ d.pc + bytes.length ≤ d.tlen := by
  obtain ⟨b1, hread, h⟩ := andThen_eq_next.1 h
  obtain ⟨hpc, -⟩ := memRead_eq_next.1 hread
  split at h
  · next hmore =>
    obtain ⟨b2, hread2, h⟩ := andThen_eq_next.1 h
    obtain ⟨hpc2, -⟩ := memRead_eq_next.1 hread2
    cases h
    exact ⟨by simp, hpc2⟩
  · cases h
    exact ⟨by simp, hpc⟩

theorem execDecStep_effect {s t : State} (h : execDecStep s = .next t) :
    ∃ d, DecStepEffect s.dec d ∧ t = setDec s d := by
  rcases execDecStep_cases h with ⟨hdone, rfl⟩ | ⟨hdone, hend, rfl⟩ |
    ⟨hdone, -, bytes, i, rest, hfetch, hdec, hunit, hexec⟩
  · exact ⟨_, .idle hdone, (setDec_self _).symm⟩
  · exact ⟨_, .ends hdone hend, rfl⟩
  · obtain ⟨d, heffect, rfl⟩ := exec_unitEffect hunit hexec
    obtain ⟨hne, hfits⟩ := fetchUnit_fits hfetch
    obtain ⟨hlen, -⟩ := decodeUnit_framed hdec
    obtain ⟨-, hle⟩ := frameLength_bounds hne
    exact ⟨d, .unit hdone (by omega) heffect, rfl⟩

/-- The decode loop is a run of DEC.STEPs (R174). -/
theorem decodeLoop_effect {n : Nat} {s t : State} (h : decodeLoop n s = .next t) :
    ∃ d, DecRun s.dec d ∧ t = setDec s d := by
  induction n generalizing s with
  | zero =>
    cases h
    exact ⟨_, .refl, (setDec_self _).symm⟩
  | succ n ih =>
    unfold decodeLoop at h
    split at h
    · cases h
      exact ⟨_, .refl, (setDec_self _).symm⟩
    · obtain ⟨s1, hstep, hrest⟩ := andThen_eq_next.1 h
      obtain ⟨d1, heffect, rfl⟩ := execDecStep_effect hstep
      obtain ⟨d, hrun, rfl⟩ := ih hrest
      exact ⟨d, .head heffect hrun, rfl⟩

/-- An operation of the decode engine that completes has one of these effects, and writes that engine
only. -/
theorem exec_decEffect {i : Instr} {s t : State} (hi : isEncInstr i = false)
    (h : exec i s = .next t) : ∃ d, DecEffect s.dec i d ∧ t = setDec s d := by
  cases hunit : isTextUnit i with
  | true =>
    obtain ⟨d, heffect, rfl⟩ := exec_unitEffect hunit h
    exact ⟨d, .unit hunit heffect, rfl⟩
  | false =>
    cases i with
    | dval k =>
      obtain ⟨v, -, hret⟩ := andThen_eq_next.1 h
      cases hret
      exact ⟨_, .returns k _, rfl⟩
    | push7 v =>
      cases h
      exact ⟨_, .pushes v _, rfl⟩
    | decStep =>
      obtain ⟨d, heffect, rfl⟩ := execDecStep_effect h
      exact ⟨d, .step heffect, rfl⟩
    | decode =>
      obtain ⟨t', hloop, hret⟩ := andThen_eq_next.1 h
      obtain ⟨d, hrun, rfl⟩ := decodeLoop_effect hloop
      cases hret
      exact ⟨_, .run _ hrun, rfl⟩
    | decStart =>
      cases h
      exact ⟨_, .start, rfl⟩
    | _ => cases hi <;> cases hunit

/-! ### What pushing and units leave -/

/-- Pushing chunks writes the accumulator and the output, and nothing else. -/
theorem pushAll_eq (cs : List Chunk) (d : Dec) : ∃ ac ab out olen,
    pushAll cs d = { d with ac := ac, ab := ab, out := out, olen := olen } := by
  refine pushAll_keeps (P := fun d' => ∃ ac ab out olen,
    d' = { d with ac := ac, ab := ab, out := out, olen := olen }) ?_ cs ⟨_, _, _, _, rfl⟩
  rintro v _ ⟨ac, ab, out, olen, rfl⟩
  rcases pushChunk_cases v { d with ac := ac, ab := ab, out := out, olen := olen } with
    ⟨-, hpush⟩ | ⟨-, byte, -, hpush⟩ <;> rw [hpush] <;> exact ⟨_, _, _, _, rfl⟩

/-- What every DEC.STEP keeps, a run keeps. -/
theorem DecRun.keeps {P : Dec → Prop} (hstep : ∀ {d d'}, P d → DecStepEffect d d' → P d')
    {d d' : Dec} (hrun : DecRun d d') (h : P d) : P d' := by
  induction hrun with
  | refl => exact h
  | tail _ hlast ih => exact hstep ih hlast

end Sys2Proof.Machine

end

section
/-! SUPPORT. The invariants of the two engines (10_state.md R21 to R33): every operation that a host command
asks for keeps them, and completes where they hold. -/

open Sys2Proof Sys2Proof.Machine

namespace Sys2Proof.Machine

/-! ### The encode engine -/

/-- ENC.OUT holds exactly the indices below its length, and no dangerous value. -/
structure SafeOutput (e : Enc) : Prop where
  dense : e.out.dense e.olen
  safe : ∀ cell ∈ e.out.cells, safeByte cell.2

theorem SafeOutput.encAppend {e : Enc} (h : SafeOutput e) {b : Byte} (hb : safeByte b) :
    SafeOutput (encAppend b e) := by
  refine ⟨encAppend_dense h.dense b, fun cell hcell => ?_⟩
  rw [encAppend_out, memPut_cells h.dense, List.mem_append, List.mem_singleton] at hcell
  rcases hcell with hold | rfl
  · exact h.safe cell hold
  · exact hb

theorem SafeOutput.emitEscape {e : Enc} (h : SafeOutput e) (k : IndexField) (p : Chunk) :
    SafeOutput (emitEscape k p e) :=
  (h.encAppend (safeByte_escByte1 k p)).encAppend (safeByte_escByte2 p)

/-- ENC.STEP keeps the output dense and safe (R51, R98). -/
theorem SafeOutput.step {e e' : Enc} (h : SafeOutput e) (hstep : encodeStep e = .next e') :
    SafeOutput e' := by
  have hmoved : ∀ p, SafeOutput (cursorAt e p) := fun _ => ⟨h.dense, h.safe⟩
  rcases encodeStep_cases hstep with ⟨-, rfl⟩ | ⟨-, -, rfl⟩ | ⟨-, -, c, hc, rfl⟩ |
    ⟨-, -, -, k, n, rfl⟩ | ⟨-, -, -, c, -, rfl⟩
  · exact h
  · exact ⟨h.dense, h.safe⟩
  · exact (hmoved _).encAppend (safeByte_literal hc)
  · exact (hmoved _).emitEscape _ _
  · exact (hmoved _).emitEscape _ _

/-- The cursor and the output size in terms of the position in the bit stream (R21, R24, R25, R151). -/
structure RunPosition (e : Enc) : Prop where
  onChunk : cursorBit e % 7 = 0
  inRange : cursorBit e ≤ 8 * e.len + 6
  doneAtEnd : e.done = true → 8 * e.len ≤ cursorBit e
  size : e.olen = cursorBit e / 7 ∨ 8 * e.len ≤ cursorBit e ∧ e.olen = cursorBit e / 7 + 1

/-- ENC.STEP moves the position by the chunks that it packs. -/
theorem RunPosition.step {e e' : Enc} (h : RunPosition e) (hstep : encodeStep e = .next e') :
    RunPosition e' := by
  obtain ⟨hchunk, hrange, hdone, hsize⟩ := h
  have hwithin : e.bi < e.len → cursorBit e < 8 * e.len := by
    have := e.bo.isLt
    unfold cursorBit
    omega
  have hend : e.len ≤ e.bi → 8 * e.len ≤ cursorBit e := by
    unfold cursorBit
    omega
  rcases encodeStep_cases hstep with ⟨-, rfl⟩ | ⟨-, hb, rfl⟩ | ⟨hrun, hb, c, -, rfl⟩ |
    ⟨hrun, hb, hmore, k, n, rfl⟩ | ⟨hrun, hb, hlast, c, -, rfl⟩
  · exact ⟨hchunk, hrange, hdone, hsize⟩
  · exact ⟨hchunk, hrange, fun _ => hend hb, hsize⟩
  all_goals
    have hlt := hwithin hb
    constructor <;>
      simp only [emitLiteral_eq, emitEscape_eq, cursorBit_encAppend, cursorBit_cursorAt,
        encAppend_len, encAppend_done, encAppend_olen, cursorAt_len, cursorAt_done, cursorAt_olen,
        hrun, Bool.false_eq_true, false_implies] <;>
      omega

theorem encInv_iff {e : Enc} :
    EncInv e ↔ e.inp.dense e.len ∧ SafeOutput e ∧ RunPosition e := by
  have hbo := e.bo.isLt
  have hend : e.len ≤ e.bi ↔ 8 * e.len ≤ cursorBit e := by
    unfold cursorBit
    omega
  constructor
  · rintro ⟨hin, hrange, hchunk, hfill, hdone, hdense, hsize, hsafe⟩
    refine ⟨hin, ⟨hdense, hsafe⟩, hchunk, ?_, fun h => hend.1 (hdone h), by rwa [hend] at hsize⟩
    unfold cursorBit
    omega
  · rintro ⟨hin, ⟨hdense, hsafe⟩, hchunk, hrange, hdone, hsize⟩
    unfold cursorBit at hrange
    exact ⟨hin, by omega, hchunk, by omega, fun h => hend.2 (hdone h), hdense, by rwa [← hend] at hsize,
      hsafe⟩

theorem EncInv.step {e e' : Enc} (h : EncInv e) (hstep : encodeStep e = .next e') : EncInv e' := by
  obtain ⟨hin, hout, hpos⟩ := encInv_iff.1 h
  obtain ⟨hinp, hlen⟩ := encodeStep_input hstep
  exact encInv_iff.2 ⟨by rwa [hinp, hlen], hout.step hstep, hpos.step hstep⟩

/-- ENC.START with a placed input. -/
theorem encInv_encClear {e : Enc} (h : e.inp.dense e.len) : EncInv (encClear e) := by
  have hcursor : cursorBit (encClear e) = 0 := rfl
  refine encInv_iff.2 ⟨h, ⟨empty_dense, nofun⟩, ?_⟩
  constructor <;> simp [hcursor]

theorem EncInv.setEncRet {e : Enc} (h : EncInv e) (r : EncReturn) : EncInv (setEncRet e r) :=
  ⟨h.inputPlaced, h.cursorInRange, h.cursorOnChunk, h.fillBits, h.doneExhausted, h.outputDense,
    h.outputSize, h.outputSafe⟩

/-! ### The decode engine -/

/-- The accumulator and the output of a run without an error (R29, R53). -/
structure WholeChunks (d : Dec) : Prop where
  residue : d.ac <<< d.ab.toNat = 0#8
  dense : d.out.dense d.olen
  count : (8 * d.olen + d.ab.toNat) % 7 = 0

/-- The bits that PUSH7 keeps are all valid. -/
theorem keptBits_residue (v : Chunk) {a b : Nat} (h : 8 ≤ a + b) :
    v.setWidth 8 <<< a <<< b = 0#8 := by
  rw [← BitVec.shiftLeft_add, BitVec.shiftLeft_eq_zero h]

theorem WholeChunks.push {d : Dec} (h : WholeChunks d) (v : Chunk) :
    WholeChunks (pushChunk v d).2 := by
  obtain ⟨-, hdense, hcount⟩ := h
  rcases pushChunk_cases v d with ⟨h0, hpush⟩ | ⟨h0, byte, -, hpush⟩ <;> rw [hpush]
  · rw [h0] at hcount
    refine ⟨keptBits_residue v (a := 1) (b := 7) le_rfl, hdense, ?_⟩
    simp at hcount ⊢
    omega
  · have hpos : 0 < d.ab.toNat := Nat.pos_of_ne_zero fun h => h0 (BitVec.eq_of_toNat_eq h)
    have hab : (BitVec.ofNat 3 (d.ab.toNat - 1)).toNat = d.ab.toNat - 1 := by
      have := d.ab.isLt
      rw [BitVec.toNat_ofNat]
      omega
    refine ⟨?_, memPut_dense hdense byte, ?_⟩ <;> simp only [hab]
    · exact keptBits_residue v (by omega)
    · omega

/-- A run that has not ended has no error, and its units keep the accumulator and the output whole. -/
theorem DecInv.unit {d d' : Dec} {i : Instr} (h : DecInv d) (hrun : d.done = false)
    (hfits : d.pc + (unitBytes i).length ≤ d.tlen) (hunit : UnitEffect d i d') : DecInv d' := by
  have herr : d.err = false := by
    by_contra herr
    obtain ⟨hdone, -⟩ := h.failed (by simpa using herr)
    simp [hdone] at hrun
  cases hunit with
  | raises hcause =>
    exact ⟨h.textPlaced, h.pcInRange, h.residueZero, empty_dense, nofun, nofun,
      fun _ => ⟨rfl, rfl, causeCode_ne_zero _, rfl⟩, nofun⟩
  | executes hvalid =>
    have hwhole : WholeChunks (pushAll (unitChunks i) d) :=
      pushAll_keeps (fun v d h => h.push v) _ ⟨h.residueZero, h.outputDense, h.wholeChunks herr⟩
    obtain ⟨ac, ab, out, olen, hpush⟩ := pushAll_eq (unitChunks i) d
    rw [hpush] at hwhole ⊢
    refine ⟨h.textPlaced, hfits, hwhole.residue, hwhole.dense, fun _ => hwhole.count, fun hdone => ?_,
      fun hfail => ?_, h.noFailure⟩
    · exact absurd (hdone.symm.trans hrun) nofun
    · exact absurd (hfail.symm.trans herr) nofun

theorem DecInv.step {d d' : Dec} (h : DecInv d) (hstep : DecStepEffect d d') : DecInv d' := by
  cases hstep with
  | idle => exact h
  | ends hrun hend =>
    refine ⟨h.textPlaced, h.pcInRange, h.residueZero, h.outputDense, h.wholeChunks, fun _ _ => hend,
      fun herr => ?_, h.noFailure⟩
    obtain ⟨hdone, -⟩ := h.failed herr
    exact absurd (hdone.symm.trans hrun) nofun
  | unit hrun hfits hunit => exact h.unit hrun hfits hunit

/-- DEC.START with a placed text. -/
theorem decInv_decClear {d : Dec} (h : d.txt.dense d.tlen) : DecInv (decClear d) :=
  ⟨h, Nat.zero_le _, rfl, empty_dense, fun _ => rfl, nofun, nofun, fun _ => ⟨rfl, rfl⟩⟩

theorem DecInv.setDecRet {d : Dec} (h : DecInv d) (r : DecReturn) : DecInv (setDecRet d r) :=
  ⟨h.textPlaced, h.pcInRange, h.residueZero, h.outputDense, h.wholeChunks, h.doneAtEnd, h.failed,
    h.noFailure⟩

/-! ### The host's commands keep the invariant -/

theorem EncInv.command {c : HostCmd} {e e' : Enc} (h : EncInv e) (heffect : EncEffect e c.instr e') :
    EncInv e' := by
  cases c <;> cases heffect
  case encStart.start => exact encInv_encClear h.inputPlaced
  case encStep.step hstep => exact h.step hstep
  case encode.run r hloop =>
    exact (encodeLoop_keeps EncInv.step (encInv_encClear h.inputPlaced) hloop).setEncRet r
  all_goals contradiction

theorem DecInv.command {c : HostCmd} {d d' : Dec} (h : DecInv d) (heffect : DecEffect d c.instr d') :
    DecInv d' := by
  cases c <;> cases heffect
  case decStart.start => exact decInv_decClear h.textPlaced
  case decStep.step hstep => exact h.step hstep
  case decode.run r hrun =>
    exact (hrun.keeps DecInv.step (decInv_decClear h.textPlaced)).setDecRet r
  all_goals contradiction

theorem Inv.command {c : HostCmd} {s t : State} (h : Inv s) (hexec : exec c.instr s = .next t) :
    Inv t := by
  obtain ⟨henc, hdec⟩ := h
  cases hc : isEncInstr c.instr with
  | true =>
    obtain ⟨e, heffect, rfl⟩ := exec_encEffect hc hexec
    exact ⟨henc.command heffect, hdec⟩
  | false =>
    obtain ⟨d, heffect, rfl⟩ := exec_decEffect hc hexec
    exact ⟨henc, hdec.command heffect⟩

/-- A step is a command, of the script or DEC.STEP at its end (log 3). -/
theorem step_eq_command (s : State) : ∃ (c : HostCmd) (cs : List HostCmd),
    step s = exec c.instr (setScript s cs) := by
  cases hscript : s.script with
  | nil =>
    refine ⟨.decStep, [], ?_⟩
    have hsame : setScript s [] = s := by rw [← hscript]; rfl
    rw [step, hscript, hsame]
    rfl
  | cons c cs => exact ⟨c, cs, by rw [step, hscript]⟩

/-! ### The host's commands complete where the invariant holds -/

theorem UnitEffect.text {i : Instr} {d d' : Dec} (h : UnitEffect d i d') :
    d'.txt = d.txt ∧ d'.tlen = d.tlen := by
  cases h with
  | raises => exact ⟨rfl, rfl⟩
  | executes =>
    obtain ⟨ac, ab, out, olen, hpush⟩ := pushAll_eq (unitChunks i) d
    rw [hpush]
    exact ⟨rfl, rfl⟩

theorem DecStepEffect.text {d d' : Dec} (h : DecStepEffect d d') :
    d'.txt = d.txt ∧ d'.tlen = d.tlen := by
  cases h with
  | idle => exact ⟨rfl, rfl⟩
  | ends => exact ⟨rfl, rfl⟩
  | unit _ _ hunit => exact hunit.text

/-- The decode loop completes with a placed text (R174). -/
theorem decodeLoop_completes {n : Nat} {s : State} (hd : s.dec.txt.dense s.dec.tlen) :
    ∃ t, decodeLoop n s = .next t := by
  induction n generalizing s with
  | zero => exact ⟨s, rfl⟩
  | succ n ih =>
    unfold decodeLoop
    split
    · exact ⟨s, rfl⟩
    · obtain ⟨s1, hstep⟩ := execDecStep_completes hd
      obtain ⟨d, heffect, rfl⟩ := execDecStep_effect hstep
      obtain ⟨htxt, htlen⟩ := heffect.text
      obtain ⟨t, hloop⟩ := ih (s := setDec s d) (by rw [setDec_dec, htxt, htlen]; exact hd)
      exact ⟨t, andThen_eq_next.2 ⟨_, hstep, hloop⟩⟩

theorem Inv.completes {s : State} (h : Inv s) (c : HostCmd) : ∃ t, exec c.instr s = .next t := by
  obtain ⟨henc, hdec⟩ := h
  cases c with
  | encStart => exact ⟨_, exec_encStart s⟩
  | decStart => exact ⟨_, exec_decStart s⟩
  | encStep =>
    obtain ⟨e, hstep⟩ := encodeStep_completes henc.inputPlaced
    exact ⟨_, exec_encStep_of_step hstep⟩
  | decStep => exact execDecStep_completes hdec.textPlaced
  | encode =>
    obtain ⟨e, hloop⟩ := encodeLoop_completes (n := encodeBound s.enc.len) (e := encClear s.enc)
      henc.inputPlaced
    exact ⟨_, exec_encode_of_loop hloop⟩
  | decode =>
    obtain ⟨t, hloop⟩ := decodeLoop_completes (n := decodeBound s.dec.tlen)
      (s := setDec s (decClear s.dec)) hdec.textPlaced
    exact ⟨_, andThen_eq_next.2 ⟨t, hloop, rfl⟩⟩

end Sys2Proof.Machine

/-- Settles O49: both engines are cleared, and their inputs are empty. -/
theorem resetMeetsInvariant : Obligations.ResetMeetsInvariant :=
  ⟨encInv_encClear (e := State.reset.enc) empty_dense,
    decInv_decClear (d := State.reset.dec) empty_dense⟩

/-- Settles O50: a step is a host command, which keeps the invariant of the engine that it writes. -/
theorem stepKeepsInvariant : Obligations.StepKeepsInvariant := by
  intro s t h hstep
  obtain ⟨c, cs, hcommand⟩ := step_eq_command s
  rw [hcommand] at hstep
  have hscript : Inv (setScript s cs) := h
  exact hscript.command hstep

/-- Settles O51: every host command completes with the inputs placed. -/
theorem stepNeverStops : Obligations.StepNeverStops := by
  intro s h
  obtain ⟨c, cs, hcommand⟩ := step_eq_command s
  rw [hcommand]
  have hscript : Inv (setScript s cs) := h
  exact hscript.completes c

end

section
/-! SUPPORT. What an instruction leaves unchanged (10_state.md R20, R32, R35, 20_memory.md R50 to R53,
44_system.md R195): the inputs, the bytes already appended, DEC.ERR and DEC.PC. -/

open Sys2Proof Sys2Proof.Machine

namespace Sys2Proof.Machine

/-! ### An instruction writes one engine -/

/-- All that an instruction can do: an effect on the encode engine, or one on the decode engine. -/
theorem exec_effect {i : Instr} {s t : State} (h : exec i s = .next t) :
    (∃ e, EncEffect s.enc i e ∧ t = setEnc s e) ∨ ∃ d, DecEffect s.dec i d ∧ t = setDec s d := by
  cases hi : isEncInstr i with
  | true => exact .inl (exec_encEffect hi h)
  | false => exact .inr (exec_decEffect hi h)

/-! ### The inputs -/

theorem encodeLoop_input {n : Nat} {e e' : Enc} (h : encodeLoop n e = .next e') :
    e'.inp = e.inp ∧ e'.len = e.len := by
  refine encodeLoop_keeps (P := fun e1 => e1.inp = e.inp ∧ e1.len = e.len) ?_ ⟨rfl, rfl⟩ h
  rintro e1 e2 ⟨hinp, hlen⟩ hstep
  obtain ⟨hinp', hlen'⟩ := encodeStep_input hstep
  exact ⟨hinp'.trans hinp, hlen'.trans hlen⟩

theorem EncEffect.input {i : Instr} {e e' : Enc} (h : EncEffect e i e') :
    e'.inp = e.inp ∧ e'.len = e.len := by
  cases h with
  | classifies | literal | escape | shortened | start => exact ⟨rfl, rfl⟩
  | draws hdraw =>
    rcases extract_cases hdraw with ⟨-, -, rfl⟩ | ⟨-, -, rfl⟩ <;> exact ⟨rfl, rfl⟩
  | step hstep => exact encodeStep_input hstep
  | run r hloop =>
    obtain ⟨hinp, hlen⟩ := encodeLoop_input hloop
    exact ⟨hinp, hlen⟩

theorem DecEffect.text {i : Instr} {d d' : Dec} (h : DecEffect d i d') :
    d'.txt = d.txt ∧ d'.tlen = d.tlen := by
  cases h with
  | returns | start => exact ⟨rfl, rfl⟩
  | pushes v r =>
    obtain ⟨-, htlen, -, -, -, -, htxt, -⟩ := pushChunk_frame v d
    exact ⟨htxt, htlen⟩
  | unit _ hunit => exact hunit.text
  | step hstep => exact hstep.text
  | run r hrun =>
    refine hrun.keeps (P := fun d' => d'.txt = d.txt ∧ d'.tlen = d.tlen) ?_ ⟨rfl, rfl⟩
    rintro d1 d2 ⟨htxt, htlen⟩ hstep
    obtain ⟨htxt', htlen'⟩ := hstep.text
    exact ⟨htxt'.trans htxt, htlen'.trans htlen⟩

/-! ### The outputs -/

/-- A buffer of length n' goes on with what the buffer of length n holds. -/
def Extends (m : Memory) (n : Nat) (m' : Memory) (n' : Nat) : Prop :=
  n ≤ n' ∧ ∀ a, a < n → memGet m' a = memGet m a

theorem Extends.refl (m : Memory) (n : Nat) : Extends m n m n := ⟨le_rfl, fun _ _ => rfl⟩

theorem Extends.append {m m' : Memory} {n n' : Nat} (h : Extends m n m' n') (b : Byte) :
    Extends m n (memPut m' n' b) (n' + 1) := by
  obtain ⟨hlen, hget⟩ := h
  refine ⟨Nat.le_succ_of_le hlen, fun a ha => ?_⟩
  rw [memGet_memPut_other (by omega), hget a ha]

theorem encodeStep_extends {e e' : Enc} (h : encodeStep e = .next e') :
    Extends e.out e.olen e'.out e'.olen := by
  have hrefl := Extends.refl e.out e.olen
  rcases encodeStep_cases h with ⟨-, rfl⟩ | ⟨-, -, rfl⟩ | ⟨-, -, c, -, rfl⟩ |
    ⟨-, -, -, k, n, rfl⟩ | ⟨-, -, -, c, -, rfl⟩
  · exact hrefl
  · exact hrefl
  · exact hrefl.append _
  · exact (hrefl.append _).append _
  · exact (hrefl.append _).append _

/-- Only ENC.START, with which ENCODE begins, empties ENC.OUT (R51). -/
theorem EncEffect.extends {i : Instr} {e e' : Enc} (h : EncEffect e i e') (hstart : i ≠ .encStart)
    (hencode : i ≠ .encode) : Extends e.out e.olen e'.out e'.olen := by
  have hrefl := Extends.refl e.out e.olen
  cases h with
  | classifies => exact hrefl
  | literal => exact hrefl.append _
  | escape | shortened => exact (hrefl.append _).append _
  | draws hdraw =>
    rcases extract_cases hdraw with ⟨-, -, rfl⟩ | ⟨-, -, rfl⟩ <;> exact hrefl
  | step hstep => exact encodeStep_extends hstep
  | run => exact absurd rfl hencode
  | start => exact absurd rfl hstart

theorem Extends.pushChunk {m : Memory} {n : Nat} {d : Dec} (h : Extends m n d.out d.olen) (v : Chunk) :
    Extends m n (pushChunk v d).2.out (pushChunk v d).2.olen := by
  rcases pushChunk_cases v d with ⟨-, hpush⟩ | ⟨-, byte, -, hpush⟩ <;> rw [hpush]
  · exact h
  · exact h.append byte

theorem pushAll_extends (cs : List Chunk) (d : Dec) :
    Extends d.out d.olen (pushAll cs d).out (pushAll cs d).olen :=
  pushAll_keeps (P := fun d' => Extends d.out d.olen d'.out d'.olen) (fun v _ h => h.pushChunk v) cs
    (Extends.refl _ _)

/-! ### DEC.ERR -/

/-- A unit that raises sets DEC.ERR, and any other leaves it and only appends. -/
theorem UnitEffect.err {i : Instr} {d d' : Dec} (h : UnitEffect d i d') :
    ((unitCause i).isSome = true ∧ d'.err = true) ∨
    (unitCause i = none ∧ d'.err = d.err ∧ Extends d.out d.olen d'.out d'.olen) := by
  cases h with
  | raises hcause => exact .inl ⟨by simp [hcause], rfl⟩
  | executes hvalid =>
    exact .inr ⟨hvalid, pushAll_err (unitChunks i) d, pushAll_extends (unitChunks i) d⟩

/-- DEC.STEP sets DEC.ERR, or leaves it and only appends. -/
theorem DecStepEffect.err {d d' : Dec} (h : DecStepEffect d d') :
    d'.err = true ∨ (d'.err = d.err ∧ Extends d.out d.olen d'.out d'.olen) := by
  cases h with
  | idle => exact .inr ⟨rfl, Extends.refl _ _⟩
  | ends => exact .inr ⟨rfl, Extends.refl _ _⟩
  | unit _ _ hunit =>
    rcases hunit.err with ⟨-, herr⟩ | ⟨-, hsame⟩
    · exact .inl herr
    · exact .inr hsame

theorem DecEffect.of_decStart {i : Instr} {d d' : Dec} (h : DecEffect d i d') (hi : i = .decStart) :
    d' = decClear d := by
  subst hi
  cases h with
  | unit hunit _ => cases hunit
  | start => rfl

/-- Every operation but DECODE and DEC.START sets DEC.ERR, as a unit that fails or DEC.STEP, or leaves it
and only appends to DEC.OUT. -/
theorem DecEffect.err {i : Instr} {d d' : Dec} (h : DecEffect d i d') (hstart : i ≠ .decStart)
    (hdecode : i ≠ .decode) :
    (d'.err = true ∧ ((unitCause i).isSome = true ∨ i = .decStep)) ∨
    (d'.err = d.err ∧ Extends d.out d.olen d'.out d'.olen) := by
  cases h with
  | returns => exact .inr ⟨rfl, Extends.refl _ _⟩
  | pushes v r =>
    obtain ⟨-, -, -, herr, -⟩ := pushChunk_frame v d
    exact .inr ⟨herr, (Extends.refl _ _).pushChunk v⟩
  | unit _ hunit =>
    rcases hunit.err with ⟨hcause, herr⟩ | ⟨-, hsame⟩
    · exact .inl ⟨herr, .inl hcause⟩
    · exact .inr hsame
  | step hstep =>
    rcases hstep.err with herr | hsame
    · exact .inl ⟨herr, .inr rfl⟩
    · exact .inr hsame
  | run => exact absurd rfl hdecode
  | start => exact absurd rfl hstart

/-! ### DEC.PC -/

theorem length_unitBytes_le (i : Instr) : (unitBytes i).length ≤ 2 := by
  cases i <;> simp [unitBytes, encode, twoBytes]

/-- A unit moves DEC.PC past its bytes, of which it has at most two, or raises where it is (R195). -/
theorem UnitEffect.pc {i : Instr} {d d' : Dec} (h : UnitEffect d i d') :
    d'.pc = d.pc ∨ d'.pc = d.pc + 1 ∨ d'.pc = d.pc + 2 := by
  cases h with
  | raises => exact .inl rfl
  | executes hvalid =>
    have hpc : (advancePc (unitBytes i).length (pushAll (unitChunks i) d)).pc =
        d.pc + (unitBytes i).length := by rw [advancePc_pc, pushAll_pc]
    have hlen := length_unitBytes_le i
    omega

theorem DecStepEffect.pc {d d' : Dec} (h : DecStepEffect d d') :
    d'.pc = d.pc ∨ d'.pc = d.pc + 1 ∨ d'.pc = d.pc + 2 := by
  cases h with
  | idle => exact .inl rfl
  | ends => exact .inl rfl
  | unit _ _ hunit => exact hunit.pc

end Sys2Proof.Machine

/-- Settles O54: every effect on either engine leaves its input. -/
theorem inputsAreNeverWritten : Obligations.InputsAreNeverWritten := by
  intro i s t h
  rcases exec_effect h with ⟨e, heffect, rfl⟩ | ⟨d, heffect, rfl⟩
  · obtain ⟨hinp, hlen⟩ := heffect.input
    exact ⟨hinp, hlen, rfl, rfl, rfl⟩
  · obtain ⟨htxt, htlen⟩ := heffect.text
    exact ⟨rfl, rfl, htxt, htlen, rfl⟩

/-- Settles O55: but for DEC.START and DECODE, DEC.ERR is set by a failing unit or DEC.STEP, or stays. -/
theorem errorFlagSetAndCleared : Obligations.ErrorFlagSetAndCleared := by
  intro i s t h
  rcases exec_effect h with ⟨e, -, rfl⟩ | ⟨d, heffect, rfl⟩
  · exact ⟨fun hclear hset => absurd (hclear.symm.trans hset) nofun,
      fun hset hclear => absurd (hset.symm.trans hclear) nofun⟩
  by_cases hdecode : i = .decode
  · exact ⟨fun _ _ => .inr (.inr hdecode), fun _ _ => .inr hdecode⟩
  by_cases hstart : i = .decStart
  · refine ⟨fun _ hset => ?_, fun _ _ => .inl hstart⟩
    obtain rfl := heffect.of_decStart hstart
    exact absurd hset nofun
  rcases heffect.err hstart hdecode with ⟨hset, hraise⟩ | ⟨hsame, -⟩
  · exact ⟨fun _ _ => hraise.imp_right .inl, fun _ hclear => absurd (hset.symm.trans hclear) nofun⟩
  · exact ⟨fun hclear hset => absurd ((hsame.trans hclear).symm.trans hset) nofun,
      fun hset hclear => absurd ((hsame.trans hset).symm.trans hclear) nofun⟩

/-- Settles O56: only DEC.START and units write DEC.PC, and DECODE runs both. -/
theorem programCounterMoves : Obligations.ProgramCounterMoves := by
  intro i s t h hdecode
  have hmoves : ∀ {d : Dec}, (d.pc = s.dec.pc ∨ d.pc = s.dec.pc + 1 ∨ d.pc = s.dec.pc + 2) →
      d.pc = s.dec.pc ∨ d.pc = s.dec.pc + 1 ∨ d.pc = s.dec.pc + 2 ∨ (i = .decStart ∧ d.pc = 0) :=
    fun h => h.imp_right (.imp_right .inl)
  rcases exec_effect h with ⟨e, -, rfl⟩ | ⟨d, heffect, rfl⟩
  · exact .inl rfl
  · cases heffect with
    | returns => exact .inl rfl
    | pushes v r =>
      obtain ⟨hpc, -⟩ := pushChunk_frame v s.dec
      exact .inl hpc
    | unit _ hunit => exact hmoves hunit.pc
    | step hstep => exact hmoves hstep.pc
    | run => exact absurd rfl hdecode
    | start => exact .inr (.inr (.inr ⟨rfl, rfl⟩))

/-- Settles O57: the effects append, but for the STARTs and a raise. -/
theorem outputsAreAppendOnly : Obligations.OutputsAreAppendOnly := by
  intro i s t h
  rcases exec_effect h with ⟨e, heffect, rfl⟩ | ⟨d, heffect, rfl⟩
  · exact ⟨heffect.extends, fun _ _ _ => Extends.refl _ _⟩
  · refine ⟨fun _ _ => Extends.refl _ _, fun hstart hdecode hquiet => ?_⟩
    rcases heffect.err hstart hdecode with ⟨hset, hraise⟩ | ⟨-, hext⟩
    · rcases hquiet with hclear | ⟨hvalid, hstep⟩
      · exact absurd (hset.symm.trans hclear) nofun
      · simp [hvalid, hstep] at hraise
    · exact hext
end

section
/-! SUPPORT. The two engines share no state (10_state.md R20): each instruction is a function of its own
engine, so the host may interleave the commands to the two engines as it likes (44_system.md R192). -/

open Sys2Proof Sys2Proof.Machine

namespace Sys2Proof.Machine

/-! ### Operations that are functions of one engine -/

/-- The operation of a function of the encode engine. -/
def onEnc (f : Enc → Host.Outcome Enc Fault Refusal) (s : State) :
    Host.Outcome State Fault Refusal :=
  andThen (f s.enc) fun e => .next (setEnc s e)

/-- The operation of a function of STRICT and the decode engine. -/
def onDec (f : Bool → Dec → Host.Outcome Dec Fault Refusal) (s : State) :
    Host.Outcome State Fault Refusal :=
  andThen (f s.strict s.dec) fun d => .next (setDec s d)

/-- The operation reads and writes the encode engine only. -/
def EncLocal (op : State → Host.Outcome State Fault Refusal) : Prop :=
  ∃ f : Enc → Host.Outcome Enc Fault Refusal, ∀ s, op s = onEnc f s

/-- The operation reads STRICT and the decode engine only, and writes that engine only. -/
def DecLocal (op : State → Host.Outcome State Fault Refusal) : Prop :=
  ∃ f : Bool → Dec → Host.Outcome Dec Fault Refusal, ∀ s, op s = onDec f s

/-- An operation of the encode engine does to it the same in every state that holds it. -/
theorem EncLocal.transfer {op : State → Host.Outcome State Fault Refusal} (h : EncLocal op)
    {s t s' : State} (hop : op s = .next t) (henc : s'.enc = s.enc) :
    op s' = .next (setEnc s' t.enc) := by
  obtain ⟨f, hf⟩ := h
  rw [hf] at hop ⊢
  obtain ⟨e, he, hret⟩ := andThen_eq_next.1 hop
  cases hret
  exact andThen_eq_next.2 ⟨e, henc ▸ he, rfl⟩

theorem DecLocal.transfer {op : State → Host.Outcome State Fault Refusal} (h : DecLocal op)
    {s t s' : State} (hop : op s = .next t) (hdec : s'.dec = s.dec) (hstrict : s'.strict = s.strict) :
    op s' = .next (setDec s' t.dec) := by
  obtain ⟨f, hf⟩ := h
  rw [hf] at hop ⊢
  obtain ⟨d, hd, hret⟩ := andThen_eq_next.1 hop
  cases hret
  exact andThen_eq_next.2 ⟨d, by rw [hdec, hstrict]; exact hd, rfl⟩

theorem encLocal_next (g : Enc → Enc) : EncLocal fun s => .next (setEnc s (g s.enc)) :=
  ⟨fun e => .next (g e), fun _ => rfl⟩

theorem decLocal_next (g : Dec → Dec) : DecLocal fun s => .next (setDec s (g s.dec)) :=
  ⟨fun _ d => .next (g d), fun _ => rfl⟩

theorem DecLocal.congr {op op' : State → Host.Outcome State Fault Refusal} (h : DecLocal op')
    (heq : ∀ s, op s = op' s) : DecLocal op := by
  obtain ⟨f, hf⟩ := h
  exact ⟨f, fun s => (heq s).trans (hf s)⟩

theorem andThen_assoc {α β γ : Type} (x : Host.Outcome α Fault Refusal)
    (f : α → Host.Outcome β Fault Refusal) (g : β → Host.Outcome γ Fault Refusal) :
    andThen (andThen x f) g = andThen x fun a => andThen (f a) g := by
  cases x <;> rfl

/-- Two operations of the decode engine, one after the other. -/
theorem DecLocal.andThen {op op' : State → Host.Outcome State Fault Refusal} (h : DecLocal op)
    (h' : DecLocal op') : DecLocal fun s => andThen (op s) op' := by
  obtain ⟨f, hf⟩ := h
  obtain ⟨f', hf'⟩ := h'
  refine ⟨fun strict d => Machine.andThen (f strict d) (f' strict), fun s => ?_⟩
  simp only [hf, onDec, andThen_assoc, andThen_next, hf', setDec_strict, setDec_dec, setDec_setDec]

/-- A choice that DEC.DONE or another condition on the decode engine makes. -/
theorem DecLocal.ite {op op' : State → Host.Outcome State Fault Refusal} (c : Dec → Bool)
    (h : DecLocal op) (h' : DecLocal op') :
    DecLocal fun s => if c s.dec = true then op s else op' s := by
  obtain ⟨f, hf⟩ := h
  obtain ⟨f', hf'⟩ := h'
  refine ⟨fun strict d => if c d = true then f strict d else f' strict d, fun s => ?_⟩
  simp only [hf, hf', onDec]
  split <;> rfl

/-! ### Every instruction is one -/

theorem exec_encLocal {i : Instr} (hi : isEncInstr i = true) : EncLocal (exec i) := by
  cases i with
  | classD0 => exact encLocal_next fun e => setEncRet e (.cls (classOf 0x00#7))
  | classD1 => exact encLocal_next fun e => setEncRet e (.cls (classOf 0x0A#7))
  | classD2 => exact encLocal_next fun e => setEncRet e (.cls (classOf 0x0D#7))
  | classD3 => exact encLocal_next fun e => setEncRet e (.cls (classOf 0x22#7))
  | classD4 => exact encLocal_next fun e => setEncRet e (.cls (classOf 0x26#7))
  | classD5 => exact encLocal_next fun e => setEncRet e (.cls (classOf 0x5C#7))
  | classSafe c | classify c => exact encLocal_next fun e => setEncRet e (.cls (classOf c))
  | put1 c => exact encLocal_next (emitLiteral c)
  | pute k n => exact encLocal_next (emitEscape (indexField k) n)
  | puts c => exact encLocal_next (emitEscape 7#3 c)
  | get7 =>
    exact ⟨fun e => andThen (extract e) fun r => .next (setEncRet r.2 (.chunk r.1)),
      fun s => by rw [onEnc, andThen_assoc]; rfl⟩
  | encStep => exact ⟨encodeStep, fun _ => rfl⟩
  | encode =>
    exact ⟨fun e => andThen (encodeLoop (encodeBound e.len) (encClear e)) fun e' =>
      .next (setEncRet e' (.text (encText e'))), fun s => by rw [onEnc, andThen_assoc]; rfl⟩
  | encStart => exact encLocal_next encClear
  | _ => cases hi

theorem runUnit_of_not_isTextUnit {i : Instr} (h : isTextUnit i = false) (s : State) :
    runUnit i s = .refused .notAUnit := by
  cases i <;> cases h <;> rfl

theorem runUnit_decLocal (i : Instr) : DecLocal (runUnit i) := by
  cases hunit : isTextUnit i with
  | true =>
    cases hcause : unitCause i with
    | some cause =>
      refine (decLocal_next fun d => raiseInvalidSequence cause d.pc d).congr fun s => ?_
      rw [runUnit_eq_exec hunit, exec_unit hunit, hcause]
    | none =>
      refine (decLocal_next fun d =>
        advancePc (unitBytes i).length (pushAll (unitChunks i) d)).congr fun s => ?_
      rw [runUnit_eq_exec hunit, exec_unit hunit, hcause]
      rfl
  | false =>
    exact ⟨fun _ _ => .refused .notAUnit, fun s => runUnit_of_not_isTextUnit hunit s⟩

/-- DEC.STEP's last part: run what the unit decoder answered. -/
def runDecoded (r : Except Reject (Instr × List Byte)) (s : State) :
    Host.Outcome State Fault Refusal :=
  match r with
  | .ok (i, _) => runUnit i s
  | .error _ => .refused .notAUnit

theorem execDecStep_eq (s : State) :
    execDecStep s = if s.dec.done = true then .next s
      else if decAtEnd s.dec = true then .next (setDec s (decSetDone s.dec))
      else andThen (fetchUnit s.dec) fun bytes => runDecoded (decodeUnit s.strict bytes) s := rfl

theorem runDecoded_decLocal (r : Except Reject (Instr × List Byte)) : DecLocal (runDecoded r) := by
  cases r with
  | ok r => exact runUnit_decLocal r.1
  | error r => exact ⟨fun _ _ => .refused .notAUnit, fun _ => rfl⟩

theorem execDecStep_decLocal : DecLocal execDecStep := by
  choose run hrun using runDecoded_decLocal
  have hfetch : DecLocal fun s => andThen (fetchUnit s.dec) fun bytes =>
      runDecoded (decodeUnit s.strict bytes) s := by
    refine ⟨fun strict d => andThen (fetchUnit d) fun bytes => run (decodeUnit strict bytes) strict d,
      fun s => ?_⟩
    simp only [onDec, andThen_assoc, hrun]
  exact ((decLocal_next id).ite Dec.done
    ((decLocal_next decSetDone).ite decAtEnd hfetch)).congr execDecStep_eq

theorem decodeLoop_decLocal (n : Nat) : DecLocal (decodeLoop n) := by
  induction n with
  | zero => exact decLocal_next id
  | succ n ih => exact (decLocal_next id).ite Dec.done (execDecStep_decLocal.andThen ih)

theorem execDecode_decLocal : DecLocal execDecode := by
  choose loop hloop using decodeLoop_decLocal
  have hrun : DecLocal fun s => decodeLoop (decodeBound s.dec.tlen) s :=
    ⟨fun strict d => loop (decodeBound d.tlen) strict d, fun s => hloop _ s⟩
  exact ((decLocal_next decClear).andThen hrun).andThen
    (decLocal_next fun d => setDecRet d (decodeResult d))

theorem exec_decLocal {i : Instr} (hi : isEncInstr i = false) : DecLocal (exec i) := by
  cases hunit : isTextUnit i with
  | true => exact (runUnit_decLocal i).congr fun s => (runUnit_eq_exec hunit s).symm
  | false =>
    cases i with
    | dval k =>
      exact ⟨fun _ d => andThen (tableEntry k) fun v => .next (setDecRet d (.value v)),
        fun s => by rw [onDec, andThen_assoc]; rfl⟩
    | push7 v => exact decLocal_next fun d => setDecRet (pushChunk v d).2 (.pushed (pushChunk v d).1)
    | decStep => exact execDecStep_decLocal
    | decode => exact execDecode_decLocal
    | decStart => exact decLocal_next decClear
    | _ => cases hi <;> cases hunit

/-! ### Scripts of host commands -/

theorem EncLocal.setScript {op : State → Host.Outcome State Fault Refusal} (h : EncLocal op)
    (s : State) (cs : List HostCmd) :
    op (setScript s cs) = Machine.andThen (op s) fun t => .next (setScript t cs) := by
  obtain ⟨f, hf⟩ := h
  simp only [hf, onEnc, andThen_assoc]
  rfl

theorem DecLocal.setScript {op : State → Host.Outcome State Fault Refusal} (h : DecLocal op)
    (s : State) (cs : List HostCmd) :
    op (setScript s cs) = Machine.andThen (op s) fun t => .next (setScript t cs) := by
  obtain ⟨f, hf⟩ := h
  simp only [hf, onDec, andThen_assoc]
  rfl

/-- No instruction reads or writes the host's script (log 3). -/
theorem exec_setScript (i : Instr) (s : State) (cs : List HostCmd) :
    exec i (setScript s cs) = andThen (exec i s) fun t => .next (setScript t cs) := by
  cases hi : isEncInstr i with
  | true => exact (exec_encLocal hi).setScript s cs
  | false => exact (exec_decLocal hi).setScript s cs

/-- A number of steps of the machine. -/
def runSteps (n : Nat) (s : State) : Host.Outcome State Fault Refusal := Sys2Proof.core.run n s

theorem runSteps_succ (n : Nat) (s : State) :
    runSteps (n + 1) s = andThen (step s) (runSteps n) := by
  have hstep : Sys2Proof.core.step s = step s := rfl
  have hrun := Host.Core.run.eq_def Sys2Proof.core (n + 1) s
  simp only [hstep] at hrun
  refine hrun.trans ?_
  cases step s <;> rfl

theorem runScript_eq_runSteps (cs : List HostCmd) (s : State) :
    runScript cs s = runSteps cs.length (setScript s cs) := rfl

/-- A script runs its first command and then the others. -/
theorem runScript_cons (c : HostCmd) (cs : List HostCmd) (s : State) :
    runScript (c :: cs) s = andThen (exec c.instr s) (runScript cs) := by
  have hfirst : step (setScript s (c :: cs)) = exec c.instr (setScript s cs) := rfl
  rw [runScript_eq_runSteps, List.length_cons, runSteps_succ, hfirst, exec_setScript, andThen_assoc]
  rfl

theorem isEncInstr_instr (c : HostCmd) : isEncInstr c.instr = c.isEnc := by
  cases c <;> rfl

/-- A command to the encode engine does in s what it does in a state s1 with that engine. -/
theorem exec_encCommand {c : HostCmd} (hc : c.isEnc = true) {s s1 t1 : State}
    (h : exec c.instr s1 = .next t1) (henc : s.enc = s1.enc) :
    exec c.instr s = .next (setEnc s t1.enc) :=
  (exec_encLocal ((isEncInstr_instr c).trans hc)).transfer h henc

/-- A command to the decode engine does in s what it does in a state s2 with that engine and STRICT, and
leaves STRICT. -/
theorem exec_decCommand {c : HostCmd} (hc : c.isEnc = false) {s s2 t2 : State}
    (h : exec c.instr s2 = .next t2) (hdec : s.dec = s2.dec) (hstrict : s.strict = s2.strict) :
    exec c.instr s = .next (setDec s t2.dec) ∧ t2.strict = s2.strict := by
  have hlocal := exec_decLocal ((isEncInstr_instr c).trans hc)
  obtain ⟨d, -, rfl⟩ := exec_decEffect ((isEncInstr_instr c).trans hc) h
  exact ⟨hlocal.transfer h hdec hstrict, rfl⟩

/-- A script run from s, where s1 holds the encode engine of s and s2 its decode engine: each engine ends as
its own commands alone leave it. -/
theorem runScript_interleaved {cs : List HostCmd} {s s1 s2 a b : State} (henc : s.enc = s1.enc)
    (hdec : s.dec = s2.dec) (hstrict : s.strict = s2.strict)
    (ha : runScript (cs.filter HostCmd.isEnc) s1 = .next a)
    (hb : runScript (cs.filter fun c => !c.isEnc) s2 = .next b) :
    runScript cs s = .next { s with enc := a.enc, dec := b.dec, script := [] } := by
  induction cs generalizing s s1 s2 with
  | nil =>
    cases ha
    cases hb
    simp only [setScript_enc, setScript_dec, ← henc, ← hdec]
    rfl
  | cons c cs ih =>
    cases hc : c.isEnc with
    | true =>
      simp only [List.filter_cons, hc, if_true, Bool.not_true, Bool.false_eq_true, if_false] at ha hb
      rw [runScript_cons] at ha
      obtain ⟨t1, hfirst, hrest⟩ := andThen_eq_next.1 ha
      rw [runScript_cons, exec_encCommand hc hfirst henc]
      exact ih (s := setEnc s t1.enc) (s1 := t1) (s2 := s2) rfl hdec hstrict hrest hb
    | false =>
      simp only [List.filter_cons, hc, if_true, Bool.not_false, Bool.false_eq_true, if_false] at ha hb
      rw [runScript_cons] at hb
      obtain ⟨t2, hfirst, hrest⟩ := andThen_eq_next.1 hb
      obtain ⟨hexec, hkept⟩ := exec_decCommand hc hfirst hdec hstrict
      rw [runScript_cons, hexec]
      exact ih (s := setDec s t2.dec) (s1 := s1) (s2 := t2) henc rfl (hstrict.trans hkept.symm) ha hrest

end Sys2Proof.Machine

/-- Settles O52: an operation is a function of its own engine, and of STRICT for the decoder. -/
theorem enginesShareNoState : Obligations.EnginesShareNoState :=
  fun _ _ _ h => ⟨fun hi _ henc => (exec_encLocal hi).transfer h henc,
    fun hi _ hdec hstrict => (exec_decLocal hi).transfer h hdec hstrict⟩

/-- Settles O53: each command finds its engine as the run of that engine's commands alone has it. -/
theorem interleavingIsIrrelevant : Obligations.InterleavingIsIrrelevant :=
  fun _ _ _ _ ha hb => runScript_interleaved rfl rfl rfl ha hb

end

section
/-! SUPPORT. The operations of XTR, CLS and PCK one by one (40_extractor.md, 41_classifier.md,
42_packer.md): what each appends or returns, and the packer's dispatch. -/

open Sys2Proof Sys2Proof.Machine

namespace Sys2Proof.Machine

/-! ### The classifier (R130) -/

/-- R130 with index_of written out. -/
theorem classOf_eq (c : Chunk) :
    classOf c = if c = 0x00#7 then .dangerous 0 else if c = 0x0A#7 then .dangerous 1
      else if c = 0x0D#7 then .dangerous 2 else if c = 0x22#7 then .dangerous 3
      else if c = 0x26#7 then .dangerous 4 else if c = 0x5C#7 then .dangerous 5 else .safe := by
  rw [classOf, indexOf]
  split_ifs <;> rfl

/-- The row that a chunk's pattern selects is CLASS of the chunk. -/
theorem exec_decodeChunk (c : Chunk) (s : State) : exec (decodeChunk c) s = returnClass c s := by
  rw [decodeChunk]
  split_ifs with h0 h1 h2 h3 h4 h5
  · subst h0; rfl
  · subst h1; rfl
  · subst h2; rfl
  · subst h3; rfl
  · subst h4; rfl
  · subst h5; rfl
  · rfl

/-! ### The emit operations (R142 to R146) -/

theorem escByte1_eq_append (k : IndexField) (p : Chunk) :
    escByte1 k p = 0b110#3 ++ k ++ 1#1 ++ p.extractLsb' 6 1 := by
  have hp := p.isLt
  apply BitVec.eq_of_toNat_eq
  simp only [escByte1_toNat, toNat_append_eq_add, BitVec.extractLsb'_toNat,
    Nat.shiftRight_eq_div_pow, BitVec.toNat_ofNat]
  omega

theorem escByte2_eq_append (p : Chunk) : escByte2 p = 0b10#2 ++ p.extractLsb' 0 6 := by
  apply BitVec.eq_of_toNat_eq
  simp only [escByte2_toNat, toNat_append_eq_add, BitVec.extractLsb'_toNat, Nat.shiftRight_zero,
    BitVec.toNat_ofNat]
  omega

/-- Two bytes appended to a buffer are at its end, in order, and every other index is as before. -/
theorem memGet_two_appends (m : Memory) (n : Nat) (b1 b2 : Byte) :
    memGet (memPut (memPut m n b1) (n + 1) b2) n = some b1 ∧
      memGet (memPut (memPut m n b1) (n + 1) b2) (n + 1) = some b2 ∧
      ∀ a, a ≠ n → a ≠ n + 1 → memGet (memPut (memPut m n b1) (n + 1) b2) a = memGet m a := by
  refine ⟨?_, memGet_memPut_same _ _ _, fun a h1 h2 => ?_⟩
  · rw [memGet_memPut_other (by omega), memGet_memPut_same]
  · rw [memGet_memPut_other h2, memGet_memPut_other h1]

/-- ENC.STEP moves the cursor, sets ENC.DONE or appends at most two bytes; it writes nothing else. -/
theorem encodeStep_frame {e e' : Enc} (h : encodeStep e = .next e') : ∃ bi bo done out olen,
    e' = { e with bi := bi, bo := bo, done := done, out := out, olen := olen } ∧
      e.olen ≤ olen ∧ olen ≤ e.olen + 2 ∧
      ∀ a, a < e.olen ∨ olen ≤ a → memGet out a = memGet e.out a := by
  rcases encodeStep_cases h with ⟨-, rfl⟩ | ⟨-, -, rfl⟩ | ⟨-, -, c, -, rfl⟩ |
    ⟨-, -, -, k, n, rfl⟩ | ⟨-, -, -, c, -, rfl⟩
  · exact ⟨_, _, _, _, _, rfl, by omega, by omega, fun _ _ => rfl⟩
  · exact ⟨_, _, _, _, _, rfl, by omega, by omega, fun _ _ => rfl⟩
  · refine ⟨_, _, _, _, e.olen + 1, rfl, by omega, by omega, fun a ha => ?_⟩
    exact memGet_memPut_other (a := e.olen) (by omega)
  all_goals
    refine ⟨_, _, _, _, e.olen + 2, rfl, by omega, by omega, fun a ha => ?_⟩
    obtain ⟨-, -, hother⟩ := memGet_two_appends e.out e.olen _ _
    exact hother a (by omega) (by omega)

/-! ### The dispatch (R95) -/

theorem decodeDispatch_safe {c : Chunk} (h : classOf c = .safe) (nv : Bool) (n : Chunk) :
    decodeDispatch (dispatchD c) nv c n = .ok (.put1 c) := by
  have hd : Config.inDtab c = false := classOf_safe.1 h
  simp [dispatchD, decodeDispatch, hd, indexOf_safe hd]

theorem decodeDispatch_dangerous {c : Chunk} {k : Index} (h : classOf c = .dangerous k) (nv : Bool)
    (n : Chunk) :
    decodeDispatch (dispatchD c) nv c n = .ok (if nv = true then .pute k n else .puts c) := by
  have hd : Config.inDtab c = true := inDtab_of_dangerous h
  have hk : indexOf c = some k := indexOf_eq_some.2 (classOf_dangerous.1 h)
  cases nv <;> simp [dispatchD, decodeDispatch, hd, hk]

end Sys2Proof.Machine

/-- Settles O8: each row returns the class of the chunk that it is the pattern of. -/
theorem classReturnsPattern : Obligations.ClassReturnsPattern := by
  intro s c returning
  have hclass : exec (.classify c) s = returning (classOf c) := rfl
  refine ⟨rfl, rfl, rfl, rfl, rfl, rfl, ?_, exec_decodeChunk c s, fun h => ?_⟩
  · rw [hclass, classOf_eq]
  · rw [← classOf_safe.2 h]
    rfl

/-- Settles O13: GET7 writes the cursor that the extractor moves. -/
theorem get7Completes : Obligations.Get7Completes := by
  intro s hd
  by_cases hend : s.enc.len ≤ s.enc.bi
  · have hdraw := extract_exhausted hend
    exact ⟨none, s.enc.bi, s.enc.bo, hdraw, by simpa using hend,
      andThen_eq_next.2 ⟨_, hdraw, rfl⟩⟩
  · have hdraw := extract_within (Nat.not_le.1 hend) hd
    exact ⟨some _, _, _, hdraw, by simpa using hend, andThen_eq_next.2 ⟨_, hdraw, rfl⟩⟩

/-- Settles O14: the byte of a literal is its chunk with a leading 0. -/
theorem put1AppendsLiteral : Obligations.Put1AppendsLiteral := by
  intro s c
  refine ⟨_, rfl, ?_, fun a ha => memGet_memPut_other ha⟩
  rw [literal_eq_setWidth]
  exact memGet_memPut_same _ _ _

/-- Settles O15: the two bytes of an escape are R84's fields side by side. -/
theorem puteAppendsEscape : Obligations.PuteAppendsEscape := by
  intro s k n
  refine ⟨_, rfl, ?_⟩
  rw [← escByte2_eq_append]
  have hfirst : escByte1 (indexField k) n = 0b110#3 ++ BitVec.ofNat 3 k.val ++ 1#1 ++
      n.extractLsb' 6 1 := escByte1_eq_append _ _
  rw [← hfirst]
  exact memGet_two_appends _ _ _ _

/-- Settles O16: a shortened escape is the form with index field 7. -/
theorem putsAppendsShortened : Obligations.PutsAppendsShortened := by
  intro s c
  refine ⟨_, rfl, ?_⟩
  rw [← escByte2_eq_append]
  have hfirst : escByte1 7#3 c = 0b1101111#7 ++ c.extractLsb' 6 1 := escByte1_eq_append _ _
  rw [← hfirst]
  exact memGet_two_appends _ _ _ _

/-- Settles O18: the bits select by the class of the chunk, as ENC.STEP does. -/
theorem dispatchBitsSelectEmit : Obligations.DispatchBitsSelectEmit := by
  refine ⟨fun c n nv => ⟨fun h => decodeDispatch_safe (classOf_safe.2 h) nv n, fun k h =>
    ⟨decodeDispatch_dangerous h _ n, decodeDispatch_dangerous h _ n⟩⟩, ?_⟩
  intro s bytes hin hlen hdone p c n nv hlt
  cases hc : classOf c with
  | safe =>
    have hd : ¬ dispatchD c = true := by simpa [dispatchD] using classOf_safe.1 hc
    refine ⟨_, decodeDispatch_safe hc nv n, ?_⟩
    rw [if_neg fun h => hd h.1]
    exact exec_encStep_of_step (encodeStep_safe hin hlen hdone hlt hc)
  | dangerous k =>
    have hd : dispatchD c = true := inDtab_of_dangerous hc
    refine ⟨_, decodeDispatch_dangerous hc nv n, ?_⟩
    by_cases hnext : p + 7 < 8 * s.enc.len
    · have hnv : nv = true := by simp [nv, dispatchNv, hnext]
      rw [if_pos hnv, if_pos ⟨hd, hnv⟩]
      exact exec_encStep_of_step (encodeStep_pair hin hlen hdone hnext hc)
    · have hnv : ¬ nv = true := by simp [nv, dispatchNv, hnext]
      rw [if_neg hnv, if_neg fun h => hnv h.2]
      exact exec_encStep_of_step (encodeStep_last hin hlen hdone hlt (Nat.not_lt.1 hnext) hc)

/-- Settles O19: ENC.STEP moves the cursor, sets ENC.DONE or appends one or two bytes. -/
theorem encStepCompletes : Obligations.EncStepCompletes := by
  intro s hd
  obtain ⟨e, hstep⟩ := encodeStep_completes hd
  obtain ⟨bi, bo, done, out, olen, rfl, hlo, hhi, hkept⟩ := encodeStep_frame hstep
  exact ⟨bi, bo, done, out, olen, exec_encStep_of_step hstep, hlo, hhi, hkept⟩

end

section
/-! SUPPORT. The operations of UPK one by one (43_unpacker.md): DVAL, PUSH7 and the text units, DEC.STEP at
a unit and at the end of the text, and the step of the machine (44_system.md R192). -/

open Sys2Proof Sys2Proof.Machine

namespace Sys2Proof.Machine

/-! ### PUSH7 (R160) -/

/-- PUSH7 adds its seven bits, modulo 8, to those held. -/
theorem pushChunk_ab (v : Chunk) (d : Dec) :
    (pushChunk v d).2.ab = BitVec.ofNat 3 ((d.ab.toNat + 7) % 8) := by
  rcases pushChunk_cases v d with ⟨h0, hpush⟩ | ⟨h0, byte, -, hpush⟩ <;> rw [hpush]
  · rw [h0]
    rfl
  · have hpos : 0 < d.ab.toNat := Nat.pos_of_ne_zero fun h => h0 (BitVec.eq_of_toNat_eq h)
    have hab := d.ab.isLt
    have hmod : (d.ab.toNat + 7) % 8 = d.ab.toNat - 1 := by omega
    rw [hmod]

/-- PUSH7 emits a byte unless the accumulator is empty. -/
theorem pushChunk_olen (v : Chunk) (d : Dec) :
    (pushChunk v d).2.olen = d.olen + if d.ab = 0#3 then 0 else 1 := by
  rcases pushChunk_cases v d with ⟨h0, hpush⟩ | ⟨h0, byte, -, hpush⟩ <;> simp [hpush, h0]

/-- Two pushes emit one byte where no bit or one was held, else two (R166). -/
theorem pushChunk_pushChunk_olen (v w : Chunk) (d : Dec) :
    (pushChunk w (pushChunk v d).2).2.olen = d.olen + if d.ab.toNat ≤ 1 then 1 else 2 := by
  rw [pushChunk_olen, pushChunk_olen, pushChunk_ab, Nat.add_assoc]
  congr 1
  generalize d.ab = a
  revert a
  decide

theorem pushChunk_pc (v : Chunk) (d : Dec) : (pushChunk v d).2.pc = d.pc := by
  obtain ⟨hpc, -⟩ := pushChunk_frame v d
  exact hpc

/-! ### The text units (R164 to R167) -/

/-- ESC k, p and its STRICT = 0 reading. -/
theorem unitEscape_runs (k : Index) (p : Chunk) (s : State) :
    let both := (pushChunk p (pushChunk Config.dtab[k] s.dec).2).2
    unitEscape k p s = .next (setDec s { both with pc := s.dec.pc + 2 }) ∧
      both.olen = s.dec.olen + if s.dec.ab.toNat ≤ 1 then 1 else 2 := by
  refine ⟨?_, pushChunk_pushChunk_olen _ _ _⟩
  rw [unitEscape_eq, advancePc, pushChunk_pc, pushChunk_pc]

theorem unitShortened_runs (p : Chunk) (s : State) :
    unitShortened p s = .next (setDec s { (pushChunk p s.dec).2 with pc := s.dec.pc + 2 }) := by
  rw [unitShortened, advancePc, pushChunk_pc]

/-! ### DEC.STEP and the step of the machine (R172, R192) -/

/-- DEC.STEP fetches the first unit of the bytes that the text has from DEC.PC on. -/
theorem fetchUnit_of_reads {d : Dec} {bytes : List Byte} (hne : bytes ≠ [])
    (htlen : d.tlen = d.pc + bytes.length)
    (hget : ∀ j b, bytes[j]? = some b → memGet d.txt (d.pc + j) = some b) :
    fetchUnit d = .next (bytes.take (frameLength bytes)) := by
  match bytes with
  | [b1] =>
    refine fetchUnit_oneByte (by simp [htlen]) (hget 0 b1 rfl) fun h => ?_
    simp [htlen] at h
  | b1 :: b2 :: rest =>
    have hmore : d.pc + 1 < d.tlen := by simp [htlen]
    by_cases hesc : beginsEscape b1 = true
    · simp only [frameLength, if_pos hesc]
      exact fetchUnit_twoBytes hesc hmore (hget 0 b1 rfl) (hget 1 b2 rfl)
    · simp only [frameLength, if_neg hesc]
      exact fetchUnit_oneByte (Nat.lt_of_succ_lt hmore) (hget 0 b1 rfl) fun h => hesc h.1

/-- DEC.STEP on a text that goes on from DEC.PC with a unit is the effect of the unit. -/
theorem execDecStep_of_reads {s : State} {bytes rest : List Byte} {i : Instr}
    (hdone : s.dec.done = false) (htlen : s.dec.tlen = s.dec.pc + bytes.length)
    (hget : ∀ j b, bytes[j]? = some b → memGet s.dec.txt (s.dec.pc + j) = some b)
    (hdec : decodeUnit s.strict bytes = .ok (i, rest)) : execDecStep s = exec i s := by
  have hne : bytes ≠ [] := by
    rintro rfl
    simp [decodeUnit] at hdec
  have hlen := List.length_pos_iff.2 hne
  obtain ⟨-, -, htake⟩ := decodeUnit_framed hdec
  exact execDecStep_of_fetch hdone (by omega) (fetchUnit_of_reads hne htlen hget) htake

/-- A host at the end of its script gives DEC.STEP (log 3). -/
theorem step_of_script_nil {s : State} (h : s.script = []) : step s = exec .decStep s := by
  rw [step, h]

/-- Every other host gives the next command of its script. -/
theorem step_setScript_cons (s : State) (c : HostCmd) (cs : List HostCmd) :
    step (setScript s (c :: cs)) = exec c.instr (setScript s cs) := rfl

/-- The text of the state with a word placed reads as the bytes of the word from DEC.PC on (log 2). -/
theorem withFetchWord_reads (s : State) (nbits w : Nat) {j : Nat} {b : Byte}
    (h : (tableBytes nbits w)[j]? = some b) :
    memGet (s.withFetchWord nbits w).dec.txt (s.dec.pc + j) = some b := by
  obtain ⟨hj, -⟩ := List.getElem?_eq_some_iff.1 h
  have htxt : (s.withFetchWord nbits w).dec.txt =
      memPutAll s.dec.txt s.dec.pc (tableBytes nbits w) := rfl
  rw [htxt, memGet_memPutAll, if_pos (by omega), Nat.add_sub_cancel_left, h]

theorem decodeTableWord_eq_some {nbits w : Nat} {i : Instr} (h : decodeTableWord nbits w = some i) :
    ∃ rest, decodeUnit Config.strict (tableBytes nbits w) = .ok (i, rest) := by
  unfold decodeTableWord at h
  split at h
  · next j rest hdec =>
    cases h
    exact ⟨rest, hdec⟩
  · cases h

end Sys2Proof.Machine

/-- Settles O9: an index below 6 reads its entry of DTAB, and the table ends there. -/
theorem dvalReadsTable : Obligations.DvalReadsTable := by
  intro s k returning
  refine ⟨?_, ?_, ?_, ?_, ?_, ?_, ?_⟩
  any_goals
    rintro rfl
    rfl
  rintro (rfl | rfl) <;> rfl

/-- Settles O27: with no bit held PUSH7 only keeps the chunk, else it emits a byte. -/
theorem push7Completes : Obligations.Push7Completes := by
  intro s v r
  have hab : r.2.ab = BitVec.ofNat 3 ((s.dec.ab.toNat + 7) % 8) := pushChunk_ab v s.dec
  refine ⟨rfl, ?_, fun h => ?_, fun h => ?_⟩
  · rw [← hab]
    obtain ⟨ac, ab, out, olen, hpush⟩ := pushAll_eq [v] s.dec
    have hr : r.2 = { s.dec with ac := ac, ab := ab, out := out, olen := olen } := hpush
    rw [hr]
  · have hr : r = _ := pushChunk_of_empty h
    rw [hr]
    exact ⟨rfl, rfl, rfl⟩
  · rcases pushChunk_cases v s.dec with ⟨h0, -⟩ | ⟨-, byte, -, hpush⟩
    · exact absurd h0 h
    · have hr : r = _ := hpush
      rw [hr]
      exact ⟨byte, rfl, rfl, memGet_memPut_same _ _ _, fun a ha => memGet_memPut_other ha⟩

/-- Settles O28: LIT is PUSH7 and DEC.PC + 1. -/
theorem litPushesChunk : Obligations.LitPushesChunk := by
  intro s c
  refine ⟨?_, pushChunk_olen c s.dec⟩
  rw [← pushChunk_pc c s.dec]
  rfl

/-- Settles O29: each escape is ESC with its entry of DTAB. -/
theorem escPushesTwoChunks : Obligations.EscPushesTwoChunks := by
  intro s p both runs
  exact ⟨unitEscape_runs 0 p s, unitEscape_runs 1 p s, unitEscape_runs 2 p s, unitEscape_runs 3 p s,
    unitEscape_runs 4 p s, unitEscape_runs 5 p s, fun k => unitEscape_runs k p s⟩

/-- Settles O30: both rows are ESCS. -/
theorem escsPushesPayload : Obligations.EscsPushesPayload := by
  intro s p i hi
  simp only [List.mem_cons, List.not_mem_nil, or_false] at hi
  rcases hi with rfl | rfl <;> exact unitShortened_runs p s

/-- Settles O31: each illegal row raises its cause at DEC.PC. -/
theorem raiseWritesErrorRecord : Obligations.RaiseWritesErrorRecord := by
  intro s raises
  have hraise : ∀ (cause : Cause) {i : Instr}, isTextUnit i = true → unitCause i = some cause →
      raises i (causeCode cause) := fun _ _ hunit hcause => exec_of_failing hunit hcause
  exact ⟨fun _ => hraise .lead rfl rfl, fun _ => hraise .lead rfl rfl, fun _ => hraise .trunc rfl rfl,
    fun _ _ => hraise .cont rfl rfl, fun _ => hraise .overlong rfl rfl,
    fun _ _ => hraise .fixed rfl rfl, fun _ => hraise .index6 rfl rfl,
    fun _ => hraise .index6 rfl rfl, fun _ => hraise .shortpay rfl rfl⟩

/-- Settles O33: DEC.STEP fetches the unit that the text decodes to, and the host's step is DEC.STEP. -/
theorem stepRunsDecodedUnit : Obligations.StepRunsDecodedUnit := by
  intro s text rest i htxt htlen hdone hdec
  have hstep : exec .decStep s = exec i s := execDecStep_of_unit ⟨htxt, htlen, hdone⟩ hdec
  refine ⟨hstep, fun hscript => (step_of_script_nil hscript).trans hstep, fun cs => ?_⟩
  rw [step_setScript_cons]
  exact execDecStep_of_unit (s := setScript s cs) ⟨htxt, htlen, hdone⟩ hdec

/-- Settles O34: a command is the instruction of its name. -/
theorem stepRunsHostCommand : Obligations.StepRunsHostCommand := by
  intro s cs
  exact ⟨step_setScript_cons s .encStart cs, step_setScript_cons s .encStep cs,
    step_setScript_cons s .encode cs, step_setScript_cons s .decStart cs,
    step_setScript_cons s .decStep cs, step_setScript_cons s .decode cs, step_of_script_nil rfl⟩

/-- Settles O35: the bytes of the word are the text from DEC.PC on, and the script is at its end. -/
theorem fetchedWordRuns : Obligations.FetchedWordRuns := by
  intro s nbits w i hstrict hword
  obtain ⟨rest, hdec⟩ := decodeTableWord_eq_some hword
  rw [← hstrict] at hdec
  rw [step_of_script_nil rfl]
  exact execDecStep_of_reads (s := s.withFetchWord nbits w) rfl rfl
    (fun _ _ => withFetchWord_reads s nbits w) hdec

/-- Settles O36: the end of the text is the second thing that DEC.STEP looks at. -/
theorem endOfTextSetsDone : Obligations.EndOfTextSetsDone := by
  intro s hdone hend
  have hatEnd : decAtEnd s.dec = true := by simpa [decAtEnd] using hend
  exact (execDecStep_eq s).trans ((if_neg (by simp [hdone])).trans (if_pos hatEnd))

/-- Settles O47: DEC.START is the reset of the decode engine. -/
theorem decStartResets : Obligations.DecStartResets := by
  intro s
  exact ⟨setDec s (decClear s.dec), exec_decStart s, rfl, exec_decStart _⟩

/-- Settles O58: a read looks at the length first and then for a byte. -/
theorem readsOutsideTheInputStop : Obligations.ReadsOutsideTheInputStop := by
  have hend : ∀ (space : Space) (m : Memory) {len a : Nat}, len ≤ a →
      memRead space m len a = .refused (.readPastEnd space a) :=
    fun space m len a h => if_neg (Nat.not_lt.2 h)
  have hnone : ∀ (space : Space) (m : Memory) {len a : Nat}, a < len → memGet m a = none →
      memRead space m len a = .fault (.byteNotPlaced space a) :=
    fun space m len a h hm => by simp [memRead, h, hm]
  exact fun e d a => ⟨hend .encIn e.inp, hend .decTxt d.txt, hnone .encIn e.inp, hnone .decTxt d.txt⟩

end

section
/-! SUPPORT. Texts unit by unit (43_unpacker.md R174, R176): a text that parses, what follows it, and the first
unit that fails (60_exceptions.md R208). -/

open Sys2Proof Sys2Proof.Machine

namespace Sys2Proof.Machine

/-! ### Texts that parse -/

/-- Every unit of the text is valid, and `cs` are their chunks in text order. -/
inductive Parses (strict : Bool) : List Byte → List Chunk → Prop where
  | nil : Parses strict [] []
  | unit {bytes rest : List Byte} {i : Instr} {cs : List Chunk}
      (hdec : decodeUnit strict bytes = .ok (i, rest)) (hvalid : unitCause i = none)
      (hrest : Parses strict rest cs) : Parses strict bytes (unitChunks i ++ cs)

section
variable {strict : Bool} {bytes rest : List Byte} {i : Instr}

/-- The unit decoder leaves fewer bytes. -/
theorem decodeUnit_shorter (h : decodeUnit strict bytes = .ok (i, rest)) :
    rest.length < bytes.length := by
  have hne : bytes ≠ [] := by
    rintro rfl
    simp [decodeUnit] at h
  obtain ⟨-, rfl, -⟩ := decodeUnit_framed h
  obtain ⟨hpos, hle⟩ := frameLength_bounds hne
  rw [List.length_drop]
  omega

/-- A valid unit stays the first unit whatever text is put after it. -/
theorem decodeUnit_append (h : decodeUnit strict bytes = .ok (i, rest)) (hvalid : unitCause i = none)
    (tail : List Byte) : decodeUnit strict (bytes ++ tail) = .ok (i, rest ++ tail) := by
  obtain ⟨hwf, rfl⟩ := decodeUnit_sound h
  rw [List.append_assoc]
  refine decodeUnit_unitBytes_append hwf (decodeUnit_isTextUnit h) fun htrunc => ?_
  rw [hvalid] at htrunc
  cases htrunc

/-- `textChunks` answers the chunks of a text that parses. -/
theorem Parses.textChunks {cs : List Chunk} (h : Parses strict bytes cs) {fuel pos : Nat}
    (hfuel : bytes.length ≤ fuel) : textChunks strict fuel pos bytes = .ok cs := by
  induction h generalizing fuel pos with
  | nil => exact textChunks_nil strict fuel pos
  | unit hdec hvalid _ ih =>
    have hshorter := decodeUnit_shorter hdec
    obtain ⟨fuel, rfl⟩ := Nat.exists_eq_add_one_of_ne_zero (by omega : fuel ≠ 0)
    exact (textChunks_eq_ok hdec).2 ⟨hvalid, _, ih (by omega), rfl⟩

/-- Only a text that parses has chunks. -/
theorem parses_of_textChunks {fuel pos : Nat} {cs : List Chunk} (hfuel : bytes.length ≤ fuel)
    (h : textChunks strict fuel pos bytes = .ok cs) : Parses strict bytes cs := by
  induction fuel generalizing pos bytes cs with
  | zero =>
    obtain rfl := List.length_eq_zero_iff.1 (Nat.le_zero.1 hfuel)
    cases h
    exact .nil
  | succ fuel ih =>
    cases bytes with
    | nil =>
      cases h
      exact .nil
    | cons b tail =>
      obtain ⟨i, rest, hdec⟩ := decodeUnit_cons strict b tail
      have hshorter := decodeUnit_shorter hdec
      obtain ⟨hvalid, cs', hrest, rfl⟩ := (textChunks_eq_ok hdec).1 h
      exact .unit hdec hvalid (ih (by omega) hrest)

theorem parses_iff {cs : List Chunk} : Parses strict bytes cs ↔ parseText strict bytes = .ok cs :=
  ⟨fun h => h.textChunks le_rfl, parses_of_textChunks le_rfl⟩

/-- Two texts that parse parse one after the other. -/
theorem Parses.append {tail : List Byte} {cs cs' : List Chunk} (h : Parses strict bytes cs)
    (h' : Parses strict tail cs') : Parses strict (bytes ++ tail) (cs ++ cs') := by
  induction h with
  | nil => exact h'
  | unit hdec hvalid _ ih =>
    rw [List.append_assoc]
    exact .unit (decodeUnit_append hdec hvalid tail) hvalid ih

/-! ### Texts that fail -/

/-- The text `before` parses to `cs`, and the text `left` after it begins with a unit that fails. -/
structure FailsAfter (strict : Bool) (before left : List Byte) (cs : List Chunk) (cause : Cause) :
    Prop where
  parses : Parses strict before cs
  fails : ∃ i rest, decodeUnit strict left = .ok (i, rest) ∧ unitCause i = some cause

theorem FailsAfter.cons {before left : List Byte} {cs : List Chunk} {cause : Cause}
    (hdec : decodeUnit strict bytes = .ok (i, before ++ left)) (hvalid : unitCause i = none)
    (h : FailsAfter strict before left cs cause) :
    FailsAfter strict (unitBytes i ++ before) left (unitChunks i ++ cs) cause := by
  obtain ⟨hwf, -⟩ := decodeUnit_sound hdec
  refine ⟨.unit (decodeUnit_unitBytes_append hwf (decodeUnit_isTextUnit hdec) fun htrunc => ?_) hvalid
    h.parses, h.fails⟩
  rw [hvalid] at htrunc
  cases htrunc

/-- A text fails where its first unit does, or else where the text after that unit fails. -/
theorem textChunks_eq_error {fuel pos : Nat} {e : Cause × Nat}
    (hdec : decodeUnit strict bytes = .ok (i, rest)) :
    textChunks strict (fuel + 1) pos bytes = .error e ↔
      (∃ cause, unitCause i = some cause ∧ (cause, pos) = e) ∨
      (unitCause i = none ∧
        textChunks strict fuel (pos + (bytes.length - rest.length)) rest = .error e) := by
  simp only [textChunks, hdec]
  cases unitCause i with
  | some cause => simp
  | none =>
    cases textChunks strict fuel (pos + (bytes.length - rest.length)) rest <;> simp

/-- Where `textChunks` answers a failure, it is that of the first unit that fails. -/
theorem failsAfter_of_textChunks {fuel pos index : Nat} {cause : Cause}
    (h : textChunks strict fuel pos bytes = .error (cause, index)) :
    ∃ before left cs, before ++ left = bytes ∧ index = pos + before.length ∧
      FailsAfter strict before left cs cause := by
  induction fuel generalizing pos bytes with
  | zero => cases h
  | succ fuel ih =>
    cases bytes with
    | nil => cases h
    | cons b tail =>
      obtain ⟨i, rest, hdec⟩ := decodeUnit_cons strict b tail
      rcases (textChunks_eq_error hdec).1 h with ⟨cause', hcause, heq⟩ | ⟨hvalid, hrest⟩
      · cases heq
        exact ⟨[], b :: tail, [], rfl, rfl, .nil, i, rest, hdec, hcause⟩
      · obtain ⟨before, left, cs, rfl, rfl, hfails⟩ := ih hrest
        obtain ⟨-, hbytes⟩ := decodeUnit_sound hdec
        refine ⟨unitBytes i ++ before, left, _, by rw [List.append_assoc, hbytes], ?_,
          hfails.cons hdec hvalid⟩
        rw [← hbytes]
        simp only [List.length_append]
        omega

end

/-! ### The decode loop along a text that parses (R174) -/

/-- From the bytes of one unit to the text after it. -/
theorem execDecStep_of_valid {text rest : List Byte} {s : State} {i : Instr}
    (h : RunsText text s.dec) (hdec : decodeUnit s.strict (text.drop s.dec.pc) = .ok (i, rest))
    (hvalid : unitCause i = none) :
    ∃ d, d = advancePc (unitBytes i).length (pushAll (unitChunks i) s.dec) ∧
      execDecStep s = .next (setDec s d) ∧ RunsText text d ∧ text.drop d.pc = rest := by
  obtain ⟨-, hbytes⟩ := decodeUnit_sound hdec
  refine ⟨_, rfl, ?_, (h.pushAll _).advancePc _, ?_⟩
  · rw [execDecStep_of_unit h hdec, exec_unit (decodeUnit_isTextUnit hdec), hvalid]
    rfl
  · rw [advancePc_pc, pushAll_pc, ← List.drop_drop, ← hbytes, List.drop_left]

/-- The decode loop on a text that goes on with one that parses pushes its chunks and moves past it. -/
theorem decodeLoop_along {text before left : List Byte} {cs : List Chunk} {strict : Bool}
    (hparses : Parses strict before cs) {s : State} (hstrict : s.strict = strict)
    (h : RunsText text s.dec) (htext : text.drop s.dec.pc = before ++ left) :
    ∃ m, m ≤ before.length ∧ ∀ steps, decodeLoop (m + steps) s =
      decodeLoop steps (setDec s (advancePc before.length (pushAll cs s.dec))) := by
  induction hparses generalizing s with
  | nil => exact ⟨0, le_rfl, fun steps => by rw [Nat.zero_add]; rfl⟩
  | @unit bytes rest i cs hdec hvalid _ ih =>
    have hfirst := decodeUnit_append hdec hvalid left
    rw [← htext, ← hstrict] at hfirst
    obtain ⟨d, hd, hstep, hruns, hdrop⟩ := execDecStep_of_valid h hfirst hvalid
    obtain ⟨m, hm, hloop⟩ := ih (s := setDec s d) hstrict hruns hdrop
    obtain ⟨-, hbytes⟩ := decodeUnit_sound hdec
    refine ⟨m + 1, Nat.succ_le_of_lt (hm.trans_lt (decodeUnit_shorter hdec)), fun steps => ?_⟩
    rw [Nat.add_right_comm, decodeLoop_of_step h.running hstep, hloop, ← hbytes, hd]
    simp only [setDec_dec, setDec_setDec, pushAll_advancePc, advancePc_advancePc, pushAll_append,
      List.length_append]

/-- The decode loop on a text whose first failing unit comes after `before` raises there. -/
theorem decodeLoop_of_failure {text before left : List Byte} {cs : List Chunk} {cause : Cause}
    {s : State} {steps : Nat} (h : RunsText text s.dec) (htext : text.drop s.dec.pc = before ++ left)
    (hfails : FailsAfter s.strict before left cs cause) (hsteps : before.length < steps) :
    decodeLoop steps s = .next (setDec s (raiseInvalidSequence cause (s.dec.pc + before.length)
      (advancePc before.length (pushAll cs s.dec)))) := by
  obtain ⟨hparses, i, rest, hdec, hcause⟩ := hfails
  obtain ⟨m, hm, hloop⟩ := decodeLoop_along hparses rfl h htext
  obtain ⟨k, rfl⟩ := Nat.exists_eq_add_of_lt (hm.trans_lt hsteps)
  have hpc : (advancePc before.length (pushAll cs s.dec)).pc = s.dec.pc + before.length := by
    rw [advancePc_pc, pushAll_pc]
  have hruns : RunsText text (advancePc before.length (pushAll cs s.dec)) :=
    (h.pushAll cs).advancePc _
  have hleft : text.drop (s.dec.pc + before.length) = left := by
    rw [← List.drop_drop, htext, List.drop_left]
  have hstep := execDecStep_of_unit (s := setDec s (advancePc before.length (pushAll cs s.dec)))
    (i := i) (rest := rest) hruns (by rw [setDec_dec, hpc, hleft]; exact hdec)
  rw [exec_unit (decodeUnit_isTextUnit hdec), hcause] at hstep
  rw [Nat.add_assoc, hloop, decodeLoop_of_step hruns.running hstep, decodeLoop_of_done rfl, setDec_dec,
    hpc]
  rfl

/-! ### DECODE (R174) -/

/-- The engine at the end of a DECODE whose first failing unit comes after `before`. -/
def failedEngine (s : State) (text before : List Byte) (cs : List Chunk) (cause : Cause) : Dec :=
  raiseInvalidSequence cause before.length
    (advancePc before.length (pushAll cs (decClear (placeText s text).dec)))

theorem failedEngine_pc (s : State) (text before : List Byte) (cs : List Chunk) (cause : Cause) :
    (failedEngine s text before cs cause).pc = before.length := by
  simp [failedEngine, pushAll_pc]

/-- The state in which DECODE begins its loop. -/
def decodeStart (s : State) (text : List Byte) : State :=
  setDec (placeText s text) (decClear (placeText s text).dec)

theorem runsText_decodeStart (s : State) (text : List Byte) :
    RunsText text (decodeStart s text).dec := ⟨rfl, rfl, rfl⟩

theorem decodeLoop_start_of_parses {s : State} {text : List Byte} {cs : List Chunk}
    (h : Parses s.strict text cs) : decodeLoop (text.length + 1) (decodeStart s text) =
      .next (setDec (placeText s text) (decodedEngine s text cs)) :=
  decodeLoop_of_parse (runsText_decodeStart s text) (parses_iff.1 h) le_rfl
    (Nat.lt_succ_self text.length)

theorem decodeLoop_start_of_failure {s : State} {before left : List Byte} {cs : List Chunk}
    {cause : Cause} (h : FailsAfter s.strict before left cs cause) :
    decodeLoop ((before ++ left).length + 1) (decodeStart s (before ++ left)) =
      .next (setDec (placeText s (before ++ left)) (failedEngine s (before ++ left) before cs cause)) := by
  have hsteps : before.length < (before ++ left).length + 1 := by
    rw [List.length_append]
    omega
  rw [decodeLoop_of_failure (runsText_decodeStart s _) rfl h hsteps]
  simp [decodeStart, failedEngine]

/-- DECODE is its loop from DEC.START, with the result returned (R174). -/
theorem exec_decode_of_loop {s : State} {text : List Byte} {d : Dec}
    (h : decodeLoop (text.length + 1) (decodeStart s text) = .next (setDec (placeText s text) d)) :
    exec .decode (placeText s text) =
      .next (setDec (placeText s text) (setDecRet d (decodeResult d))) :=
  andThen_eq_next.2 ⟨_, h, rfl⟩

/-- A text parses or has a first unit that fails. -/
theorem parses_or_failsAfter (strict : Bool) (text : List Byte) : (∃ cs, Parses strict text cs) ∨
    ∃ before left cs cause, before ++ left = text ∧ FailsAfter strict before left cs cause := by
  cases h : parseText strict text with
  | ok cs => exact .inl ⟨cs, parses_iff.2 h⟩
  | error e =>
    obtain ⟨cause, index⟩ := e
    obtain ⟨before, left, cs, htext, -, hfails⟩ := failsAfter_of_textChunks h
    exact .inr ⟨before, left, cs, cause, htext, hfails⟩

/-- The decode loop of every text ends its run within the bound. -/
theorem decodeLoop_ends (s : State) (text : List Byte) : ∃ d,
    decodeLoop (text.length + 1) (decodeStart s text) = .next (setDec (placeText s text) d) ∧
      d.done = true := by
  rcases parses_or_failsAfter s.strict text with ⟨cs, hparses⟩ |
    ⟨before, left, cs, cause, rfl, hfails⟩
  · exact ⟨_, decodeLoop_start_of_parses hparses, rfl⟩
  · exact ⟨_, decodeLoop_start_of_failure hfails, rfl⟩

/-- The chunks that an engine holds determine its accumulator. -/
theorem HoldsChunks.accumulator_unique {cs : List Chunk} {d d' : Dec} (h : HoldsChunks cs d)
    (h' : HoldsChunks cs d') : d.ac = d'.ac ∧ d.ab = d'.ab := by
  obtain ⟨holen, hab⟩ := h.size
  obtain ⟨holen', hab'⟩ := h'.size
  refine ⟨BitVec.eq_of_getMsbD_eq fun j _ => ?_, BitVec.eq_of_toNat_eq (hab.trans hab'.symm)⟩
  rw [h.getMsbD_ac, h'.getMsbD_ac, holen, holen']

/-- A failing run is left with the accumulator of a run of the text before the unit that fails. -/
theorem failedEngine_accumulator (s : State) (text before : List Byte) (cs : List Chunk)
    (cause : Cause) :
    (decodedEngine s before cs).ac = (failedEngine s text before cs cause).ac ∧
      (decodedEngine s before cs).ab = (failedEngine s text before cs cause).ab := by
  have hpushed : HoldsChunks cs (pushAll cs (decClear (placeText s text).dec)) :=
    (holdsChunks_decClear _).pushAll cs
  have hunique := (holdsChunks_decodedEngine s before cs).accumulator_unique hpushed
  exact hunique

end Sys2Proof.Machine

/-- Settles O39: the loop pushes the chunks of the units before the first that fails, which raises. -/
theorem decodeOfInvalidText : Obligations.DecodeOfInvalidText := by
  intro s text cause index hparse
  obtain ⟨before, left, cs, rfl, hindex, hfails⟩ := failsAfter_of_textChunks hparse
  rw [Nat.zero_add] at hindex
  subst hindex
  exact ⟨_, exec_decode_of_loop (decodeLoop_start_of_failure hfails), rfl, rfl, rfl, rfl,
    failedEngine_pc s _ before cs cause, rfl, rfl⟩

/-- Settles O40: the text before the first unit that fails parses, and its chunks are what the failing run
has pushed. -/
theorem prefixBeforeFaultDecodes : Obligations.PrefixBeforeFaultDecodes := by
  intro s t text hexec herr
  rcases parses_or_failsAfter s.strict text with ⟨cs, hparses⟩ |
    ⟨before, left, cs, cause, rfl, hfails⟩
  · obtain ⟨t', hexec', -, hok, -⟩ := decodeOfValidText s text cs (parses_iff.1 hparses)
    cases hexec.symm.trans hexec'
    exact absurd (herr.symm.trans hok) nofun
  · cases hexec.symm.trans (exec_decode_of_loop (decodeLoop_start_of_failure hfails))
    have hbefore : (before ++ left).take before.length = before := List.take_left
    have hleft : (before ++ left).drop before.length = left := List.drop_left
    have hprefix := exec_decode_of_loop (decodeLoop_start_of_parses hfails.parses)
    have htext := congrArg (fun bytes => exec .decode (placeText s bytes)) hbefore
    obtain ⟨i, rest, hdec, hcause⟩ := hfails.fails
    rw [← hleft] at hdec
    obtain ⟨hac, hab⟩ := failedEngine_accumulator s (before ++ left) before cs cause
    exact ⟨_, htext.trans hprefix, decodedEngine_err s before cs, decodedEngine_pc s before cs, hac, hab,
      i, rest, cause, hdec, hcause, rfl⟩

end

section
/-! SUPPORT. Whole runs (42_packer.md R149, R152, 43_unpacker.md R174, R178, 70_reset_and_hazards.md R237,
R242): a run as a script of STEPs, texts one after the other, and short texts written out. -/

open Sys2Proof Sys2Proof.Machine

namespace Sys2Proof.Machine

/-! ### A loop as a script of STEPs -/

/-- A script of ENC.STEPs is the encode loop: past ENC.DONE both stand still. -/
theorem runScript_encSteps {n : Nat} {s : State} {e : Enc} (h : encodeLoop n s.enc = .next e) :
    runScript (List.replicate n .encStep) s = .next (setScript (setEnc s e) []) := by
  induction n generalizing s with
  | zero =>
    cases h
    rfl
  | succ n ih =>
    obtain ⟨e1, hstep, hloop⟩ : ∃ e1, encodeStep s.enc = .next e1 ∧ encodeLoop n e1 = .next e := by
      cases hdone : s.enc.done with
      | true =>
        rw [encodeLoop_of_done hdone] at h
        cases h
        exact ⟨s.enc, encodeStep_of_done hdone, encodeLoop_of_done hdone⟩
      | false =>
        simp only [encodeLoop, hdone, Bool.false_eq_true, if_false] at h
        exact andThen_eq_next.1 h
    have hfirst : exec HostCmd.encStep.instr s = .next (setEnc s e1) := exec_encStep_of_step hstep
    rw [List.replicate_succ, runScript_cons, hfirst]
    exact ih (s := setEnc s e1) hloop

/-- A script of DEC.STEPs is the decode loop: past DEC.DONE both stand still. -/
theorem runScript_decSteps {n : Nat} {s t : State} (h : decodeLoop n s = .next t) :
    runScript (List.replicate n .decStep) s = .next (setScript t []) := by
  induction n generalizing s with
  | zero =>
    cases h
    rfl
  | succ n ih =>
    obtain ⟨s1, hstep, hloop⟩ : ∃ s1, execDecStep s = .next s1 ∧ decodeLoop n s1 = .next t := by
      cases hdone : s.dec.done with
      | true =>
        rw [decodeLoop_of_done hdone] at h
        cases h
        exact ⟨t, execDecStep_of_done hdone, decodeLoop_of_done hdone⟩
      | false =>
        simp only [decodeLoop, hdone, Bool.false_eq_true, if_false] at h
        exact andThen_eq_next.1 h
    have hfirst : exec HostCmd.decStep.instr s = .next s1 := hstep
    rw [List.replicate_succ, runScript_cons, hfirst]
    exact ih hloop

/-- The encode loop of every input ends its run within the bound. -/
theorem encodeLoop_ends (s : State) (bytes : List Byte) : ∃ e,
    encodeLoop (encodeBound bytes.length) (encClear (placeInput s bytes).enc) = .next e ∧
      e.done = true := by
  have hstart : AtChunk bytes 0 (encClear (placeInput s bytes).enc) := atChunk_encClear rfl rfl
  obtain ⟨e, hloop, -, hdone⟩ := encodeLoop_packs hstart List.drop_zero
    (fuel := encodeBound bytes.length) (by simp [encodeBound, chunkCount])
  exact ⟨e, hloop, hdone⟩

/-! ### Inputs one after the other -/

section
variable {a b : List Byte}

theorem streamBit_append_left {i : Nat} (h : i < 8 * a.length) :
    streamBit (a ++ b) i = streamBit a i := by
  rw [streamBit_eq, streamBit_eq, List.getD_append _ _ _ _ (by omega)]

theorem streamBit_append_right (i : Nat) :
    streamBit (a ++ b) (8 * a.length + i) = streamBit b i := by
  have hbyte : (8 * a.length + i) / 8 = a.length + i / 8 := by omega
  have hbit : (8 * a.length + i) % 8 = i % 8 := by omega
  rw [streamBit_eq, streamBit_eq, hbyte, hbit, List.getD_append_right _ _ _ _ (Nat.le_add_right _ _),
    Nat.add_sub_cancel_left]

theorem chunkFrom_congr {x y : List Byte} {p q : Nat}
    (h : ∀ i < 7, streamBit x (p + i) = streamBit y (q + i)) : chunkFrom x p = chunkFrom y q := by
  have hbits : ((List.range 7).map fun i => streamBit x (p + i)) =
      (List.range 7).map fun i => streamBit y (q + i) :=
    List.map_congr_left fun i hi => h i (List.mem_range.1 hi)
  rw [chunkFrom, chunkFrom, hbits]

/-- The chunks of two inputs one after the other, the first a whole number of chunks (R112). -/
theorem chunksOf_append (h : a.length % 7 = 0) : chunksOf (a ++ b) = chunksOf a ++ chunksOf b := by
  have hwhole : 7 * chunkCount a.length = 8 * a.length := by
    simp only [chunkCount]
    omega
  have hcount : chunkCount (a ++ b).length = chunkCount a.length + chunkCount b.length := by
    simp only [chunkCount, List.length_append]
    omega
  rw [chunksOf, hcount, List.range_add, List.map_append, List.map_map]
  congr 1
  · refine List.map_congr_left fun j hj => chunkFrom_congr fun i hi => streamBit_append_left ?_
    have := List.mem_range.1 hj
    omega
  · refine List.map_congr_left fun j _ => chunkFrom_congr fun i _ => ?_
    rw [Nat.mul_add, hwhole, Nat.add_assoc, streamBit_append_right]

end

/-! ### The text of one byte (95_test_vectors.md section 4) -/

/-- The two chunks of one byte: its first seven bits, and its last with six fill bits. -/
theorem chunksOf_singleton (b : Byte) :
    chunksOf [b] = [b.extractLsb' 1 7, b.extractLsb' 0 1 ++ 0#6] := by
  have hfirst : chunkFrom [b] 0 = b.extractLsb' 1 7 :=
    (joinBytes_eq_chunkFrom [b] 0 (o := 0) (by decide)).symm.trans
      ((joinBytes_eq_window (by decide) _ _).trans (window_of_first b 0#8 1 7))
  have hsecond : chunkFrom [b] 7 = b.extractLsb' 0 1 ++ 0#6 :=
    (joinBytes_eq_chunkFrom [b] 0 (o := 7) (by decide)).symm.trans
      ((joinBytes_eq_window (by decide) _ _).trans (window_across b 0#8 1 6 (by decide)))
  rw [← hfirst, ← hsecond]
  simp [chunksOf, chunkCount, List.range_succ]

theorem lastChunk_toNat (b : Byte) : (b.extractLsb' 0 1 ++ 0#6).toNat = 64 * (b.toNat % 2) := by
  rw [toNat_append_eq_add]
  simp

/-- A dangerous first chunk takes the other as its payload. -/
theorem packChunks_singleton_dangerous {b : Byte} {k : Index}
    (h : classOf (b.extractLsb' 1 7) = .dangerous k) :
    packChunks (chunksOf [b]) = [BitVec.ofNat 8 (0xC2 + 4 * k.val + b.toNat % 2), 0x80#8] := by
  have hindex : (indexField k).toNat = k.val := by
    have := k.isLt
    simp [indexField]
    omega
  have hfirst : escByte1 (indexField k) (b.extractLsb' 0 1 ++ 0#6) =
      BitVec.ofNat 8 (0xC2 + 4 * k.val + b.toNat % 2) := by
    have := k.isLt
    apply BitVec.eq_of_toNat_eq
    rw [escByte1_toNat, lastChunk_toNat, hindex, BitVec.toNat_ofNat]
    omega
  have hsecond : escByte2 (b.extractLsb' 0 1 ++ 0#6) = 0x80#8 := by
    apply BitVec.eq_of_toNat_eq
    rw [escByte2_toNat, lastChunk_toNat]
    simp
  rw [chunksOf_singleton, packChunks_pair h, escapeBytes, hfirst, hsecond]
  rfl

/-- After a safe first chunk the other is packed by itself: 0 is dangerous, 0x40 is safe. -/
theorem packChunks_singleton_safe {b : Byte} (h : classOf (b.extractLsb' 1 7) = .safe) :
    packChunks (chunksOf [b]) =
      if b.toNat % 2 = 0 then [b >>> 1, 0xDE#8, 0x80#8] else [b >>> 1, 0x40#8] := by
  have hfirst : (b.extractLsb' 1 7).setWidth 8 = b >>> 1 := by
    have hb := b.isLt
    apply BitVec.eq_of_toNat_eq
    simp [Nat.shiftRight_eq_div_pow]
    omega
  rw [chunksOf_singleton, packChunks_safe h, hfirst]
  split
  · next h0 =>
    have hlast : b.extractLsb' 0 1 ++ 0#6 = 0x00#7 := by
      apply BitVec.eq_of_toNat_eq
      rw [lastChunk_toNat, h0]
      rfl
    rw [hlast]
    rfl
  · next h1 =>
    have hlast : b.extractLsb' 0 1 ++ 0#6 = 0x40#7 := by
      apply BitVec.eq_of_toNat_eq
      rw [lastChunk_toNat, Nat.mod_two_ne_zero.1 h1]
      rfl
    rw [hlast]
    rfl

end Sys2Proof.Machine

/-- Settles O21: the loop of ENCODE is a script of ENC.STEPs, as many as its bound. -/
theorem encodeIsStartAndSteps : Obligations.EncodeIsStartAndSteps := by
  intro s bytes
  obtain ⟨e, hloop, hdone⟩ := encodeLoop_ends s bytes
  refine ⟨_, setScript (setEnc (placeInput s bytes) e) [], exec_encode_of_loop hloop, ?_, hdone, rfl⟩
  rw [runScript_cons]
  exact runScript_encSteps (s := setEnc (placeInput s bytes) (encClear (placeInput s bytes).enc)) hloop

/-- Settles O41: the loop of DECODE is a script of DEC.STEPs, as many as its bound. -/
theorem decodeIsStartAndSteps : Obligations.DecodeIsStartAndSteps := by
  intro s text
  obtain ⟨d, hloop, hdone⟩ := decodeLoop_ends s text
  refine ⟨_, setScript (setDec (placeText s text) d) [], exec_decode_of_loop hloop, ?_, hdone, rfl⟩
  rw [runScript_cons]
  exact runScript_decSteps hloop

/-- Settles O24: the first chunk is packed by its class, with the other as payload or by itself. -/
theorem oneByteEncodings : Obligations.OneByteEncodings := by
  intro s b
  obtain ⟨t, hexec, htext, -⟩ := encodePacksChunks s [b]
  refine ⟨t, hexec, htext.trans ?_⟩
  cases hc : classOf (b.extractLsb' 1 7) with
  | safe => exact packChunks_singleton_safe hc
  | dangerous k => exact packChunks_singleton_dangerous hc

/-- Settles O42: each unit of `pack` is valid and yields the chunks that it packs. -/
theorem packedTextParses : Obligations.PackedTextParses :=
  fun strict cs => textChunks_packChunks strict cs le_rfl

/-- Settles O44: the two texts parse one after the other, to the chunks of both inputs together. -/
theorem concatenationAtSevenBytes : Obligations.ConcatenationAtSevenBytes := by
  intro s a b hwhole
  have hpacked : ∀ bytes, Parses s.strict (packChunks (chunksOf bytes)) (chunksOf bytes) :=
    fun bytes => parses_iff.2 (packedTextParses s.strict _)
  have hparses := (hpacked a).append (hpacked b)
  rw [← chunksOf_append hwhole] at hparses
  exact ⟨_, exec_decode_of_loop (decodeLoop_start_of_parses hparses), decodedEngine_err s _ _,
    (holdsChunks_decodedEngine s _ _).output⟩

/-- Settles O45: each text parses to chunks that spell the same bytes, and ENCODE gives one text. -/
theorem decodeNotInjective : Obligations.DecodeNotInjective := by
  intro s gives
  have hgives : ∀ (text : List Byte) (cs : List Chunk) (bytes : List Byte),
      (∀ strict, parseText strict text = .ok cs) → chunkBytes cs = bytes → gives text bytes := by
    rintro text cs _ hparse rfl
    obtain ⟨t, hexec, hdone, herr, -, -, hout, -⟩ := decodeOfValidText s text cs (hparse s.strict)
    exact ⟨t, hexec, hdone, herr, hout⟩
  obtain ⟨t, hexec, htext, -⟩ := encodePacksChunks s [0x41#8]
  exact ⟨hgives [] [] [] (by decide) (by decide), hgives [0x20#8] [0x20#7] [] (by decide) (by decide),
    hgives _ [0x20#7, 0x40#7] _ (by decide) (by decide),
    hgives _ [0x20#7, 0x41#7] _ (by decide) (by decide),
    hgives _ [0x0A#7, 0x20#7] _ (by decide) (by decide),
    hgives _ [0x0A#7, 0x20#7] _ (by decide) (by decide), t, hexec, htext.trans (by decide)⟩

end
